-- ==== Sys2Proof/Word.lean ====
section
/-! DEFINITION. The widths and counts that the source fixes (spec/00_scope.md R6, origin "source"), the types of the
block's values, and the two ports a word can stand at. A width that is a decision of the spec is an entry of the table
`Params` (Config.lean), and what it bounds has a type that rests on that entry: a register address given to the codec
(`Params.Address`), a selector packed into a request (`Params.Selector`), the code of a command, the number of an
operation and of a result (U3; log 25). A packed request word is the number its bits make. The types stand with their
numbers, so that decision procedures see them; that they are the widths of R6 is `types_have_the_widths` of
Laws/Config.lean. -/

namespace Sys2Proof

namespace Config

/-- `WORD_WIDTH` (R6; source). -/
abbrev wordWidth : Nat := 16
/-- `DATA_WIDTH` (R6; source). -/
abbrev dataWidth : Nat := 8
/-- `FREQ_BITS` (R6; source). -/
abbrev freqBits : Nat := 32
/-- `PHASE_BITS` (R6; source): legal phase values are below `2^PHASE_BITS` (R82). -/
abbrev phaseBits : Nat := 12
/-- `N_FREQ_BANKS` (R6; source). -/
abbrev nFreqBanks : Nat := 2
/-- `N_PHASE_BANKS` (R6; source). -/
abbrev nPhaseBanks : Nat := 4
/-- `N_FREQ_WORDS` (R6; source). -/
abbrev nFreqWords : Nat := 4
/-- `N_PHASE_WORDS` (R6; source). -/
abbrev nPhaseWords : Nat := 2

end Config

/-- A command word, `WORD_WIDTH` bits (R6, R50, R68). The three control mirrors have the same width, since they are
stored word-aligned (R13 to R15). -/
abbrev CommandWord := BitVec 16

/-- The data byte of a command word, `DATA_WIDTH` bits (R6, R36). -/
abbrev Byte := BitVec 8

/-- A frequency value, `FREQ_BITS` bits (R6), also the width of a request's `val` field (R63). -/
abbrev Value := BitVec 32

/-- An encoded word at one of the block's two encoded interfaces (spec/30_encoding.md, opening): a packed
request on the request port (format REQ), or a command word of the bus port (formats DW and CW). -/
inductive PortWord where
  | request (w : Nat)
  | command (w : CommandWord)
  deriving DecidableEq, Repr

end Sys2Proof
end

