-- ==== Sys2Proof/Config.lean ====
section
/-! DEFINITION. The parameter table of spec/00_scope.md R6, taken as one argument by every definition that uses a
parameter: the closed sets of names it speaks of, the table itself (`Params`), and the table of the spec's defaults
(`Config.params`; decisions D1 to D9 of spec/92_eei_decisions.md; log 11). The widths and counts of the source, which
the types of the values rest on, stand in Word.lean. -/

namespace Sys2Proof

/-- The closed set of command codes: "an enumerated value identifying the register class and transfer width"
(R52). -/
inductive CommandCode where
  | frequency8
  | frequency16
  | phase8
  | phase16
  | enableControl
  | bankSelect
  | syncSourceSelect
  deriving DecidableEq, Repr

/-- The three control mirrors (R10, R13 to R15). -/
inductive ControlMirror where
  | outputControl
  | bankSelect
  | syncSource
  deriving DecidableEq, Repr

/-- The six operations a request can name (R64). -/
inductive Operation where
  | setFrequency
  | setPhase
  | setOutputEnabled
  | selectActiveFrequencyBank
  | selectActivePhaseBank
  | selectSyncSource
  deriving DecidableEq, Repr

/-- The four values of the register `res_kind` (R20); their numbers are `ResKind.code` (R70). -/
inductive ResKind where
  | ok
  | invalidInputError
  | outOfRangeError
  | transportError
  deriving DecidableEq, Repr

/-- `MIRROR_COMMIT` (R6, R147): whether a mirror is written before the transfer or only after it succeeds. -/
inductive MirrorCommit where
  | before
  | after
  deriving DecidableEq, Repr

/-- Two fields, each given by its position and its width, share no bit. -/
abbrev apart (shift width shift' width' : Nat) : Prop := shift + width ≤ shift' ∨ shift' + width' ≤ shift

/-- The three fields of a data word (R50, decision D1), with the constraints of R7 item 1 carried in the type: a layout
whose fields overlap, or do not fit the word, cannot be written. -/
structure WordLayout where
  /-- `DATA_SHIFT`. -/
  dataShift : Nat
  /-- `ADDR_SHIFT`. -/
  addrShift : Nat
  /-- `ADDR_WIDTH` (R30). -/
  addrWidth : Nat
  /-- `CMD_SHIFT`. -/
  cmdShift : Nat
  /-- `CMD_WIDTH`. -/
  cmdWidth : Nat
  /-- The widths make up the word. -/
  widths : cmdWidth + addrWidth + Config.dataWidth = Config.wordWidth
  /-- Each field lies within the word. -/
  fieldsFit : cmdShift + cmdWidth ≤ Config.wordWidth ∧ addrShift + addrWidth ≤ Config.wordWidth
    ∧ dataShift + Config.dataWidth ≤ Config.wordWidth
  /-- The three fields do not overlap. -/
  fieldsApart : apart cmdShift cmdWidth addrShift addrWidth ∧ apart cmdShift cmdWidth dataShift Config.dataWidth
    ∧ apart addrShift addrWidth dataShift Config.dataWidth

/-- The layout of a packed request word (R63), with the numbers of the operations (R64): the entry "Request word
layout" of R6. The `val` field is `FREQ_BITS` wide in every layout, since it carries a whole frequency value. That the
fields lie within the word and do not overlap is carried in the type (log 27). -/
structure RequestLayout where
  /-- The bits of a request word. -/
  width : Nat
  /-- The position of the field `op`. -/
  opShift : Nat
  /-- The width of the field `op`. -/
  opWidth : Nat
  /-- The position of the field `sel`. -/
  selShift : Nat
  /-- The width of the field `sel`. -/
  selWidth : Nat
  /-- The position of the field `val`. -/
  valShift : Nat
  /-- The number of an operation (R64), which fits its field. -/
  op : Operation → Fin (2 ^ opWidth)
  /-- Each field lies within the word. -/
  fieldsFit : opShift + opWidth ≤ width ∧ selShift + selWidth ≤ width ∧ valShift + Config.freqBits ≤ width
  /-- The three fields do not overlap. -/
  fieldsApart : apart opShift opWidth selShift selWidth ∧ apart opShift opWidth valShift Config.freqBits
    ∧ apart selShift selWidth valShift Config.freqBits

/-- The encoding of `res_kind` (R70): the entry "Result encoding" of R6. -/
structure ResultEncoding where
  /-- The bits of `res_kind`. -/
  width : Nat
  /-- The number of a kind of result, which fits `res_kind`. -/
  code : ResKind → Fin (2 ^ width)

/-- The parameter table (R6). A definition that uses a parameter takes the table as its argument `p`, by default
`Config.params`. `TransportErrorPayload` is a type and is the type parameter of the state instead. A code or an address
that does not fit its field cannot be written (R7 items 2 and 3, U3). -/
structure Params extends WordLayout where
  /-- `CODE[c]` (R52), `CMD_WIDTH` bits. -/
  code : CommandCode → Fin (2 ^ cmdWidth)
  /-- `FREQ_BASE[bank]`, the highest address of a frequency bank (R32), `ADDR_WIDTH` bits, with the constraint
  `FREQ_BASE[b] >= 3` of R7 item 3 and R35 carried in its type. -/
  freqBase : Fin 2 → { a : Fin (2 ^ addrWidth) // 3 ≤ a.val }
  /-- `PHASE_BASE[bank]`, the highest address of a phase bank (R32), `ADDR_WIDTH` bits, with the constraint
  `PHASE_BASE[b] >= 1` of R7 item 3 and R35 carried in its type. -/
  phaseBase : Fin 4 → { a : Fin (2 ^ addrWidth) // 1 ≤ a.val }
  /-- `OC_SLEEP` (R13). -/
  ocSleep : CommandWord
  /-- `OC_RESET` (R13). -/
  ocReset : CommandWord
  /-- `OC_CLEAR` (R13). -/
  ocClear : CommandWord
  /-- `BS_FREQ` (R14). -/
  bsFreq : CommandWord
  /-- `BS_PHASE_SHIFT` (R14). -/
  bsPhaseShift : Nat
  /-- `SS_SELSRC` (R15). -/
  ssSelsrc : CommandWord
  /-- `MIRROR_COMMIT` (R147). -/
  mirrorCommit : MirrorCommit
  /-- `BANKSEL_RESET` (R25). -/
  bankselReset : CommandWord
  /-- `SYNCSRC_RESET` (R25). -/
  syncsrcReset : CommandWord
  /-- `ATTACH_EMITS` (R191). -/
  attachEmits : Bool
  /-- The request word layout (R63). -/
  request : RequestLayout
  /-- The result encoding (R70). -/
  result : ResultEncoding

/-- A register address of `ADDR_WIDTH` bits (R30, R80): a wider one cannot be written (U3). -/
abbrev Params.Address (p : Params) : Type := Fin (2 ^ p.addrWidth)

/-- A selector that fits the field `sel` of a request word (R63). -/
abbrev Params.Selector (p : Params) : Type := Fin (2 ^ p.request.selWidth)

/-- `OC_MASK` (R6, derived there). -/
def Params.ocMask (p : Params) : CommandWord := p.ocSleep ||| p.ocReset ||| p.ocClear
/-- `BS_PHASE_MASK = 3 << BS_PHASE_SHIFT` (R6, derived there). -/
def Params.bsPhaseMask (p : Params) : CommandWord := 3#16 <<< p.bsPhaseShift
/-- `BS_MASK` (R6, derived there). -/
def Params.bsMask (p : Params) : CommandWord := p.bsFreq ||| p.bsPhaseMask
/-- `SS_MASK` (R6, derived there). -/
def Params.ssMask (p : Params) : CommandWord := p.ssSelsrc

/-- The owned mask of a mirror (R18). -/
def Params.ownedMask (p : Params) : ControlMirror → CommandWord
  | .outputControl => p.ocMask
  | .bankSelect => p.bsMask
  | .syncSource => p.ssMask

/-- The values of the mirrors after reset, in any table (R13, R25). -/
def Params.resetMirror (p : Params) : ControlMirror → CommandWord
  | .outputControl => p.ocMask
  | .bankSelect => p.bankselReset
  | .syncSource => p.syncsrcReset

/-- The bits of a mirror outside its owned mask: no merge writes them (R17), so they are those of the reset value. With
the default table they are 0 (R18). -/
def Params.unownedBits (p : Params) (which : ControlMirror) : CommandWord :=
  p.resetMirror which &&& ~~~p.ownedMask which

namespace Config

/-- The code of the control word that carries a mirror (R60). -/
def controlCode : ControlMirror → CommandCode
  | .outputControl => .enableControl
  | .bankSelect => .bankSelect
  | .syncSource => .syncSourceSelect

/-- The default code numbers (R52, decision D2). -/
def defaultCode : CommandCode → Fin 16
  | .phase16 => 0x0
  | .phase8 => 0x1
  | .frequency16 => 0x2
  | .frequency8 => 0x3
  | .bankSelect => 0x6
  | .syncSourceSelect => 0x8
  | .enableControl => 0xC

/-- The default bases of the frequency banks (R32, decision D3). -/
def defaultFreqBase : Fin 2 → { a : Fin 16 // 3 ≤ a.val }
  | 0 => ⟨0x3, by decide⟩
  | 1 => ⟨0x7, by decide⟩

/-- The default bases of the phase banks (R32, decision D3). -/
def defaultPhaseBase : Fin 4 → { a : Fin 16 // 1 ≤ a.val }
  | 0 => ⟨0x9, by decide⟩
  | 1 => ⟨0xB, by decide⟩
  | 2 => ⟨0xD, by decide⟩
  | 3 => ⟨0xF, by decide⟩

/-- The default layout of a request word (R63, decision D8): `op` is bits 39:36, `sel` bits 35:32, `val` bits 31:0. -/
def defaultRequest : RequestLayout where
  width := 40
  opShift := 36
  opWidth := 4
  selShift := 32
  selWidth := 4
  valShift := 0
  op
    | .setFrequency => 0x1
    | .setPhase => 0x2
    | .setOutputEnabled => 0x3
    | .selectActiveFrequencyBank => 0x4
    | .selectActivePhaseBank => 0x5
    | .selectSyncSource => 0x6
  fieldsFit := by decide
  fieldsApart := by decide

/-- The default result encoding (R70, decision D9). -/
def defaultResult : ResultEncoding where
  width := 2
  code
    | .ok => 0
    | .invalidInputError => 1
    | .outOfRangeError => 2
    | .transportError => 3

/-- The table of the spec's defaults (R6): the shifts and widths by decision D1, the codes by D2, the bases by D3, the
mirror bits by D4 (`SLEEP` bit 13, `RESET` bit 12, `CLEAR` bit 11; `FREQ` bit 11, phase field bits 10:9; `SELSRC` bit
12), the reset values by D6, the request layout by D8, the result encoding by D9; `MIRROR_COMMIT = BEFORE` by D5 and
`ATTACH_EMITS = true` by D7 (log 12). `exec` and `step` run with it. -/
def params : Params where
  dataShift := 0
  addrShift := 8
  addrWidth := 4
  cmdShift := 12
  cmdWidth := 4
  widths := rfl
  fieldsFit := by decide
  fieldsApart := by decide
  code := defaultCode
  freqBase := defaultFreqBase
  phaseBase := defaultPhaseBase
  ocSleep := 0x2000
  ocReset := 0x1000
  ocClear := 0x0800
  bsFreq := 0x0800
  bsPhaseShift := 9
  ssSelsrc := 0x1000
  mirrorCommit := .before
  bankselReset := 0x0000
  syncsrcReset := 0x0000
  attachEmits := true
  request := defaultRequest
  result := defaultResult

end Config
end Sys2Proof
end

