-- ==== Sys2Proof/Syntax.lean ====
section
/-! DEFINITION. The instructions: one constructor per row of spec/opcode_table.json. The six requests are "this
hardware's instructions" (spec/43_operations.md); the seven command words are what the sequencer presents on
the bus port, one at each step of an atom (spec/42_sequencer.md R128). -/

namespace Sys2Proof

/-- One constructor per row of the opcode table. A request keeps both its fields as the port delivers them
(R63, R67): `sel`, a bank number or a boolean, and `val`, which the four control operations ignore. A data
command word keeps its address and byte (R50), a control command word the variable bits of its mirror (R60). -/
inductive Instr where
  /-- `op` 0x1 (R64, R141): `sel` is the bank, `val` the 32-bit frequency register value. -/
  | setFrequency (sel : Nat) (val : Value)
  /-- `op` 0x2 (R64, R142): `sel` is the bank, `val` the phase value. -/
  | setPhase (sel : Nat) (val : Value)
  /-- `op` 0x3 (R64, R143): `sel` is the boolean `enabled`. -/
  | setOutputEnabled (sel : Nat) (val : Value)
  /-- `op` 0x4 (R64, R144): `sel` is the boolean `select`. -/
  | selectActiveFrequencyBank (sel : Nat) (val : Value)
  /-- `op` 0x5 (R64, R145): `sel` is the bank. -/
  | selectActivePhaseBank (sel : Nat) (val : Value)
  /-- `op` 0x6 (R64, R146): `sel` is the boolean `useExternal`. -/
  | selectSyncSource (sel : Nat) (val : Value)
  /-- The low byte of a phase value (R56). -/
  | phase16 (addr : Nat) (data : Byte)
  /-- The high byte of a phase value; data bits 7:4 are zero (R55). -/
  | phase8 (addr : Nat) (data : Byte)
  /-- Byte 1 or byte 3 of a frequency value (R54). -/
  | frequency16 (addr : Nat) (data : Byte)
  /-- Byte 0 or byte 2 of a frequency value (R53). -/
  | frequency8 (addr : Nat) (data : Byte)
  /-- The `bankSelect` mirror (R58). -/
  | bankSelect (freq : Bool) (phase : BitVec 2)
  /-- The `syncSource` mirror (R59). -/
  | syncSourceSelect (selsrc : Bool)
  /-- The `outputControl` mirror (R57). -/
  | enableControl (sleep reset clear : Bool)
  deriving DecidableEq, Repr

end Sys2Proof
end

