-- ==== Sys2Proof/WellFormed.lean ====
section
/-! DEFINITION. Which terms of `Instr`, and which words, a table has a place for: the bounds the field types do not
already carry. -/

namespace Sys2Proof

/-- A number as one below the given bound, where it is one; nothing is cut off. -/
def narrow (bound n : Nat) : Option (Fin bound) := if h : n < bound then some ⟨n, h⟩ else none

/-- A selector, where it fits the field `sel` of a request word (R63). -/
def Params.selector? (p : Params) (sel : Nat) : Option p.Selector := narrow _ sel

/-- A register address, where it fits the field `addr` of a data word (R30, R50, U3). -/
def Params.address? (p : Params) (addr : Nat) : Option p.Address := narrow _ addr

/-- A byte is the high byte of a phase value: its bits above the value's are zero (R55; mask 0xF0F0, conflict C11). -/
def phaseHighByte (data : Byte) : Bool := decide (data.toNat < 2 ^ (Config.phaseBits - Config.dataWidth))

/-- A term is well formed when the opcode table has a word for it: its selector or its address fits its field, and the
byte of a PHASE_8 word is the high byte of a phase value. A request with a bank or a boolean outside its valid set is
well formed: the block answers it with an error (R66, R172). -/
def Instr.wellFormed (i : Instr) (p : Params := Config.params) : Bool :=
  match i with
  | .setFrequency sel _ => (p.selector? sel).isSome
  | .setPhase sel _ => (p.selector? sel).isSome
  | .setOutputEnabled sel _ => (p.selector? sel).isSome
  | .selectActiveFrequencyBank sel _ => (p.selector? sel).isSome
  | .selectActivePhaseBank sel _ => (p.selector? sel).isSome
  | .selectSyncSource sel _ => (p.selector? sel).isSome
  | .phase16 addr _ => (p.address? addr).isSome
  | .phase8 addr data => (p.address? addr).isSome && phaseHighByte data
  | .frequency16 addr _ => (p.address? addr).isSome
  | .frequency8 addr _ => (p.address? addr).isSome
  | .bankSelect _ _ => true
  | .syncSourceSelect _ => true
  | .enableControl _ _ _ => true

/-- A word is one its port can carry: a request word has `request.width` bits (R63, R68); a command word has its
sixteen by its type. -/
def PortWord.wellFormed (w : PortWord) (p : Params := Config.params) : Bool :=
  match w with
  | .request w => decide (w < 2 ^ p.request.width)
  | .command _ => true

end Sys2Proof
end

