-- ==== Sys2Proof/Decode.lean ====
section
/-! DEFINITION. Decoding and encoding of the two kinds of word (spec/30_encoding.md): the packed request word
(R63 to R66) and the 16-bit command word (R50, R60, R61), with the two word-building functions of the codec that
every emitted word goes through, `encodeWord` (R80) and `encodeControlWord` (R86). -/

namespace Sys2Proof

/-- The field of `width` bits at bit `shift` of a word, as the unsigned number it is (R8, R67). -/
def field (w shift width : Nat) : Nat := w / 2 ^ shift % 2 ^ width

/-- Why a word names no instruction. -/
inductive DecodeError where
  /-- A request whose `op` is no operation's number: by default 0x0 or 0x7 to 0xF (R65). -/
  | reservedOp
  /-- A command word that no row's match and mask admit (R62). -/
  | neverEmitted
  deriving DecidableEq, Repr

/-- The request decoder: the fields `op`, `sel` and `val` by the layout of R63, by default bits 39:36, 35:32 and 31:0,
and `op` by the numbers of R64. A malformed boolean (R66) still names its operation, whose meaning answers
`InvalidInputError`. Bits of the number above `request.width` are none of the port's, and no field lies there
(`RequestLayout.fieldsFit`). -/
def decodeRequest (w : Nat) (p : Params := Config.params) : Except DecodeError Instr :=
  let op : Nat := field w p.request.opShift p.request.opWidth
  let sel : Nat := field w p.request.selShift p.request.selWidth
  let val : Value := BitVec.ofNat 32 (field w p.request.valShift Config.freqBits)
  if op = (p.request.op .setFrequency).val then .ok (.setFrequency sel val)
  else if op = (p.request.op .setPhase).val then .ok (.setPhase sel val)
  else if op = (p.request.op .setOutputEnabled).val then .ok (.setOutputEnabled sel val)
  else if op = (p.request.op .selectActiveFrequencyBank).val then .ok (.selectActiveFrequencyBank sel val)
  else if op = (p.request.op .selectActivePhaseBank).val then .ok (.selectActivePhaseBank sel val)
  else if op = (p.request.op .selectSyncSource).val then .ok (.selectSyncSource sel val)
  else .error .reservedOp

/-- A flag of a control word: any bit of its mask set (the mask is one bit, R7 item 4). -/
def flagSet (w mask : CommandWord) : Bool := decide (w &&& mask ≠ 0)

/-- `CODE[c] << CMD_SHIFT` (R80, R86). -/
def shiftedCode (c : CommandCode) (p : Params := Config.params) : CommandWord :=
  BitVec.ofNat 16 (p.code c).val <<< p.cmdShift

/-- What stands in a control word outside the owned mask of its mirror: the shifted code and the mirror's unowned bits
(R60, R86). With the default table it is the shifted code. -/
def controlPattern (which : ControlMirror) (p : Params := Config.params) : CommandWord :=
  shiftedCode (Config.controlCode which) p ||| p.unownedBits which

/-- The command word decoder, row by row (R61 with its last paragraph, conflict C11): a control word is its pattern
(`controlPattern`) and, besides, bits of its owned mask only; a data word is recognised by its `cmd` field, a PHASE_8 word also by the zero
bits of its byte above the value's high part. With the default table the tests are those of R61, each narrowed to its
row of spec/opcode_table.json; for another table the reading is the model's (DESIGN CHOICE, log 26). -/
def decodeCommand (w : CommandWord) (p : Params := Config.params) : Except DecodeError Instr :=
  let cmd : Nat := field w.toNat p.cmdShift p.cmdWidth
  let addr : Nat := field w.toNat p.addrShift p.addrWidth
  let data : Byte := w.extractLsb' p.dataShift 8
  if w &&& ~~~p.ocMask = controlPattern .outputControl p then
    .ok (.enableControl (flagSet w p.ocSleep) (flagSet w p.ocReset) (flagSet w p.ocClear))
  else if w &&& ~~~p.ssMask = controlPattern .syncSource p then .ok (.syncSourceSelect (flagSet w p.ssSelsrc))
  else if w &&& ~~~p.bsMask = controlPattern .bankSelect p then
    .ok (.bankSelect (flagSet w p.bsFreq) (w.extractLsb' p.bsPhaseShift 2))
  else if cmd = (p.code .frequency8).val then .ok (.frequency8 addr data)
  else if cmd = (p.code .frequency16).val then .ok (.frequency16 addr data)
  else if cmd = (p.code .phase8).val then
    if phaseHighByte data then .ok (.phase8 addr data) else .error .neverEmitted
  else if cmd = (p.code .phase16).val then .ok (.phase16 addr data)
  else .error .neverEmitted

/-- Decoding at either port: total, and rejecting by name. -/
def decode (word : PortWord) (p : Params := Config.params) : Except DecodeError Instr :=
  match word with
  | .request w => decodeRequest w p
  | .command w => decodeCommand w p

/-- `encodeWord(code, address, byte) = (CODE[code] << CMD_SHIFT) | (address << ADDR_SHIFT) | (byte << DATA_SHIFT)`
(R80): pure and total. The operands are bounded by their types, so that an address wider than `ADDR_WIDTH` cannot be
written (U3), and the table's fields lie within the word and apart, so that no bit is cut off or runs into another
field. -/
def encodeWord (p : Params) (code : CommandCode) (address : p.Address) (byte : Byte) : CommandWord :=
  shiftedCode code p ||| (BitVec.ofNat 16 address.val <<< p.addrShift) ||| (byte.setWidth 16 <<< p.dataShift)

/-- The data word of a code, an address given as a number, and a byte: there is none where the address is wider than
`ADDR_WIDTH` (U3). -/
def dataWord (p : Params) (code : CommandCode) (addr : Nat) (data : Byte) : Option CommandWord :=
  (p.address? addr).map fun a => encodeWord p code a data

/-- The PHASE_8 word: besides, its byte is the high byte of a phase value (R55). -/
def phase8Word (p : Params) (addr : Nat) (data : Byte) : Option CommandWord :=
  if phaseHighByte data then dataWord p .phase8 addr data else none

/-- `encodeControlWord(code, mirror) = (CODE[code] << CMD_SHIFT) | mirror` (R86). The first operand names the mirror,
and with it its code, so that a code and a mirror that do not belong together cannot be written. -/
def encodeControlWord (which : ControlMirror) (mirror : CommandWord) (p : Params := Config.params) : CommandWord :=
  shiftedCode (Config.controlCode which) p ||| mirror

/-- A mask when its bit is set, else zero: one field of a mirror (R13 to R15). -/
def bitField (mask : CommandWord) (b : Bool) : CommandWord := if b then mask else 0

/-- The `outputControl` value with the given SLEEP, RESET and CLEAR bits (R13); its reset value has no other bit. -/
def outputControlOf (sleep reset clear : Bool) (p : Params := Config.params) : CommandWord :=
  bitField p.ocSleep sleep ||| bitField p.ocReset reset ||| bitField p.ocClear clear

/-- The `bankSelect` value with the given FREQ bit and PHASE field (R14), and the unowned bits it always has. -/
def bankSelectOf (freq : Bool) (phase : BitVec 2) (p : Params := Config.params) : CommandWord :=
  bitField p.bsFreq freq ||| (phase.setWidth 16 <<< p.bsPhaseShift) ||| p.unownedBits .bankSelect

/-- The `syncSource` value with the given SELSRC bit (R15), and the unowned bits it always has. -/
def syncSourceOf (selsrc : Bool) (p : Params := Config.params) : CommandWord :=
  bitField p.ssSelsrc selsrc ||| p.unownedBits .syncSource

/-- The packed request word of an operation and its two operands (R63, R64). -/
def packRequest (p : Params) (op : Operation) (sel : p.Selector) (val : Value) : Nat :=
  ((p.request.op op).val <<< p.request.opShift) ||| (sel.val <<< p.request.selShift)
    ||| (val.toNat <<< p.request.valShift)

/-- The request word of an operation whose selector is given as a number: there is none where the selector does not
fit. -/
def requestWord (p : Params) (op : Operation) (sel : Nat) (val : Value) : Option PortWord :=
  (p.selector? sel).map fun s => .request (packRequest p op s val)

/-- The word of an instruction: operation numbers from R64, data words by R80, control words by R86. A term that is not
well formed has none. -/
def encode (i : Instr) (p : Params := Config.params) : Option PortWord :=
  match i with
  | .setFrequency sel val => requestWord p .setFrequency sel val
  | .setPhase sel val => requestWord p .setPhase sel val
  | .setOutputEnabled sel val => requestWord p .setOutputEnabled sel val
  | .selectActiveFrequencyBank sel val => requestWord p .selectActiveFrequencyBank sel val
  | .selectActivePhaseBank sel val => requestWord p .selectActivePhaseBank sel val
  | .selectSyncSource sel val => requestWord p .selectSyncSource sel val
  | .phase16 addr data => (dataWord p .phase16 addr data).map .command
  | .phase8 addr data => (phase8Word p addr data).map .command
  | .frequency16 addr data => (dataWord p .frequency16 addr data).map .command
  | .frequency8 addr data => (dataWord p .frequency8 addr data).map .command
  | .bankSelect freq phase => some (.command (encodeControlWord .bankSelect (bankSelectOf freq phase p) p))
  | .syncSourceSelect selsrc => some (.command (encodeControlWord .syncSource (syncSourceOf selsrc p) p))
  | .enableControl sleep reset clear =>
      some (.command (encodeControlWord .outputControl (outputControlOf sleep reset clear p) p))

/-- `res_kind` as the number the requester reads (R70). -/
def ResKind.code (k : ResKind) (p : Params := Config.params) : BitVec p.result.width :=
  BitVec.ofFin (p.result.code k)

/-- The word that stands in an instruction of `nbits` bits: the table has rows of 40 bits (format REQ) and of 16
bits (formats DW and CW), each one whole word (R68). -/
def tableWord (nbits w : Nat) : Option PortWord :=
  if nbits = Config.params.request.width then some (.request (w % 2 ^ Config.params.request.width))
  else if nbits = Config.wordWidth then some (.command (BitVec.ofNat 16 w))
  else none

/-- The instruction the decoder reads from a row's bits, numbered as spec/opcode_table.json numbers them. -/
def decodeTableWord (nbits w : Nat) : Option Instr :=
  match tableWord nbits w with
  | some p => (decode p).toOption
  | none => none

end Sys2Proof
end

