-- ==== Sys2Proof/Machine/State.lean ====
section
/-! DEFINITION. The state of the block (spec/10_state.md R10), the inputs the requester and the transport give it
(spec/00_scope.md R5), the event history a model records (R21) and the ghost shadow of the chip (R22); the reasons
a step can stop; the state after reset (R25). -/

namespace Sys2Proof.Machine

/-- The type that stands for `TransportErrorPayload`, the opaque value the transport returns on failure, where none is
given. The spec leaves the type open and has the model take it as an argument (R6, U7): it is the type parameter `ε` of
the answers, the results and the state, and every definition below the interface works for any `ε`. A tag out of
infinitely many is the instance that `Host.Core` runs (DESIGN CHOICE, log 3). -/
structure TransportErrorPayload where
  tag : Nat
  deriving DecidableEq, Repr

/-- The transport's answer to a presented word (R122). -/
inductive Ack (ε : Type := TransportErrorPayload) where
  | ok
  | err (e : ε)
  deriving DecidableEq, Repr

/-- The three error kinds (R170), with the payload that only `TransportError` carries. -/
inductive OpError (ε : Type := TransportErrorPayload) where
  | invalidInput
  | outOfRange
  | transport (e : ε)
  deriving DecidableEq, Repr

/-- The outcome of an operation, as the requester reads it (R20, R150). -/
inductive OpResult (ε : Type := TransportErrorPayload) where
  | ok
  | error (e : OpError ε)
  deriving DecidableEq, Repr

/-- `seq_buf[0..3]`, four 16-bit words (R19). -/
structure SeqBuf where
  w0 : CommandWord
  w1 : CommandWord
  w2 : CommandWord
  w3 : CommandWord
  deriving DecidableEq, Repr

/-- One entry of the wire trace: a presented word and its hold flag (R21, R72). -/
structure WireEvent where
  word : CommandWord
  hold : Bool
  deriving DecidableEq, Repr

/-- A mirror and the value to write to it: the argument of `commit(r, v)` (spec/43_operations.md section 3). -/
structure MirrorWrite where
  mirror : ControlMirror
  value : CommandWord
  deriving DecidableEq, Repr

/-- What the requester's side does, in the order it does it: present a packed request (R63), detach the device
(R193), attach it again (R190). -/
inductive HostEvent where
  | request (w : Nat)
  | detach
  | attach
  deriving DecidableEq, Repr

/-- Where the device instance is in its life (R24, R151): reset, with the attach transfer of R191 still to be
started; ready for requests; or detached. -/
inductive Lifecycle where
  | attaching
  | ready
  | detached
  deriving DecidableEq, Repr

/-- The register slots of the chip that are known, as (address, byte) pairs with addresses strictly rising. An
address that is not listed is `unknown` (R22). -/
abbrev Memory := List Host.Cell

/-- The canonical form of `Memory`: addresses strictly rising, each one of the `2^ADDR_WIDTH` slots (R30). No entry can
equal what an unlisted address reads as, because that is no value at all. -/
def Memory.wf (m : Memory) (p : Params := Config.params) : Bool :=
  match m with
  | [] => true
  | c :: rest => decide (c.1 < 2 ^ p.addrWidth) && rest.all (fun d => decide (c.1 < d.1)) && Memory.wf rest p

/-- The ghost device shadow (R22): the chip's own copies of the three control registers and of the register slots,
each a known value or `unknown`. No rule of the block reads it (DESIGN CHOICE, log 14). -/
structure ChipShadow where
  outputControl : Option CommandWord
  bankSelect : Option CommandWord
  syncSource : Option CommandWord
  slots : Memory
  deriving DecidableEq, Repr

/-- The machine. The fields from `outputControl` to `resPayload` are the block's registers (R10, the complete list);
the fields after them are the model's own rendering of what the spec names beside the registers. -/
structure State (ε : Type := TransportErrorPayload) where
  /-- Control mirror (R13). -/
  outputControl : CommandWord
  /-- Control mirror (R14). -/
  bankSelect : CommandWord
  /-- Control mirror (R15). -/
  syncSource : CommandWord
  /-- `seq_busy` (R19). -/
  seqBusy : Bool
  /-- `seq_buf[0..3]` (R19). -/
  seqBuf : SeqBuf
  /-- `seq_len`, 3 bits (R19). -/
  seqLen : BitVec 3
  /-- `seq_idx`, 3 bits, "the nearest thing to a program counter" (R12). -/
  seqIdx : BitVec 3
  /-- `res_kind` (R20, R70). -/
  resKind : ResKind
  /-- `res_payload` (R20). -/
  resPayload : ε
  /-- The sub-state "SEND, waiting" of R128: the word at `seq_idx` is on the bus and not yet answered (DESIGN
  CHOICE, log 17). -/
  awaiting : Bool
  /-- With `MIRROR_COMMIT = AFTER`, the write that stage 7 of R140 makes if the transfer succeeds (DESIGN CHOICE,
  log 17). -/
  pendingCommit : Option MirrorWrite
  /-- The lifecycle of R24. -/
  lifecycle : Lifecycle
  /-- Input: what the requester will present, in order (R5 (a), R41; DESIGN CHOICE, log 6). -/
  inputs : List HostEvent
  /-- Input: the answers the transport has given to the words still to be answered, in order (R5 (c), R130). When it
  is empty the transport has not answered, and the sequencer waits (R128, R203; DESIGN CHOICE, log 6). -/
  answers : List (Ack ε)
  /-- The wire trace, oldest word first (R21 (b); DESIGN CHOICE, log 16). -/
  trace : List WireEvent
  /-- The results of the attach transfer and of the requests, oldest first (R21 (a); DESIGN CHOICE, log 16). -/
  results : List (OpResult ε)
  /-- The ghost device shadow (R22). -/
  chip : ChipShadow
  deriving DecidableEq, Repr

/-- Reasons a step stops with a fault. No rule of the spec stops the machine: the three errors of R170 are results
after which the block goes on (R175, R176). -/
inductive Fault where
  /-- Raised by a step while `seq_busy` is 1 and `seq_idx` is not below `seq_len`, or beyond the four words of
  `seq_buf`: R128 gives no transition there (log 10). No run reaches it. Safe: the machine stops. -/
  | noWordAtSeqIdx
  deriving DecidableEq, Repr

/-- Reasons a step has no meaning. -/
inductive Refusal where
  /-- Raised by an arm of `exec` whose instruction has no meaning yet. Safe. No arm raises it. -/
  | notModelled (mnemonic : String)
  /-- Raised by a request given to a block whose `seq_busy` is 1: "a model gives a request presented during
  `seq_busy = 1` no step" (R196, U5). Safe. A run never raises it: `fetch` takes no request while busy. -/
  | requestWhileBusy
  /-- Raised by a request given to a block that has been reset and has not started its attach transfer, which comes
  "before it accepts any request" (R191). Safe. A run never raises it. -/
  | requestBeforeAttach
  /-- Raised by a request or a detach of a device that is detached: "no request has a meaning until the next attach"
  (R24, U6). Safe. -/
  | noDevice
  /-- Raised by an attach of a device that is attached: attach "happens once per device instance" (R190). Safe. -/
  | alreadyAttached
  /-- Raised by a command word that is not the word the sequencer is at: the block presents `seq_buf[seq_idx]` and
  nothing else, and nothing while idle (R128). Safe. A run never raises it. -/
  | wordNotInFlight
  /-- Raised by a data command word with an address wider than `ADDR_WIDTH`, or a PHASE_8 word with a byte that is not
  the high byte of a phase value: it has no word, and the codec is not called (R55, R80, U3: `refuse`). Safe. A run
  never raises it: no decoder gives such an instruction. -/
  | operandOutsideContract
  /-- Raised by a step whose word at `seq_idx` is no row of the table: "cannot be produced by any rule" (R62, U12).
  Safe. No run reaches it. -/
  | neverEmittedWord
  deriving DecidableEq, Repr

/-- The state right after reset, before the attach transfer (R25), for a given table: with `ATTACH_EMITS = false`
reset transmits nothing and the block is ready at once (R191). `res_payload`, which R25 leaves unspecified, is an
argument, and `seq_buf`, which it leaves unspecified too, is zero (DESIGN CHOICE, log 1). The values R25 marks as
decisions are taken as it gives them (log 13). -/
def State.resetWith {ε : Type} (p : Params) (payload : ε) : State ε where
  outputControl := p.ocMask
  bankSelect := p.bankselReset
  syncSource := p.syncsrcReset
  seqBusy := false
  seqBuf := ⟨0, 0, 0, 0⟩
  seqLen := 0
  seqIdx := 0
  resKind := .ok
  resPayload := payload
  awaiting := false
  pendingCommit := none
  lifecycle := if p.attachEmits then .attaching else .ready
  inputs := []
  answers := []
  trace := []
  results := []
  chip := { outputControl := none, bankSelect := none, syncSource := none, slots := [] }

/-- The machine right after reset (R25), with the default table and `res_payload` at tag 0 (DESIGN CHOICE, log 2). -/
def State.reset : State := State.resetWith Config.params ⟨0⟩

end Sys2Proof.Machine
end

