-- ==== Sys2Proof/Machine/Operands.lean ====
section
/-! DEFINITION. Operand forms: the three readings of `sel` (R63, R66, R172) and the value splits of the codec
(spec/40_codec.md R81, R82). Everything is unsigned and nothing is extended or scaled on its way in (R67, R85). -/

namespace Sys2Proof.Machine

variable {ε : Type}

/-- A boolean `sel`: 0 is false, 1 is true, 2 to 15 is a malformed boolean (R66). -/
def booleanOperand (sel : Nat) : Except (OpError ε) Bool :=
  if sel = 0 then .ok false else if sel = 1 then .ok true else .error .invalidInput

/-- The bank operand of `setFrequency`: valid 0 and 1, else `OutOfRangeError` (R141, R172). -/
def frequencyBankOperand (sel : Nat) : Except (OpError ε) (Fin 2) :=
  if h : sel < Config.nFreqBanks then .ok ⟨sel, h⟩ else .error .outOfRange

/-- The bank operand of `setPhase` and of `selectActivePhaseBank`: valid 0 to 3, else `OutOfRangeError` (R142,
R145, R172). -/
def phaseBankOperand (sel : Nat) : Except (OpError ε) (Fin 4) :=
  if h : sel < Config.nPhaseBanks then .ok ⟨sel, h⟩ else .error .outOfRange

/-- One element of a split: "(CommandCode, address, byte)" (R81, conflict C4), for addresses of the given width. -/
structure RegisterWrite (addrWidth : Nat) where
  code : CommandCode
  address : Fin (2 ^ addrWidth)
  byte : Byte
  deriving DecidableEq, Repr

/-- The command word of a split element (R80, R88). -/
def RegisterWrite.word (p : Params) (t : RegisterWrite p.addrWidth) : CommandWord :=
  encodeWord p t.code t.address t.byte

/-- The command words of a split, in transmission order: the atom of a data operation (R84, R88). -/
def atomWords (p : Params) (writes : List (RegisterWrite p.addrWidth)) : List CommandWord :=
  writes.map fun t => t.word p

/-- The address `k` below another (R84); one below 0 cannot be written (R35, U3). -/
def below {bound : Nat} (a : Fin bound) (k : Nat) (_h : k ≤ a.val) : Fin bound := ⟨a.val - k, by omega⟩

/-- `splitFrequency(value, baseAddress)` (R81): four bytes, most significant first, at descending addresses, tagged
FREQUENCY_8 and FREQUENCY_16 by turns. The bound on the base (R35, U3) stands in its type. -/
def splitFrequency {addrWidth : Nat} (value : Value) (base : { a : Fin (2 ^ addrWidth) // 3 ≤ a.val }) :
    List (RegisterWrite addrWidth) :=
  [ ⟨.frequency8, base.1, value.extractLsb' 24 8⟩,
    ⟨.frequency16, below base.1 1 (by have := base.2; omega), value.extractLsb' 16 8⟩,
    ⟨.frequency8, below base.1 2 (by have := base.2; omega), value.extractLsb' 8 8⟩,
    ⟨.frequency16, below base.1 3 base.2, value.extractLsb' 0 8⟩ ]

/-- `splitPhase(value, baseAddress)` (R82): `OutOfRangeError` exactly when `value >= 2^PHASE_BITS`, else the high byte
(bits 11:8 in its low nibble, decision D13) tagged PHASE_8 and the low byte tagged PHASE_16 (decision D12). -/
def splitPhase {addrWidth : Nat} (value : Value) (base : { a : Fin (2 ^ addrWidth) // 1 ≤ a.val }) :
    Except (OpError ε) (List (RegisterWrite addrWidth)) :=
  if 2 ^ Config.phaseBits ≤ value.toNat then .error .outOfRange
  else .ok
    [ ⟨.phase8, base.1, (value.extractLsb' 8 4).setWidth 8⟩,
      ⟨.phase16, below base.1 1 base.2, value.extractLsb' 0 8⟩ ]

end Sys2Proof.Machine
end

