-- ==== Sys2Proof/Machine/Flags.lean ====
section
/-! DEFINITION. The control bits and the kind of a result. The block has no condition codes and no operation sets a flag
as a side effect (R26); what other machines keep in flags stands here in the bits of the three control mirrors,
changed by the four merges of spec/41_control_merge.md, and in the result register (R20). -/

namespace Sys2Proof.Machine

variable {ε : Type}

/-- The kind of an outcome (R20). -/
def OpResult.kind : OpResult ε → ResKind
  | .ok => .ok
  | .error .invalidInput => .invalidInputError
  | .error .outOfRange => .outOfRangeError
  | .error (.transport _) => .transportError

/-- `mergeOutputEnabled(oc, enabled)` (R101): enable clears the three bits, disable sets the reset bit only. -/
def mergeOutputEnabled (oc : CommandWord) (enabled : Bool) (p : Params := Config.params) : CommandWord :=
  if enabled then oc &&& ~~~(p.ocSleep ||| p.ocReset ||| p.ocClear) else oc ||| p.ocReset

/-- The two states of the source's state machine of `outputControl` (R107): an abstraction of the bit patterns. -/
inductive OutputState where
  | resetSleepClear
  | enabled
  deriving DecidableEq, Repr

/-- The state a value of `outputControl` stands for (R107): ENABLED with no owned bit set, RESET_SLEEP_CLEAR with
RESET set. Other values, which no run reaches (R13), stand for neither. -/
def outputState (oc : CommandWord) (p : Params := Config.params) : Option OutputState :=
  if oc &&& p.ocMask = 0 then some .enabled
  else if oc &&& p.ocReset ≠ 0 then some .resetSleepClear
  else none

/-- `mergeFrequencyBank(bs, select)` (R102): sets or clears the FREQ bit. -/
def mergeFrequencyBank (bs : CommandWord) (select : Bool) (p : Params := Config.params) : CommandWord :=
  if select then bs ||| p.bsFreq else bs &&& ~~~p.bsFreq

/-- `mergePhaseBank(bs, bank)` (R103): `OutOfRangeError` exactly when `bank > 3`, checked before the field is cleared;
else the PHASE field is replaced by the number, shifted to its place (decision D22). -/
def mergePhaseBank (bs : CommandWord) (bank : Nat) (p : Params := Config.params) :
    Except (OpError ε) CommandWord :=
  match phaseBankOperand bank with
  | .error e => .error e
  | .ok b => .ok ((bs &&& ~~~p.bsPhaseMask) ||| (BitVec.ofNat 16 b.val <<< p.bsPhaseShift))

/-- `mergeSyncSource(ss, useExternal)` (R104): the polarity is inverted, true clears the bit and false sets it, and
"this inversion must be preserved" (R201, decision D14). -/
def mergeSyncSource (ss : CommandWord) (useExternal : Bool) (p : Params := Config.params) : CommandWord :=
  if useExternal then ss &&& ~~~p.ssSelsrc else ss ||| p.ssSelsrc

end Sys2Proof.Machine
end

