-- ==== Sys2Proof/Machine/Ops.lean ====
section
/-! DEFINITION. The shared operations: the chip's register slots (the only address space, R30), the mirrors, the
result of an operation and the errors (R175), the sequencer (spec/42_sequencer.md), acceptance (R140) and the
lifecycle (R190 to R193). -/

namespace Sys2Proof.Machine

variable {ε : Type}

/-! ## The register slots of the chip -/

/-- The byte at an address, or nothing where it is `unknown` (R22). The block itself has no load (R31). -/
def Memory.read (m : Memory) (a : Nat) : Option Byte :=
  match m with
  | [] => none
  | c :: rest => if c.1 = a then some c.2 else Memory.read rest a

/-- `MemWrite(a, 1, v)` on the ghost shadow (R8, R22). -/
def Memory.write (m : Memory) (a : Nat) (v : Byte) : Memory :=
  match m with
  | [] => [(a, v)]
  | c :: rest =>
      if a < c.1 then (a, v) :: c :: rest
      else if a = c.1 then (c.1, v) :: rest
      else c :: Memory.write rest a v

/-- The slot becomes `unknown` (R22, R198). -/
def Memory.forget (m : Memory) (a : Nat) : Memory := m.filter (fun c => c.1 != a)

/-- Where a command word goes in the chip and what it writes there (R22, R30, R60). -/
inductive ChipTarget where
  | slot (address : Nat) (byte : Byte)
  | register (which : ControlMirror) (value : CommandWord)
  deriving DecidableEq, Repr

/-- The target of a command word, by the classes of R61; the value of a control word is the word under its owned
mask (R7 item 4), with the unowned bits its mirror always has. A word the block never emits has none (R62). -/
def chipTarget (w : CommandWord) (p : Params := Config.params) : Option ChipTarget :=
  match decodeCommand w p with
  | .ok (.phase16 a d) => some (.slot a d)
  | .ok (.phase8 a d) => some (.slot a d)
  | .ok (.frequency16 a d) => some (.slot a d)
  | .ok (.frequency8 a d) => some (.slot a d)
  | .ok (.bankSelect _ _) => some (.register .bankSelect ((w &&& p.bsMask) ||| p.unownedBits .bankSelect))
  | .ok (.syncSourceSelect _) => some (.register .syncSource ((w &&& p.ssMask) ||| p.unownedBits .syncSource))
  | .ok (.enableControl _ _ _) => some (.register .outputControl (w &&& p.ocMask))
  | .ok (.setFrequency _ _) => none
  | .ok (.setPhase _ _) => none
  | .ok (.setOutputEnabled _ _) => none
  | .ok (.selectActiveFrequencyBank _ _) => none
  | .ok (.selectActivePhaseBank _ _) => none
  | .ok (.selectSyncSource _ _) => none
  | .error _ => none

/-- The shadow's copy of a control register takes a value, known or `unknown`. -/
def ChipShadow.setRegister (c : ChipShadow) (which : ControlMirror) (v : Option CommandWord) : ChipShadow :=
  match which with
  | .outputControl => { c with outputControl := v }
  | .bankSelect => { c with bankSelect := v }
  | .syncSource => { c with syncSource := v }

/-- The effect on the shadow of one word of an atom that completed (R22). -/
def ChipShadow.take (c : ChipShadow) (w : CommandWord) (p : Params := Config.params) : ChipShadow :=
  match chipTarget w p with
  | some (.slot a v) => { c with slots := Memory.write c.slots a v }
  | some (.register r v) => c.setRegister r (some v)
  | none => c

/-- The effect on the shadow of one word of an atom that failed: its target becomes `unknown`, whether or not the
word was presented (R22, R198, U1, U2, U10). -/
def ChipShadow.lose (c : ChipShadow) (w : CommandWord) (p : Params := Config.params) : ChipShadow :=
  match chipTarget w p with
  | some (.slot a _) => { c with slots := Memory.forget c.slots a }
  | some (.register r _) => c.setRegister r none
  | none => c

/-- The effect on the shadow of a whole atom that completed (R22). -/
def ChipShadow.takeAtom (c : ChipShadow) (words : List CommandWord) (p : Params := Config.params) : ChipShadow :=
  words.foldl (fun c w => c.take w p) c

/-- The effect on the shadow of a whole atom that failed at any word (R22, R198). -/
def ChipShadow.loseAtom (c : ChipShadow) (words : List CommandWord) (p : Params := Config.params) : ChipShadow :=
  words.foldl (fun c w => c.lose w p) c

/-- `dev.freq[bank]` (R22): the 32-bit value of a frequency bank where all its four slots are known, the most
significant byte at the highest address (R33). -/
def ChipShadow.frequency (c : ChipShadow) (bank : Fin 2) (p : Params := Config.params) : Option Value :=
  let base := (p.freqBase bank).1.val
  match Memory.read c.slots base, Memory.read c.slots (base - 1), Memory.read c.slots (base - 2),
    Memory.read c.slots (base - 3) with
  | some b0, some b1, some b2, some b3 => some (b0 ++ b1 ++ b2 ++ b3)
  | _, _, _, _ => none

/-- `dev.phase[bank]` (R22): the 12-bit value `{b0[3:0], b1}` of a phase bank where both its slots are known (R83). -/
def ChipShadow.phase (c : ChipShadow) (bank : Fin 4) (p : Params := Config.params) :
    Option (BitVec 12) :=
  let base := (p.phaseBase bank).1.val
  match Memory.read c.slots base, Memory.read c.slots (base - 1) with
  | some b0, some b1 => some (b0.extractLsb' 0 4 ++ b1)
  | _, _ => none

/-! ## Mirrors -/

/-- Reading a mirror is its name (R8). -/
def State.mirror (s : State ε) : ControlMirror → CommandWord
  | .outputControl => s.outputControl
  | .bankSelect => s.bankSelect
  | .syncSource => s.syncSource

/-- `r <- v` (R8). -/
def State.commit (s : State ε) (m : MirrorWrite) : State ε :=
  match m.mirror with
  | .outputControl => { s with outputControl := m.value }
  | .bankSelect => { s with bankSelect := m.value }
  | .syncSource => { s with syncSource := m.value }

/-- Stage 7 of R140 after an OK transfer: the write that `MIRROR_COMMIT = AFTER` has kept for it. -/
def State.commitPending (s : State ε) : State ε :=
  match s.pendingCommit with
  | some m => s.commit m
  | none => s

/-! ## The end of an operation, and errors -/

/-- Stage 8 of R140: the result is written, `seq_busy <- 0`, and the block is ready for the next request. `res_payload`
is written for a `TransportError` only (R175); for the other outcomes it keeps its value, which is meaningless (R20;
DEDUCED, log 4). -/
def State.finish (s : State ε) (r : OpResult ε) : State ε :=
  { s with
    seqBusy := false
    awaiting := false
    pendingCommit := none
    resKind := r.kind
    resPayload := match r with
      | .error (.transport e) => e
      | .error .invalidInput => s.resPayload
      | .error .outOfRange => s.resPayload
      | .ok => s.resPayload
    results := s.results ++ [r] }

/-- TAKING AN EXCEPTION: "`raise` ends the operation at once with that result" (R8, R175). Nothing is saved, there is no
handler, vector or mode, and no way back is needed: there is no return instruction, and the next request "simply
starts from the state R175 left" (R176). -/
def State.raise (s : State ε) (e : OpError ε) : State ε := s.finish (.error e)

/-! ## The sequencer -/

/-- `seq_buf[i]`. -/
def SeqBuf.word? (b : SeqBuf) : Nat → Option CommandWord
  | 0 => some b.w0
  | 1 => some b.w1
  | 2 => some b.w2
  | 3 => some b.w3
  | _ => none

/-- The words `seq_buf[0..n-1]`, in transmission order. -/
def SeqBuf.words (b : SeqBuf) (n : Nat) : List CommandWord := [b.w0, b.w1, b.w2, b.w3].take n

/-- `seq_buf[i] <- words[i]` for each word of the atom (R128); the other words of the buffer are left. -/
def SeqBuf.load (b : SeqBuf) (words : List CommandWord) : SeqBuf :=
  { w0 := words[0]?.getD b.w0
    w1 := words[1]?.getD b.w1
    w2 := words[2]?.getD b.w2
    w3 := words[3]?.getD b.w3 }

/-- The atom in the buffer: its `seq_len` words. -/
def State.atom (s : State ε) : List CommandWord := s.seqBuf.words s.seqLen.toNat

/-- The word the sequencer is at: `seq_buf[seq_idx]` while in SEND (`seq_busy = 1`, `seq_idx < seq_len`, R128). -/
def State.currentWord? (s : State ε) : Option CommandWord :=
  if s.seqBusy ∧ s.seqIdx.toNat < s.seqLen.toNat then s.seqBuf.word? s.seqIdx.toNat else none

/-- The hold flag of the word at `seq_idx`: 1 on every word but the last, and nothing else influences it (R121). -/
def State.hold (s : State ε) : Bool := decide (s.seqIdx.toNat < s.seqLen.toNat - 1)

/-- The hold output of the bus port: combinational, `seq_idx < seq_len - 1` while a word is presented and 0 while idle
(R19). R19 does not give it in SEND before the word is presented (`seq_busy` 1 and nothing waiting); there the model
already outputs the hold flag of the word at `seq_idx`, so that after the `ok` to the last word but one it falls before
the last word is presented (DESIGN CHOICE, log 24). -/
def State.holdOutput (s : State ε) : Bool := s.seqBusy && s.hold

/-- IDLE to SEND: the operation loads an atom (R128, first row). -/
def State.loadAtom (s : State ε) (words : List CommandWord) : State ε :=
  { s with
    seqBuf := s.seqBuf.load words
    seqLen := BitVec.ofNat 3 words.length
    seqIdx := 0
    seqBusy := true
    awaiting := false }

/-- `Emit(w, hold)`: the pair enters the wire trace and the sequencer waits for the answer (R8, R128, second row). -/
def State.present (s : State ε) (w : CommandWord) : State ε :=
  { s with
    trace := s.trace ++ [⟨w, s.hold⟩]
    awaiting := true }

/-- The answer `ok` to the word at `seq_idx` (R128, third and fourth rows): the next word, or, after the last, the end
of the operation with `OK`; the chip then has the whole atom (R22). -/
def State.acknowledge (s : State ε) (p : Params := Config.params) : State ε :=
  if s.seqIdx.toNat + 1 < s.seqLen.toNat then
    { s with seqIdx := s.seqIdx + 1, awaiting := false }
  else
    { s.commitPending with
      seqIdx := s.seqLen
      chip := s.chip.takeAtom s.atom p }.finish .ok

/-- The answer `err(e)` to the word at `seq_idx` (R123; R128, fifth row): the later words are never presented, `seq_idx`
stays, nothing is sent to close the atom, and the chip's target is `unknown` (R22). -/
def State.abort (s : State ε) (e : ε) (p : Params := Config.params) : State ε :=
  { s with chip := s.chip.loseAtom s.atom p }.raise (.transport e)

/-- The transport's part (R122, R130): the answer to the presented word is taken; with none there, the sequencer keeps
waiting (R128, R203, U9). -/
def State.takeAnswer (s : State ε) (p : Params := Config.params) : State ε :=
  match s.answers with
  | [] => s
  | .ok :: rest => State.acknowledge { s with answers := rest } p
  | .err e :: rest => State.abort { s with answers := rest } e p

/-- One visit of the SEND state (R128): the word at `seq_idx` is presented, exactly once, and its answer is taken if the
transport has given it. -/
def State.sendWord (s : State ε) (p : Params := Config.params) : State ε :=
  match s.currentWord? with
  | none => s
  | some w => (if s.awaiting then s else s.present w).takeAnswer p

/-- The loop of `transmit` (R120): visit after visit until the operation has ended or the sequencer waits for the
transport. The first argument bounds the number of visits. -/
def State.sendWords (n : Nat) (s : State ε) (p : Params := Config.params) : State ε :=
  match n with
  | 0 => s
  | n + 1 =>
      let t := s.sendWord p
      if t.seqBusy ∧ t.awaiting = false then State.sendWords n t p else t

/-- `transmit(words)` (R120), for at most four words: the only function that touches the bus. An empty list presents
nothing and returns OK (R126). `seq_buf`, `seq_len` and `seq_idx` keep their last values when it has ended (log 15). A
list of more than four words is outside its contract (log 20). -/
def State.transmit (s : State ε) (words : List CommandWord) (p : Params := Config.params) : State ε :=
  match words with
  | [] => s.finish .ok
  | _ :: _ => State.sendWords words.length (s.loadAtom words) p

/-- The exchange-level view (R129): the word by word answers that stand for the transport's one answer to a whole
exchange of `n` words, either `ok` or "failed at word k with payload e". -/
def exchangeAnswers (n : Nat) : Option (Nat × ε) → List (Ack ε)
  | none => List.replicate n .ok
  | some (k, e) => List.replicate k .ok ++ [.err e]

/-- The meaning of a command word: the sequencer presents it, if it is the word `seq_idx` is at (R128). The block
presents no other word, and none while idle. -/
def sendCommand (w : CommandWord) (s : State ε) (p : Params := Config.params) : Host.Outcome (State ε) Fault Refusal :=
  if s.currentWord? = some w then .next (s.sendWord p) else .refused .wordNotInFlight

/-- The meaning of a command word whose operands are given as numbers: where one is outside the contract of the codec
there is no word, and nothing is presented (R80, U3: `refuse`). -/
def sendDataCommand (word : Option CommandWord) (s : State ε) (p : Params := Config.params) :
    Host.Outcome (State ε) Fault Refusal :=
  match word with
  | some w => sendCommand w s p
  | none => .refused .operandOutsideContract

/-! ## Operations -/

/-- Stage 1 of R140: a request is accepted only while `seq_busy = 0`; acceptance sets `seq_busy <- 1`, nothing is kept
from an earlier operation, and the operation runs to its result, or until it waits for the transport. A block that has
not started its attach transfer (R191), or that is detached (R24), accepts none. -/
def acceptRequest (op : State ε → State ε) (s : State ε) : Host.Outcome (State ε) Fault Refusal :=
  if s.seqBusy then .refused .requestWhileBusy
  else
    match s.lifecycle with
    | .attaching => .refused .requestBeforeAttach
    | .detached => .refused .noDevice
    | .ready => .next (op { s with seqBusy := true, pendingCommit := none })

/-- Stages 4 to 7 of R140 for a control operation: `commit(r, v)` before the transfer or kept until it has succeeded, as
`MIRROR_COMMIT` says (R147), and the one-word atom, built from the new value in both orders (R125). -/
def controlTransfer (p : Params) (m : MirrorWrite) (s : State ε) : State ε :=
  let s' := match p.mirrorCommit with
    | .before => s.commit m
    | .after => { s with pendingCommit := some m }
  s'.transmit [encodeControlWord m.mirror m.value p] p

/-- The transfer of a data operation: the words of a split, as one atom (R88, R141, R142). -/
def dataTransfer (p : Params) (writes : List (RegisterWrite p.addrWidth)) (s : State ε) : State ε :=
  s.transmit (atomWords p writes) p

/-- A request that names no operation: `InvalidInputError`, no other state changes and nothing is presented (R65). -/
def rejectRequest (s : State ε) : State ε := s.raise .invalidInput

/-! ## Lifecycle -/

/-- The attach transfer (R191): one ENABLE_CONTROL word carrying `outputControl`; its result is reported like an
operation's, and the block is ready whatever the answer. -/
def attachTransfer (s : State ε) (p : Params := Config.params) : State ε :=
  { s with lifecycle := .ready, seqBusy := true, pendingCommit := none }.transmit
    [encodeControlWord .outputControl s.outputControl p] p

/-- Detach (R193): nothing is presented and no register is written; from here on no state of the block has a meaning. -/
def detach (s : State ε) : State ε := { s with lifecycle := .detached }

/-- The next attach of a detached device (R24, R190): reset, with the inputs from outside left as they are (log 8) and
with `res_payload`, which R25 leaves unspecified, as it was (log 2). -/
def reattach (s : State ε) (p : Params := Config.params) : State ε :=
  { State.resetWith p s.resPayload with inputs := s.inputs, answers := s.answers }

end Sys2Proof.Machine
end

