-- ==== Sys2Proof/Machine/CommandWords.lean ====
section
/-! DEFINITION. The seven command words (spec/30_encoding.md R53 to R59), the family of DW and CW rows. To the block a
command word is what the sequencer does with it at one visit of the SEND state (R128): present it with its hold
flag, take the transport's answer, and go on to the next word, end the operation or abort it. The sequencer does
not look inside the word (R131); only the ghost shadow of the chip does (R22). -/

namespace Sys2Proof.Machine

/-- The meaning of a `PHASE_16` word (R56). -/
def execPhase16 (addr : Nat) (data : Byte) (s : State) : Host.Outcome State Fault Refusal :=
  sendDataCommand (dataWord Config.params .phase16 addr data) s

/-- The meaning of a `PHASE_8` word (R55). -/
def execPhase8 (addr : Nat) (data : Byte) (s : State) : Host.Outcome State Fault Refusal :=
  sendDataCommand (phase8Word Config.params addr data) s

/-- The meaning of a `FREQUENCY_16` word (R54). -/
def execFrequency16 (addr : Nat) (data : Byte) (s : State) : Host.Outcome State Fault Refusal :=
  sendDataCommand (dataWord Config.params .frequency16 addr data) s

/-- The meaning of a `FREQUENCY_8` word (R53). -/
def execFrequency8 (addr : Nat) (data : Byte) (s : State) : Host.Outcome State Fault Refusal :=
  sendDataCommand (dataWord Config.params .frequency8 addr data) s

/-- The meaning of a `BANK_SELECT` word (R58). -/
def execBankSelect (freq : Bool) (phase : BitVec 2) (s : State) : Host.Outcome State Fault Refusal :=
  sendCommand (encodeControlWord .bankSelect (bankSelectOf freq phase)) s

/-- The meaning of a `SYNC_SOURCE_SELECT` word (R59). -/
def execSyncSourceSelect (selsrc : Bool) (s : State) : Host.Outcome State Fault Refusal :=
  sendCommand (encodeControlWord .syncSource (syncSourceOf selsrc)) s

/-- The meaning of an `ENABLE_CONTROL` word (R57). -/
def execEnableControl (sleep reset clear : Bool) (s : State) : Host.Outcome State Fault Refusal :=
  sendCommand (encodeControlWord .outputControl (outputControlOf sleep reset clear)) s

end Sys2Proof.Machine
end

