-- ==== Sys2Proof/Machine/Operations.lean ====
section
/-! DEFINITION. The six operations of DeviceController (spec/43_operations.md R141 to R146), the family of request
rows. Each `…Op` is the operation after acceptance, for a given table; each `exec…` is the instruction's meaning. -/

namespace Sys2Proof.Machine

variable {ε : Type}

/-- `setFrequency(bank, value)` (R141): range check, split, one atom of four words. -/
def setFrequencyOp (p : Params) (bank : Nat) (value : Value) (s : State ε) : State ε :=
  match frequencyBankOperand bank with
  | .error e => s.raise e
  | .ok b => dataTransfer p (splitFrequency value (p.freqBase b)) s

/-- `setPhase(bank, value)` (R142): bank check, value check, split, one atom of two words (decision D19 for the order of
the checks, which cannot be observed). -/
def setPhaseOp (p : Params) (bank : Nat) (value : Value) (s : State ε) : State ε :=
  match phaseBankOperand bank with
  | .error e => s.raise e
  | .ok b =>
    match splitPhase value (p.phaseBase b) with
    | .error e => s.raise e
    | .ok writes => dataTransfer p writes s

/-- `setOutputEnabled(enabled)` (R143). -/
def setOutputEnabledOp (p : Params) (sel : Nat) (s : State ε) : State ε :=
  match booleanOperand sel with
  | .error e => s.raise e
  | .ok enabled => controlTransfer p ⟨.outputControl, mergeOutputEnabled s.outputControl enabled p⟩ s

/-- `selectActiveFrequencyBank(select)` (R144). -/
def selectActiveFrequencyBankOp (p : Params) (sel : Nat) (s : State ε) : State ε :=
  match booleanOperand sel with
  | .error e => s.raise e
  | .ok select => controlTransfer p ⟨.bankSelect, mergeFrequencyBank s.bankSelect select p⟩ s

/-- `selectActivePhaseBank(bank)` (R145): the range check stands inside the merge (R103). -/
def selectActivePhaseBankOp (p : Params) (bank : Nat) (s : State ε) : State ε :=
  match mergePhaseBank s.bankSelect bank p with
  | .error e => s.raise e
  | .ok bs => controlTransfer p ⟨.bankSelect, bs⟩ s

/-- `selectSyncSource(useExternal)` (R146). -/
def selectSyncSourceOp (p : Params) (sel : Nat) (s : State ε) : State ε :=
  match booleanOperand sel with
  | .error e => s.raise e
  | .ok useExternal => controlTransfer p ⟨.syncSource, mergeSyncSource s.syncSource useExternal p⟩ s

/-- The meaning of `setFrequency` (R141). -/
def execSetFrequency (sel : Nat) (val : Value) (s : State) : Host.Outcome State Fault Refusal :=
  acceptRequest (setFrequencyOp Config.params sel val) s

/-- The meaning of `setPhase` (R142). -/
def execSetPhase (sel : Nat) (val : Value) (s : State) : Host.Outcome State Fault Refusal :=
  acceptRequest (setPhaseOp Config.params sel val) s

/-- The meaning of `setOutputEnabled` (R143); `val` is ignored (R63). -/
def execSetOutputEnabled (sel : Nat) (_val : Value) (s : State) : Host.Outcome State Fault Refusal :=
  acceptRequest (setOutputEnabledOp Config.params sel) s

/-- The meaning of `selectActiveFrequencyBank` (R144); `val` is ignored (R63). -/
def execSelectActiveFrequencyBank (sel : Nat) (_val : Value) (s : State) : Host.Outcome State Fault Refusal :=
  acceptRequest (selectActiveFrequencyBankOp Config.params sel) s

/-- The meaning of `selectActivePhaseBank` (R145); `val` is ignored (R63). -/
def execSelectActivePhaseBank (sel : Nat) (_val : Value) (s : State) : Host.Outcome State Fault Refusal :=
  acceptRequest (selectActivePhaseBankOp Config.params sel) s

/-- The meaning of `selectSyncSource` (R146); `val` is ignored (R63). -/
def execSelectSyncSource (sel : Nat) (_val : Value) (s : State) : Host.Outcome State Fault Refusal :=
  acceptRequest (selectSyncSourceOp Config.params sel) s

end Sys2Proof.Machine
end

