-- ==== Sys2Proof/Machine/Dispatch.lean ====
section
/-! DEFINITION. `exec`: one arm per constructor of `Instr`, each one call of the instruction's meaning. -/

namespace Sys2Proof.Machine

def exec (i : Instr) (s : State) : Host.Outcome State Fault Refusal :=
  match i with
  | .setFrequency sel val => Sys2Proof.Machine.execSetFrequency sel val s
  | .setPhase sel val => Sys2Proof.Machine.execSetPhase sel val s
  | .setOutputEnabled sel val => Sys2Proof.Machine.execSetOutputEnabled sel val s
  | .selectActiveFrequencyBank sel val => Sys2Proof.Machine.execSelectActiveFrequencyBank sel val s
  | .selectActivePhaseBank sel val => Sys2Proof.Machine.execSelectActivePhaseBank sel val s
  | .selectSyncSource sel val => Sys2Proof.Machine.execSelectSyncSource sel val s
  | .phase16 addr data => Sys2Proof.Machine.execPhase16 addr data s
  | .phase8 addr data => Sys2Proof.Machine.execPhase8 addr data s
  | .frequency16 addr data => Sys2Proof.Machine.execFrequency16 addr data s
  | .frequency8 addr data => Sys2Proof.Machine.execFrequency8 addr data s
  | .bankSelect freq phase => Sys2Proof.Machine.execBankSelect freq phase s
  | .syncSourceSelect selsrc => Sys2Proof.Machine.execSyncSourceSelect selsrc s
  | .enableControl sleep reset clear => Sys2Proof.Machine.execEnableControl sleep reset clear s

end Sys2Proof.Machine
end

