-- ==== Sys2Proof/Machine/Fetch.lean ====
section
/-! DEFINITION. What the block does next. It has no program counter and fetches no instructions (R12, R42): while an
operation is in flight the next thing is the word at `seq_idx`, and while it is idle the next input of the requester,
delivered whole (R140). -/

namespace Sys2Proof.Machine

variable {ε : Type}

/-- What a step is to do. -/
inductive Fetched (ε : Type := TransportErrorPayload) where
  /-- An instruction, and the state it is to run in. -/
  | run (i : Instr) (s : State ε)
  /-- An act of the block's own that is no instruction, already done. -/
  | done (s : State ε)
  /-- The machine stops. -/
  | fault (r : Fault)
  /-- The event has no meaning here. -/
  | refuse (r : Refusal)
  deriving DecidableEq, Repr

/-- While busy: the word at `seq_idx`, decoded (R61, R128). -/
def fetchWord (s : State ε) (p : Params := Config.params) : Fetched ε :=
  match s.currentWord? with
  | none => .fault .noWordAtSeqIdx
  | some w =>
    match decodeCommand w p with
    | .ok i => .run i s
    | .error _ => .refuse .neverEmittedWord

/-- While idle and ready: the requester's next event, sampled whole and taken off the port (R42, R140). With none
there, the block does nothing (log 19). A request that names no operation is answered with `InvalidInputError` (R65). -/
def fetchEvent (s : State ε) (p : Params := Config.params) : Fetched ε :=
  match s.inputs with
  | [] => .done s
  | .request w :: rest =>
    match decodeRequest w p with
    | .ok i => .run i { s with inputs := rest }
    | .error _ => .done (rejectRequest { s with inputs := rest })
  | .detach :: rest => .done (detach { s with inputs := rest })
  | .attach :: _ => .refuse .alreadyAttached

/-- While detached: nothing has a meaning until the next attach (R24, U6). -/
def fetchDetached (s : State ε) (p : Params := Config.params) : Fetched ε :=
  match s.inputs with
  | [] => .done s
  | .attach :: rest => .done (reattach { s with inputs := rest } p)
  | .request _ :: _ => .refuse .noDevice
  | .detach :: _ => .refuse .noDevice

/-- The next thing the block does: the word in flight before anything else (R127); after reset the attach transfer,
before any request (R191). -/
def fetch (s : State ε) (p : Params := Config.params) : Fetched ε :=
  if s.seqBusy then fetchWord s p
  else
    match s.lifecycle with
    | .attaching => .done (attachTransfer s p)
    | .ready => fetchEvent s p
    | .detached => fetchDetached s p

/-- The state in which the next thing fetched is the given word: a request stands first on the request port of an
idle, ready block; a command word is a one-word atom loaded into the sequencer (R128). -/
def placeWord (s : State ε) : PortWord → State ε
  | .request w =>
      { s with lifecycle := .ready, seqBusy := false, awaiting := false, inputs := .request w :: s.inputs }
  | .command w => s.loadAtom [w]

end Sys2Proof.Machine
end

