-- ==== Sys2Proof/Machine/Step.lean ====
section
/-! DEFINITION. One step of the machine, and the placing of a word where the step fetches. -/

namespace Sys2Proof.Machine

/-- One step: the next thing the block does (`fetch`), an instruction going through `exec`. A request runs to its
result within its step (R2), unless the transport has not answered a word of it; the words left are then sent by the
steps that follow (DESIGN CHOICE, log 5). -/
def step (s : State) : Host.Outcome State Fault Refusal :=
  match fetch s with
  | .run i s' => exec i s'
  | .done s' => .next s'
  | .fault r => .fault r
  | .refuse r => .refused r

/-- `s` with the instruction of `nbits` bits whose bits are `w` placed where the next step fetches (log 7). -/
def State.withFetchWord (s : State) (nbits w : Nat) : State :=
  match tableWord nbits w with
  | some p => placeWord s p
  | none => s

end Sys2Proof.Machine
end

