-- ==== Sys2Proof/Machine/Parametric.lean ====
section
/-! DEFINITION. The machine over any parameter table (R6) and any type of the transport's payload (U7). `exec` and
`step` are its instance at the default table. -/

namespace Sys2Proof.Machine

variable {ε : Type}

/-- The meaning of an instruction under a parameter table: a request is accepted and run (R140 to R146), a command
word is sent if it is the word in flight (R128). -/
def execWith (p : Params) (i : Instr) (s : State ε) : Host.Outcome (State ε) Fault Refusal :=
  match i with
  | .setFrequency sel val => acceptRequest (setFrequencyOp p sel val) s
  | .setPhase sel val => acceptRequest (setPhaseOp p sel val) s
  | .setOutputEnabled sel _ => acceptRequest (setOutputEnabledOp p sel) s
  | .selectActiveFrequencyBank sel _ => acceptRequest (selectActiveFrequencyBankOp p sel) s
  | .selectActivePhaseBank sel _ => acceptRequest (selectActivePhaseBankOp p sel) s
  | .selectSyncSource sel _ => acceptRequest (selectSyncSourceOp p sel) s
  | .phase16 addr data => sendDataCommand (dataWord p .phase16 addr data) s p
  | .phase8 addr data => sendDataCommand (phase8Word p addr data) s p
  | .frequency16 addr data => sendDataCommand (dataWord p .frequency16 addr data) s p
  | .frequency8 addr data => sendDataCommand (dataWord p .frequency8 addr data) s p
  | .bankSelect freq phase => sendCommand (encodeControlWord .bankSelect (bankSelectOf freq phase p) p) s p
  | .syncSourceSelect selsrc => sendCommand (encodeControlWord .syncSource (syncSourceOf selsrc p) p) s p
  | .enableControl sleep reset clear =>
      sendCommand (encodeControlWord .outputControl (outputControlOf sleep reset clear p) p) s p

/-- One step under a parameter table. -/
def stepWith (p : Params) (s : State ε) : Host.Outcome (State ε) Fault Refusal :=
  match fetch s p with
  | .run i s' => execWith p i s'
  | .done s' => .next s'
  | .fault r => .fault r
  | .refuse r => .refused r

end Sys2Proof.Machine
end

