-- ==== Sys2Proof/Safety.lean ====
section
/-! DEFINITION. The terms in which statements speak of the machine: what a parameter table must satisfy (R7), when a
request can run and what it transmits, what may stand on the wire (R53 to R59, R62), the invariants of the block (R16,
R18, R19, R20, R22), and the change of the transport's payload (U7). -/

namespace Sys2Proof.Machine

variable {ε ε' : Type}

/-- The legal values of a mirror: the three reachable ones of R13 (all owned bits, none, RESET alone), any subset of the
owned bits for the others (R14, R15). -/
def legalMirror (which : ControlMirror) (v : CommandWord) (p : Params := Config.params) : Prop :=
  match which with
  | .outputControl => v = p.ocMask ∨ v = 0 ∨ v = p.ocReset
  | .bankSelect => v &&& ~~~p.bsMask = 0
  | .syncSource => v &&& ~~~p.ssMask = 0

end Sys2Proof.Machine

namespace Sys2Proof

/-! ## The constraints on the parameter table (R7) -/

/-- A mask of exactly one bit of the word. -/
def singleBit (mask : CommandWord) : Prop := ∃ n, n < Config.wordWidth ∧ mask = 1#16 <<< n

/-- The register slots of the six banks, as numbers: four down from each `FREQ_BASE`, two down from each `PHASE_BASE`
(R32, R33). -/
def Params.slotAddresses (p : Params) : List Nat :=
  (List.finRange Config.nFreqBanks).flatMap
      (fun b => (List.range Config.nFreqWords).map fun i => (p.freqBase b).1.val - i)
  ++ (List.finRange Config.nPhaseBanks).flatMap
      (fun b => (List.range Config.nPhaseWords).map fun i => (p.phaseBase b).1.val - i)

/-- The values a mirror can hold and a control word can carry: the reset value, whatever bits it has, and what the
mirror's own merges make of such values (R16, R101 to R104). A value sent with `MIRROR_COMMIT = AFTER` and not committed
is one of them (R147). -/
inductive Params.MirrorValue (p : Params) : ControlMirror → CommandWord → Prop where
  | reset (which : ControlMirror) : p.MirrorValue which (p.resetMirror which)
  | outputEnabled {oc : CommandWord} (enabled : Bool) (h : p.MirrorValue .outputControl oc) :
      p.MirrorValue .outputControl (Machine.mergeOutputEnabled oc enabled p)
  | frequencyBank {bs : CommandWord} (select : Bool) (h : p.MirrorValue .bankSelect bs) :
      p.MirrorValue .bankSelect (Machine.mergeFrequencyBank bs select p)
  | phaseBank {bs bs' : CommandWord} (bank : Nat) (h : p.MirrorValue .bankSelect bs)
      (hm : Machine.mergePhaseBank (ε := Machine.TransportErrorPayload) bs bank p = .ok bs') :
      p.MirrorValue .bankSelect bs'
  | syncSource {ss : CommandWord} (useExternal : Bool) (h : p.MirrorValue .syncSource ss) :
      p.MirrorValue .syncSource (Machine.mergeSyncSource ss useExternal p)

/-- The words the block can emit for a command code, in any table: the words of the splits that the code tags, and the
control words of the values a mirror can hold (R53 to R60). The reset value of a mirror is sent when a merge finds the
mirror's bits as it would set them. That a step sends no other word is `stepWith_keeps_emitted` of Laws/Emitted.lean. -/
def Params.Emits (p : Params) (c : CommandCode) (w : CommandWord) : Prop :=
  (∃ (bank : Fin 2) (value : Value) (t : Machine.RegisterWrite p.addrWidth),
      t ∈ Machine.splitFrequency value (p.freqBase bank) ∧ t.code = c ∧ t.word p = w)
  ∨ (∃ (bank : Fin 4) (value : Value) (writes : List (Machine.RegisterWrite p.addrWidth))
      (t : Machine.RegisterWrite p.addrWidth),
      Machine.splitPhase (ε := Machine.TransportErrorPayload) value (p.phaseBase bank) = .ok writes
        ∧ t ∈ writes ∧ t.code = c ∧ t.word p = w)
  ∨ (∃ (which : ControlMirror) (v : CommandWord),
      p.MirrorValue which v ∧ Config.controlCode which = c ∧ encodeControlWord which v p = w)

/-- The constraints of R7 on a table, item by item. Where the types already carry a part of them (the fields of the
word, the bounds on the codes and the bases) it is stated all the same. -/
structure Params.MeetsConstraints (p : Params) : Prop where
  /-- Item 1: the widths. -/
  widths : p.cmdWidth + p.addrWidth + Config.dataWidth = Config.wordWidth ∧ Config.wordWidth = 16
    ∧ Config.dataWidth = 8
  /-- Item 1: each field lies within the word. -/
  fieldsFit : p.cmdShift + p.cmdWidth ≤ Config.wordWidth ∧ p.addrShift + p.addrWidth ≤ Config.wordWidth
    ∧ p.dataShift + Config.dataWidth ≤ Config.wordWidth
  /-- Item 1: the three fields do not overlap. -/
  fieldsDisjoint : apart p.cmdShift p.cmdWidth p.addrShift p.addrWidth
    ∧ apart p.cmdShift p.cmdWidth p.dataShift Config.dataWidth
    ∧ apart p.addrShift p.addrWidth p.dataShift Config.dataWidth
  /-- Item 2: each code fits in its field. -/
  codesFit : ∀ c : CommandCode, (p.code c).val < 2 ^ p.cmdWidth
  /-- Item 2: the seven codes are pairwise distinct. -/
  codesDistinct : ∀ c d : CommandCode, p.code c = p.code d → c = d
  /-- Item 3: there are addresses enough for the sixteen slots. -/
  addressesSuffice : 2 ^ p.addrWidth ≥ Config.nFreqBanks * 4 + Config.nPhaseBanks * 2
    ∧ Config.nFreqBanks * 4 + Config.nPhaseBanks * 2 = 16
  /-- Item 3: each base fits in the address field. -/
  basesFit : (∀ b, (p.freqBase b).1.val < 2 ^ p.addrWidth) ∧ ∀ b, (p.phaseBase b).1.val < 2 ^ p.addrWidth
  /-- Item 3: no range of addresses runs below 0. -/
  basesHigh : (∀ b, 3 ≤ (p.freqBase b).1.val) ∧ ∀ b, 1 ≤ (p.phaseBase b).1.val
  /-- Item 3: the six ranges of addresses are pairwise disjoint. -/
  rangesDisjoint : p.slotAddresses.Nodup
  /-- Item 4: every owned bit is one bit, and the phase field is two adjacent bits of the word. -/
  masksSingleBits : singleBit p.ocSleep ∧ singleBit p.ocReset ∧ singleBit p.ocClear ∧ singleBit p.bsFreq
    ∧ singleBit p.ssSelsrc ∧ p.bsPhaseMask = 3#16 <<< p.bsPhaseShift ∧ p.bsPhaseShift + 2 ≤ Config.wordWidth
  /-- Item 4: within one mirror the owned bits are disjoint. -/
  masksDisjoint : p.ocSleep &&& p.ocReset = 0 ∧ p.ocSleep &&& p.ocClear = 0 ∧ p.ocReset &&& p.ocClear = 0
    ∧ p.bsFreq &&& p.bsPhaseMask = 0
  /-- Item 4: no shifted control code has a bit of its mirror's mask. -/
  codesClearOfMasks : ∀ which,
    shiftedCode (Config.controlCode which) p &&& p.ownedMask which = 0
  /-- Item 5: no word is emitted for two codes, unowned bits of the mirrors' reset values included. -/
  emittedDisjoint : ∀ c d w, p.Emits c w → p.Emits d w → c = d

/-! ## What the decoding of a request and of a result relies on (R63, R64, R70; log 27) -/

/-- The numbers of the operations are pairwise distinct, and every bank has a selector. That the fields lie within the
word and do not overlap, and that the numbers fit, is carried in the type of the layout. -/
structure RequestLayout.Consistent (l : RequestLayout) : Prop where
  /-- The six numbers are pairwise distinct. -/
  opsDistinct : ∀ a b : Operation, l.op a = l.op b → a = b
  /-- Every bank number and both booleans can be written. -/
  selectorsSuffice : Config.nFreqBanks ≤ 2 ^ l.selWidth ∧ Config.nPhaseBanks ≤ 2 ^ l.selWidth

/-- The numbers of the four kinds of result are pairwise distinct. -/
def ResultEncoding.Consistent (r : ResultEncoding) : Prop := ∀ a b : ResKind, r.code a = r.code b → a = b

end Sys2Proof

namespace Sys2Proof.Machine

variable {ε ε' : Type}

/-! ## Requests -/

/-- The block is idle, attached and past its attach transfer: a request presented now is accepted (R140, R191). -/
def State.Ready (s : State ε) : Prop := s.seqBusy = false ∧ s.lifecycle = .ready

/-- The instructions a requester makes: the six request rows (R64). -/
def isRequest : Instr → Bool
  | .setFrequency _ _ => true
  | .setPhase _ _ => true
  | .setOutputEnabled _ _ => true
  | .selectActiveFrequencyBank _ _ => true
  | .selectActivePhaseBank _ _ => true
  | .selectSyncSource _ _ => true
  | .phase16 _ _ => false
  | .phase8 _ _ => false
  | .frequency16 _ _ => false
  | .frequency8 _ _ => false
  | .bankSelect _ _ => false
  | .syncSourceSelect _ => false
  | .enableControl _ _ _ => false

/-- The condition under which a request has an operand outside its valid set (R172). -/
def outOfRangeOperand : Instr → Bool
  | .setFrequency sel _ => decide (1 < sel)
  | .setPhase sel val => decide (3 < sel) || decide (4096 ≤ val.toNat)
  | .setOutputEnabled _ _ => false
  | .selectActiveFrequencyBank _ _ => false
  | .selectActivePhaseBank sel _ => decide (3 < sel)
  | .selectSyncSource _ _ => false
  | .phase16 _ _ => false
  | .phase8 _ _ => false
  | .frequency16 _ _ => false
  | .frequency8 _ _ => false
  | .bankSelect _ _ => false
  | .syncSourceSelect _ => false
  | .enableControl _ _ _ => false

/-- The condition under which a request has a malformed boolean (R66). -/
def malformedBoolean : Instr → Bool
  | .setFrequency _ _ => false
  | .setPhase _ _ => false
  | .setOutputEnabled sel _ => decide (1 < sel)
  | .selectActiveFrequencyBank sel _ => decide (1 < sel)
  | .selectActivePhaseBank _ _ => false
  | .selectSyncSource sel _ => decide (1 < sel)
  | .phase16 _ _ => false
  | .phase8 _ _ => false
  | .frequency16 _ _ => false
  | .frequency8 _ _ => false
  | .bankSelect _ _ => false
  | .syncSourceSelect _ => false
  | .enableControl _ _ _ => false

/-- The number of words of the atom an instruction stands for: 4 for `setFrequency`, 2 for `setPhase`, 1 for each
control operation (R149); a command word is itself one word. -/
def atomLength : Instr → Nat
  | .setFrequency _ _ => Config.nFreqWords
  | .setPhase _ _ => Config.nPhaseWords
  | .setOutputEnabled _ _ => 1
  | .selectActiveFrequencyBank _ _ => 1
  | .selectActivePhaseBank _ _ => 1
  | .selectSyncSource _ _ => 1
  | .phase16 _ _ => 1
  | .phase8 _ _ => 1
  | .frequency16 _ _ => 1
  | .frequency8 _ _ => 1
  | .bankSelect _ _ => 1
  | .syncSourceSelect _ => 1
  | .enableControl _ _ _ => 1

/-- The atom a request with valid operands transmits when it is accepted in `s`: the words R141 to R146 list. Without
valid operands, and for a command word, there is none. -/
def State.requestAtom (s : State ε) (i : Instr) (p : Params := Config.params) : List CommandWord :=
  let control (which : ControlMirror) : Except (OpError ε) CommandWord → List CommandWord
    | .ok v => [encodeControlWord which v p]
    | .error _ => []
  match i with
  | .setFrequency sel val =>
    match frequencyBankOperand (ε := ε) sel with
    | .ok b => atomWords p (splitFrequency val (p.freqBase b))
    | .error _ => []
  | .setPhase sel val =>
    match phaseBankOperand (ε := ε) sel with
    | .ok b => (splitPhase (ε := ε) val (p.phaseBase b)).toOption.elim [] fun writes => atomWords p writes
    | .error _ => []
  | .setOutputEnabled sel _ =>
      control .outputControl ((booleanOperand sel).map fun b => mergeOutputEnabled s.outputControl b p)
  | .selectActiveFrequencyBank sel _ =>
      control .bankSelect ((booleanOperand sel).map fun b => mergeFrequencyBank s.bankSelect b p)
  | .selectActivePhaseBank sel _ => control .bankSelect (mergePhaseBank s.bankSelect sel p)
  | .selectSyncSource sel _ => control .syncSource ((booleanOperand sel).map fun b => mergeSyncSource s.syncSource b p)
  | .phase16 _ _ => []
  | .phase8 _ _ => []
  | .frequency16 _ _ => []
  | .frequency8 _ _ => []
  | .bankSelect _ _ => []
  | .syncSourceSelect _ => []
  | .enableControl _ _ _ => []

/-! ## The wire -/

/-- The pairs an atom puts on the wire: hold is 1 on every word but the last, the `holdSelectMask` of R121 and R129. -/
def wire : List CommandWord → List WireEvent
  | [] => []
  | [w] => [⟨w, false⟩]
  | w :: rest => ⟨w, true⟩ :: wire rest

/-- The pairs the block can put on the wire, by what R53 to R59 say of each word's address, contents and hold flag;
everything else is never emitted (R62). -/
def legalEvent (e : WireEvent) : Bool :=
  match decodeCommand e.word with
  | .ok (.frequency8 a _) => [0x3, 0x1, 0x7, 0x5].contains a && e.hold
  | .ok (.frequency16 a _) => ([0x2, 0x6].contains a && e.hold) || ([0x0, 0x4].contains a && !e.hold)
  | .ok (.phase8 a _) => [0x9, 0xB, 0xD, 0xF].contains a && e.hold
  | .ok (.phase16 a _) => [0x8, 0xA, 0xC, 0xE].contains a && !e.hold
  | .ok (.enableControl _ _ _) => [0xC000#16, 0xD000#16, 0xF800#16].contains e.word && !e.hold
  | .ok (.bankSelect _ _) => !e.hold
  | .ok (.syncSourceSelect _) => !e.hold
  | .ok (.setFrequency _ _) => false
  | .ok (.setPhase _ _) => false
  | .ok (.setOutputEnabled _ _) => false
  | .ok (.selectActiveFrequencyBank _ _) => false
  | .ok (.selectActivePhaseBank _ _) => false
  | .ok (.selectSyncSource _ _) => false
  | .error _ => false

/-- While an operation is in flight, the words of its atom up to `seq_idx`, and the one at `seq_idx` if it stands
presented, are the last things on the wire (R124, R128). -/
def State.Sent (s : State ε) : Prop :=
  s.seqBusy = true →
    ∃ before, s.trace = before ++ (wire s.atom).take (s.seqIdx.toNat + if s.awaiting then 1 else 0)

/-! ## Invariants -/

/-- The owned-bits-only invariant (R18). -/
def State.OwnedBitsOnly (s : State ε) : Prop :=
  s.outputControl &&& ~~~Config.params.ocMask = 0 ∧ s.bankSelect &&& ~~~Config.params.bsMask = 0
    ∧ s.syncSource &&& ~~~Config.params.ssMask = 0

/-- The atoms of the block (R149): the four words of a frequency, the two of a phase, or one control word, which with
`MIRROR_COMMIT = BEFORE` carries the mirror as it stands (R147). -/
def State.LegalAtom (s : State ε) (words : List CommandWord) : Prop :=
  (∃ (bank : Fin 2) (value : Value),
      words = atomWords Config.params (splitFrequency value (Config.params.freqBase bank)))
  ∨ (∃ (bank : Fin 4) (value : Value) (writes : List (RegisterWrite Config.params.addrWidth)),
      splitPhase (ε := ε) value (Config.params.phaseBase bank) = .ok writes ∧ words = atomWords Config.params writes)
  ∨ (∃ which : ControlMirror, words = [encodeControlWord which (s.mirror which)])

/-- The invariant of the block with `MIRROR_COMMIT = BEFORE`. -/
structure State.Inv (s : State ε) : Prop where
  /-- Every mirror holds a legal value (R13, R14, R15, R18). -/
  mirrors : ∀ which : ControlMirror, legalMirror which (s.mirror which)
  /-- In SEND the buffer holds a whole atom, `seq_len` is its length and `seq_idx` is below it (R19, R128). -/
  sending : s.seqBusy = true → s.LegalAtom s.atom ∧ s.atom.length = s.seqLen.toNat ∧ s.seqIdx.toNat < s.seqLen.toNat
  /-- Nothing waits for the transport while idle (R128). -/
  idle : s.seqBusy = false → s.awaiting = false
  /-- No commit is kept for after the transfer (R147). -/
  noPending : s.pendingCommit = none
  /-- Everything on the wire is something the block emits (R62). -/
  wireLegal : ∀ e ∈ s.trace, legalEvent e = true
  /-- The shadow's slots stand in canonical form. -/
  slots : Memory.wf s.chip.slots = true

/-- The shadow's copy of a control register (R22). -/
def ChipShadow.register (c : ChipShadow) : ControlMirror → Option CommandWord
  | .outputControl => c.outputControl
  | .bankSelect => c.bankSelect
  | .syncSource => c.syncSource

/-- Whatever is known of a control register of the chip is what the mirror holds, but for the register whose word is
in flight (R22, R199). -/
def State.ShadowAgrees (s : State ε) : Prop :=
  ∀ which : ControlMirror, s.chip.register which = none ∨ s.chip.register which = some (s.mirror which)
    ∨ (s.seqBusy = true ∧ s.atom = [encodeControlWord which (s.mirror which)])

/-- `res_kind` and, for a transport error, `res_payload` are those of the last result; `OK` before the first (R20,
R25). -/
def State.ResultIsLast (s : State ε) : Prop :=
  match s.results.getLast? with
  | none => s.resKind = .ok
  | some r => s.resKind = r.kind ∧ ∀ e, r = .error (.transport e) → s.resPayload = e

/-! ## The transport's payload (U7) -/

/-- An answer with its payload renamed. -/
def Ack.map (f : ε → ε') : Ack ε → Ack ε'
  | .ok => .ok
  | .err e => .err (f e)

/-- An outcome with its payload renamed. -/
def OpResult.map (f : ε → ε') : OpResult ε → OpResult ε'
  | .ok => .ok
  | .error .invalidInput => .error .invalidInput
  | .error .outOfRange => .error .outOfRange
  | .error (.transport e) => .error (.transport (f e))

/-- A state with every payload in it renamed. -/
def State.mapPayload (f : ε → ε') (s : State ε) : State ε' where
  outputControl := s.outputControl
  bankSelect := s.bankSelect
  syncSource := s.syncSource
  seqBusy := s.seqBusy
  seqBuf := s.seqBuf
  seqLen := s.seqLen
  seqIdx := s.seqIdx
  resKind := s.resKind
  resPayload := f s.resPayload
  awaiting := s.awaiting
  pendingCommit := s.pendingCommit
  lifecycle := s.lifecycle
  inputs := s.inputs
  answers := s.answers.map (Ack.map f)
  trace := s.trace
  results := s.results.map (OpResult.map f)
  chip := s.chip

/-- The outcome of a step with every payload in it renamed. -/
def mapOutcome (f : ε → ε') : Host.Outcome (State ε) Fault Refusal → Host.Outcome (State ε') Fault Refusal
  | .next t => .next (t.mapPayload f)
  | .fault r => .fault r
  | .refused r => .refused r

end Sys2Proof.Machine
end

