-- ==== Sys2Proof/Certificates/Slice0/Obligations.lean ====
section
/-! DEFINITION. The statements for the provers. The numbers in them (codes, addresses, mask bits) are the defaults of
spec/00_scope.md R6 (decisions D1 to D4); a statement over `p : Params` holds for every parameter table. Where a
statement rests on a decision of the spec or on a choice of this model, its docstring says so. -/

open Sys2Proof Sys2Proof.Machine

/-! ## The codec and the parameters -/

/-- R50: each field of a data word is recovered by slicing, and the word is the OR of the three. -/
def Obligations.DataWordIsItsThreeFields : Prop :=
  ∀ (c : CommandCode) (a : Config.params.Address) (b : Byte),
    let w := encodeWord Config.params c a b
    w = (BitVec.ofNat 16 (Config.params.code c).val <<< 12) ||| (BitVec.ofNat 16 a.val <<< 8) ||| b.setWidth 16
    ∧ (w.extractLsb' 12 4).toNat = (Config.params.code c).val
    ∧ (w.extractLsb' 8 4).toNat = a.val
    ∧ w.extractLsb' 0 8 = b

/-- R83, R84: the bytes of a split, most significant first, reconstruct the value, and entry `i` has address `base -
i`, with no wrap. -/
def Obligations.SplitsReconstructTheirValue : Prop :=
  (∀ (n : Nat) (v : Value) (base : { a : Fin (2 ^ n) // 3 ≤ a.val }),
    ∃ (c0 c1 c2 c3 : CommandCode) (b0 b1 b2 b3 : Byte) (a1 a2 a3 : Fin (2 ^ n)),
      splitFrequency v base = [⟨c0, base.1, b0⟩, ⟨c1, a1, b1⟩, ⟨c2, a2, b2⟩, ⟨c3, a3, b3⟩]
      ∧ b0 ++ b1 ++ b2 ++ b3 = v
      ∧ a1.val + 1 = base.1.val ∧ a2.val + 2 = base.1.val ∧ a3.val + 3 = base.1.val)
  ∧ (∀ (n : Nat) (v : Value) (base : { a : Fin (2 ^ n) // 1 ≤ a.val }), v.toNat ≤ 4095 →
    ∃ (c0 c1 : CommandCode) (b0 b1 : Byte) (a1 : Fin (2 ^ n)),
      splitPhase (ε := TransportErrorPayload) v base = .ok [⟨c0, base.1, b0⟩, ⟨c1, a1, b1⟩]
      ∧ b0.toNat * 256 + b1.toNat = v.toNat ∧ b0.extractLsb' 4 4 = 0 ∧ a1.val + 1 = base.1.val)

/-- R82: `OutOfRangeError` exactly from 4096 on; below it the high byte is the value shifted right by 8 and the low byte
the value's low eight bits (the layout is the spec's decision D13, the tags its decision D12). -/
def Obligations.SplitPhaseFailsExactlyFrom4096 : Prop :=
  ∀ (n : Nat) (v : Value) (base : { a : Fin (2 ^ n) // 1 ≤ a.val }),
    (splitPhase (ε := TransportErrorPayload) v base = .error .outOfRange ↔ 4096 ≤ v.toNat)
    ∧ (v.toNat < 4096 → ∃ a1 : Fin (2 ^ n), a1.val + 1 = base.1.val
        ∧ splitPhase (ε := TransportErrorPayload) v base = .ok
          [⟨.phase8, base.1, (v >>> 8).setWidth 8⟩, ⟨.phase16, a1, v.setWidth 8⟩])

/-- R86: a control word is its code ORed with the whole mirror; with only owned bits set, the mirror is recovered under
its mask (R7 item 4) and the word decodes to the mirror's bits (R57 to R59). -/
def Obligations.ControlWordCarriesItsMirror : Prop :=
  (∀ v : CommandWord, encodeControlWord .outputControl v = 0xC000 ||| v ∧ encodeControlWord .bankSelect v = 0x6000 ||| v
    ∧ encodeControlWord .syncSource v = 0x8000 ||| v)
  ∧ (∀ v : CommandWord, v &&& ~~~0x3800#16 = 0 → encodeControlWord .outputControl v &&& 0x3800 = v
      ∧ decodeCommand (encodeControlWord .outputControl v) = .ok (.enableControl v[13] v[12] v[11]))
  ∧ (∀ v : CommandWord, v &&& ~~~0x0E00#16 = 0 → encodeControlWord .bankSelect v &&& 0x0E00 = v
      ∧ decodeCommand (encodeControlWord .bankSelect v) = .ok (.bankSelect v[11] (v.extractLsb' 9 2)))
  ∧ (∀ v : CommandWord, v &&& ~~~0x1000#16 = 0 → encodeControlWord .syncSource v &&& 0x1000 = v
      ∧ decodeCommand (encodeControlWord .syncSource v) = .ok (.syncSourceSelect v[12]))

/-- R7, all five items: the default table meets the constraints on the parameters (the spec marks the rule as derived;
the numbers are its decisions D1 to D4). That the widths of the source are fixed in the types is log 25. -/
def Obligations.ParametersMeetTheirConstraints : Prop := Config.params.MeetsConstraints

/-- R70: the 2-bit numbers of the results (the spec's decision D9). -/
def Obligations.ResultKindsHaveTheirNumbers : Prop :=
  ResKind.code .ok = 0 ∧ ResKind.code .invalidInputError = 1 ∧ ResKind.code .outOfRangeError = 2
    ∧ ResKind.code .transportError = 3

/-! ## Decoding and encoding -/

/-- Decoding the word of a well-formed instruction gives it back, for all thirteen rows and every operand; a term that is
not well formed has no word. -/
def Obligations.DecodeInvertsEncode : Prop :=
  ∀ i : Instr,
    (i.wellFormed = true → ∃ w, encode i = some w ∧ w.wellFormed = true ∧ decode w = .ok i)
    ∧ (i.wellFormed = false → encode i = none)

/-- A word that decodes is the word of the instruction it decodes to, at both ports, for every word the port can carry:
no bit is dropped. -/
def Obligations.EncodeInvertsDecode : Prop :=
  ∀ (w : PortWord) (i : Instr), w.wellFormed = true → decode w = .ok i → i.wellFormed = true ∧ encode i = some w

/-- R61 with its last paragraph: a command word decodes exactly when it matches one of the seven 16-bit rows of the
table (the spec marks the rule as derived). -/
def Obligations.CommandWordsDecodeByTheirRows : Prop :=
  ∀ w : CommandWord,
    (∃ i, decodeCommand w = .ok i) ↔
      (w &&& 0xC7FF = 0xC000 ∨ w &&& 0xEFFF = 0x8000 ∨ w &&& 0xF1FF = 0x6000 ∨ w &&& 0xF000 = 0x3000
        ∨ w &&& 0xF000 = 0x2000 ∨ w &&& 0xF0F0 = 0x1000 ∨ w &&& 0xF000 = 0x0000)

/-- Words written out from the encodings of R53 to R59 and R63, R64. -/
def Obligations.WrittenWordsDecode : Prop :=
  decode (.command 0b0011000110010110) = .ok (.frequency8 0x1 0x96)
  ∧ decode (.command 0b0001111100001010) = .ok (.phase8 0xF 0x0A)
  ∧ decode (.command 0b0110101000000000) = .ok (.bankSelect true 1)
  ∧ decode (.command 0b1101000000000000) = .ok (.enableControl false true false)
  ∧ decode (.request 0x10_0098_9680) = .ok (.setFrequency 0 10000000)
  ∧ decode (.request 0x5F_0000_0000) = .ok (.selectActivePhaseBank 15 0)

/-! ## The merges -/

/-- R101, bit by bit: enable clears bits 13, 12 and 11, disable sets bit 12 only. -/
def Obligations.MergeOutputEnabledBits : Prop :=
  ∀ (oc : CommandWord) (n : Nat),
    (mergeOutputEnabled oc true).getLsbD n = (if n = 13 ∨ n = 12 ∨ n = 11 then false else oc.getLsbD n)
    ∧ (mergeOutputEnabled oc false).getLsbD n = (if n = 12 then true else oc.getLsbD n)

/-- R102, bit by bit: exactly bit 11 is set or cleared. -/
def Obligations.MergeFrequencyBankBits : Prop :=
  ∀ (bs : CommandWord) (select : Bool) (n : Nat),
    (mergeFrequencyBank bs select).getLsbD n = (if n = 11 then select else bs.getLsbD n)

/-- R103, bit by bit: `OutOfRangeError` exactly above 3; else bits 10:9 are replaced by the bank's number. -/
def Obligations.MergePhaseBankBits : Prop :=
  ∀ (bs : CommandWord) (bank : Nat),
    (3 < bank → mergePhaseBank (ε := TransportErrorPayload) bs bank = .error .outOfRange)
    ∧ (bank ≤ 3 → ∃ bs', mergePhaseBank (ε := TransportErrorPayload) bs bank = .ok bs'
        ∧ ∀ n, bs'.getLsbD n
            = (if n = 9 then bank.testBit 0 else if n = 10 then bank.testBit 1 else bs.getLsbD n))

/-- R104, bit by bit: exactly bit 12 changes, with inverted polarity. -/
def Obligations.MergeSyncSourceIsInverted : Prop :=
  ∀ (ss : CommandWord) (useExternal : Bool) (n : Nat),
    (mergeSyncSource ss useExternal).getLsbD n = (if n = 12 then !useExternal else ss.getLsbD n)

/-- R17, for every table: a merge computes `r' = (r & ~M) | (new & M)` with the mask `M` the rule lists for its
operation. -/
def Obligations.MergesPreserveUnownedBits : Prop :=
  ∀ (p : Params) (r : CommandWord),
    (∃ new, mergeOutputEnabled r true p = (r &&& ~~~p.ocMask) ||| (new &&& p.ocMask))
    ∧ (∃ new, mergeOutputEnabled r false p = (r &&& ~~~p.ocReset) ||| (new &&& p.ocReset))
    ∧ (∀ select, ∃ new, mergeFrequencyBank r select p = (r &&& ~~~p.bsFreq) ||| (new &&& p.bsFreq))
    ∧ (∀ bank r', mergePhaseBank (ε := TransportErrorPayload) r bank p = .ok r' →
        ∃ new, r' = (r &&& ~~~p.bsPhaseMask) ||| (new &&& p.bsPhaseMask))
    ∧ (∀ useExternal, ∃ new, mergeSyncSource r useExternal p = (r &&& ~~~p.ssSelsrc) ||| (new &&& p.ssSelsrc))

/-- R106: the two bank merges do not disturb one another (the spec marks the rule as derived). -/
def Obligations.BankMergesDoNotInterfere : Prop :=
  ∀ (bs : CommandWord) (select : Bool) (bank : Nat), bank ≤ 3 →
    (∃ bs', mergePhaseBank (ε := TransportErrorPayload) (mergeFrequencyBank bs select) bank = .ok bs'
      ∧ bs' &&& 0x0800 = if select then 0x0800 else 0)
    ∧ (∃ bs', mergePhaseBank (ε := TransportErrorPayload) bs bank = .ok bs'
      ∧ mergeFrequencyBank bs' select &&& 0x0600 = BitVec.ofNat 16 bank <<< 9)

/-- R107, R13: over the reachable values of `outputControl`, enable leads to ENABLED and disable to RESET_SLEEP_CLEAR,
the initial state is RESET_SLEEP_CLEAR, and there is no other state (the reachable values are derived in the spec). -/
def Obligations.OutputControlHasTwoStates : Prop :=
  outputState State.reset.outputControl = some .resetSleepClear
  ∧ ∀ oc : CommandWord, legalMirror .outputControl oc →
    outputState oc ≠ none
    ∧ outputState (mergeOutputEnabled oc true) = some .enabled
    ∧ outputState (mergeOutputEnabled oc false) = some .resetSleepClear
    ∧ legalMirror .outputControl (mergeOutputEnabled oc true)
    ∧ legalMirror .outputControl (mergeOutputEnabled oc false)

/-! ## The sequencer -/

/-- R120, R121, R123 with R122: what `transmit` does with one to four words, by the answers the transport gives. With
every word answered `ok` the whole list goes on the wire and the result is `OK`; with word `k` answered `err(e)` the
first `k + 1` words do, the result is `TransportError(e)` and `seq_idx` stays at `k`; with no answer to word `k` the
sequencer waits there. `wire` is hold 1 on every word but the last. The model's own: the chip clauses are the ghost
shadow of R22 (the spec's decision D21; log 14); that `seq_buf`, `seq_len` and `seq_idx` keep their values after the
end, where R10 and R12 call them meaningless, is log 15; that `res_payload` stays as it was after `OK` is log 4. -/
def Obligations.TransmitFollowsTheAnswers : Prop :=
  ∀ (s : State) (words : List CommandWord), 1 ≤ words.length → words.length ≤ 4 → s.pendingCommit = none →
    (∀ rest, s.answers = List.replicate words.length .ok ++ rest →
      s.transmit words = { s with
        seqBuf := s.seqBuf.load words, seqLen := BitVec.ofNat 3 words.length, seqIdx := BitVec.ofNat 3 words.length,
        seqBusy := false, awaiting := false, resKind := .ok, results := s.results ++ [.ok], answers := rest,
        trace := s.trace ++ wire words, chip := s.chip.takeAtom words })
    ∧ (∀ k e rest, k < words.length → s.answers = List.replicate k .ok ++ .err e :: rest →
      s.transmit words = { s with
        seqBuf := s.seqBuf.load words, seqLen := BitVec.ofNat 3 words.length, seqIdx := BitVec.ofNat 3 k,
        seqBusy := false, awaiting := false, resKind := .transportError, resPayload := e,
        results := s.results ++ [.error (.transport e)], answers := rest,
        trace := s.trace ++ (wire words).take (k + 1), chip := s.chip.loseAtom words })
    ∧ (∀ k, k < words.length → s.answers = List.replicate k .ok →
      s.transmit words = { s with
        seqBuf := s.seqBuf.load words, seqLen := BitVec.ofNat 3 words.length, seqIdx := BitVec.ofNat 3 k,
        seqBusy := true, awaiting := true, answers := [], trace := s.trace ++ (wire words).take (k + 1) })

/-- R129 (the spec marks the rule as derived): one `transmit` is one exchange, with `holdSelectMask[i] = (i < n - 1)`.
Answered `ok`, all its pairs are on the wire and the result is `OK`; answered "failed at word k with payload e", the
first `k + 1` pairs are, and the result is `TransportError(e)`. -/
def Obligations.TransmitIsOneExchange : Prop :=
  ∀ (s : State) (words : List CommandWord) (answer : Option (Nat × TransportErrorPayload)) (rest : List Ack),
    1 ≤ words.length → words.length ≤ 4 → (∀ k e, answer = some (k, e) → k < words.length) →
    s.answers = exchangeAnswers words.length answer ++ rest →
    let pairs : List WireEvent := words.zipIdx.map fun p => ⟨p.1, decide (p.2 < words.length - 1)⟩
    let t := s.transmit words
    t.answers = rest ∧ t.seqBusy = false
    ∧ (answer = none → t.trace = s.trace ++ pairs ∧ t.results = s.results ++ [.ok])
    ∧ (∀ k e, answer = some (k, e) →
        t.trace = s.trace ++ pairs.take (k + 1) ∧ t.results = s.results ++ [.error (.transport e)])

/-- R121, R124: whatever the answers, what one `transmit` adds to the wire is the first words of its list, in order,
each once, word `i` of `n` with hold exactly when `i < n - 1`. -/
def Obligations.TransmitPresentsItsWordsInOrder : Prop :=
  ∀ (s : State) (words : List CommandWord), 1 ≤ words.length → words.length ≤ 4 →
    ∃ sent : List WireEvent, (s.transmit words).trace = s.trace ++ sent
      ∧ 1 ≤ sent.length ∧ sent.length ≤ words.length
      ∧ ∀ i, i < sent.length →
          sent[i]? = (words[i]?).map fun w => ⟨w, decide (i < words.length - 1)⟩

/-- R126: an empty list presents nothing and returns OK (the spec's decision D18). -/
def Obligations.TransmitOfNothing : Prop :=
  ∀ s : State, (s.transmit []).trace = s.trace ∧ (s.transmit []).resKind = .ok ∧ (s.transmit []).answers = s.answers

/-- R128 (the spec's decision D20): the meaning of the seven command words, PHASE_16, PHASE_8, FREQUENCY_16,
FREQUENCY_8, BANK_SELECT, SYNC_SOURCE_SELECT and ENABLE_CONTROL, wherever the word is the one the sequencer is at. The
word is presented with its hold flag unless it stands presented already; with no answer there the sequencer waits;
`ok` goes on to the next word, or ends the operation with `OK` after the last; `err(e)` ends it with
`TransportError(e)`. The frame is whole: every field that is not named keeps its value. The model's own: the chip
clauses (`takeAtom`, `loseAtom`) are the ghost shadow of R22 (the spec's decision D21; log 14); that `seq_buf`,
`seq_len` and `seq_idx` keep their values after the end, where R10 and R12 call them meaningless, is log 15;
`res_payload` after `OK` is log 4. -/
def Obligations.CommandWordsRunOneVisit : Prop :=
  ∀ (i : Instr) (w : CommandWord) (s : State), encode i = some (.command w) → s.currentWord? = some w →
    s.pendingCommit = none →
    let shown := if s.awaiting then s.trace else s.trace ++ [⟨w, decide (s.seqIdx.toNat + 1 < s.seqLen.toNat)⟩]
    (s.answers = [] → exec i s = .next { s with trace := shown, awaiting := true })
    ∧ (∀ rest, s.answers = .ok :: rest → s.seqIdx.toNat + 1 < s.seqLen.toNat →
        exec i s = .next { s with trace := shown, answers := rest, seqIdx := s.seqIdx + 1, awaiting := false })
    ∧ (∀ rest, s.answers = .ok :: rest → s.seqIdx.toNat + 1 = s.seqLen.toNat →
        exec i s = .next { s with
          trace := shown, answers := rest, seqIdx := s.seqLen, seqBusy := false, awaiting := false, resKind := .ok,
          results := s.results ++ [.ok], chip := s.chip.takeAtom s.atom })
    ∧ (∀ e rest, s.answers = .err e :: rest →
        exec i s = .next { s with
          trace := shown, answers := rest, seqBusy := false, awaiting := false, resKind := .transportError,
          resPayload := e, results := s.results ++ [.error (.transport e)],
          chip := s.chip.loseAtom s.atom })

/-- R128, R62 and U12: a command word that is not the one the sequencer is at is never presented. That the model refuses
it there is the model's choice (log 10). A term with an operand outside the contract of the codec (an address wider
than `ADDR_WIDTH`, a PHASE_8 byte with a high nibble) is refused in every state (R55, R80, U3). -/
def Obligations.OtherCommandWordsAreNotPresented : Prop :=
  (∀ (i : Instr) (w : CommandWord) (s : State), encode i = some (.command w) → s.currentWord? ≠ some w →
    exec i s = .refused .wordNotInFlight)
  ∧ (∀ (i : Instr) (s : State), isRequest i = false → i.wellFormed = false →
    exec i s = .refused .operandOutsideContract)

/-- R12: while an operation stays in flight, `seq_idx` stays or advances by exactly 1, below `seq_len` (the spec marks
the rule as derived). -/
def Obligations.SeqIdxAdvancesByOne : Prop :=
  ∀ s t : State, s.seqBusy = true → step s = .next t → t.seqBusy = true →
    t.seqLen = s.seqLen ∧ t.seqBuf = s.seqBuf
      ∧ (t.seqIdx = s.seqIdx ∨ (t.seqIdx.toNat = s.seqIdx.toNat + 1 ∧ t.seqIdx.toNat < s.seqLen.toNat))

/-- R128 against R120: from any state of the invariant with an operation in flight and an answer for each word left,
at most four steps of the machine, one word each, end in the very state the loop of `transmit` reaches, and the
operation has ended there (the fairness of R130 is the premise on the answers). What both leave in the sequencer's
registers and in the shadow after the end is log 15 and log 14. -/
def Obligations.StepwiseSendingReachesTransmit : Prop :=
  ∀ s : State, s.Inv → s.seqBusy = true → s.seqLen.toNat - s.seqIdx.toNat ≤ s.answers.length →
    ∃ k, 1 ≤ k ∧ k ≤ 4 ∧ Sys2Proof.core.run k s = .next (State.sendWords 4 s)
      ∧ (State.sendWords 4 s).seqBusy = false

/-! ## The data operations -/

/-- R141 with R53, R54: with every word answered `ok`, `setFrequency` to a valid bank puts its four words on the wire
and returns `OK`; no mirror changes. Every byte of the chip's register space reads as before but the bank's four. The
frame is whole: every field of the state that is not named keeps its value. The model's own: that `seq_buf`, `seq_len`
and `seq_idx` of the idle end state keep their values, where R10 and R12 call them meaningless, is log 15 (R128 gives
`seq_idx` after the last word); the register space is the ghost shadow of R22 (the spec's decision D21; log 14);
`res_payload` after `OK` is log 4. -/
def Obligations.SetFrequencyCompletes : Prop :=
  ∀ (s : State) (sel : Nat) (val : Value) (rest : List Ack),
    s.Ready → sel ≤ 1 → s.answers = [.ok, .ok, .ok, .ok] ++ rest →
    let base : Nat := if sel = 0 then 0x3 else 0x7
    let b0 : Byte := val.extractLsb' 24 8
    let b1 : Byte := val.extractLsb' 16 8
    let b2 : Byte := val.extractLsb' 8 8
    let b3 : Byte := val.extractLsb' 0 8
    let w0 : CommandWord := 0x3#4 ++ BitVec.ofNat 4 base ++ b0
    let w1 : CommandWord := 0x2#4 ++ BitVec.ofNat 4 (base - 1) ++ b1
    let w2 : CommandWord := 0x3#4 ++ BitVec.ofNat 4 (base - 2) ++ b2
    let w3 : CommandWord := 0x2#4 ++ BitVec.ofNat 4 (base - 3) ++ b3
    ∃ slots : Memory,
      exec (.setFrequency sel val) s = .next { s with
        seqBuf := ⟨w0, w1, w2, w3⟩, seqLen := 4, seqIdx := 4, awaiting := false, pendingCommit := none,
        resKind := .ok, results := s.results ++ [.ok], answers := rest,
        trace := s.trace ++ [⟨w0, true⟩, ⟨w1, true⟩, ⟨w2, true⟩, ⟨w3, false⟩],
        chip := { s.chip with slots := slots } }
      ∧ ∀ a : Nat, Memory.read slots a
          = if a = base then some b0 else if a = base - 1 then some b1 else if a = base - 2 then some b2
            else if a = base - 3 then some b3 else Memory.read s.chip.slots a

/-- R123, R198 for `setFrequency`: when word `k` is answered `err(e)`, the first `k + 1` words are on the wire, the
result is `TransportError(e)` and the bank's four slots are `unknown`; when word `k` is not answered, the operation
waits with the same words on the wire. The model's own: that `seq_buf`, `seq_len` and `seq_idx` of the idle end state
keep their values, where R10 and R12 call them meaningless, is log 15 (R128 gives `seq_idx` after the failing word);
the slots are the ghost shadow of R22 (the spec's decision D21; log 14). -/
def Obligations.SetFrequencyStopsWithTheTransport : Prop :=
  ∀ (s : State) (sel : Nat) (val : Value) (k : Nat), s.Ready → sel ≤ 1 → k < 4 →
    let base : Nat := if sel = 0 then 0x3 else 0x7
    let w0 : CommandWord := 0x3#4 ++ BitVec.ofNat 4 base ++ val.extractLsb' 24 8
    let w1 : CommandWord := 0x2#4 ++ BitVec.ofNat 4 (base - 1) ++ val.extractLsb' 16 8
    let w2 : CommandWord := 0x3#4 ++ BitVec.ofNat 4 (base - 2) ++ val.extractLsb' 8 8
    let w3 : CommandWord := 0x2#4 ++ BitVec.ofNat 4 (base - 3) ++ val.extractLsb' 0 8
    let sent : List WireEvent := [⟨w0, true⟩, ⟨w1, true⟩, ⟨w2, true⟩, ⟨w3, false⟩].take (k + 1)
    (∀ e rest, s.answers = List.replicate k .ok ++ .err e :: rest →
      ∃ slots : Memory,
        exec (.setFrequency sel val) s = .next { s with
          seqBuf := ⟨w0, w1, w2, w3⟩, seqLen := 4, seqIdx := BitVec.ofNat 3 k, awaiting := false,
          pendingCommit := none, resKind := .transportError, resPayload := e,
          results := s.results ++ [.error (.transport e)], answers := rest, trace := s.trace ++ sent,
          chip := { s.chip with slots := slots } }
        ∧ ∀ a : Nat, Memory.read slots a
            = if a = base ∨ a = base - 1 ∨ a = base - 2 ∨ a = base - 3 then none else Memory.read s.chip.slots a)
    ∧ (s.answers = List.replicate k .ok →
      exec (.setFrequency sel val) s = .next { s with
        seqBusy := true, seqBuf := ⟨w0, w1, w2, w3⟩, seqLen := 4, seqIdx := BitVec.ofNat 3 k, awaiting := true,
        pendingCommit := none, answers := [], trace := s.trace ++ sent })

/-- R142 with R55, R56: with both words answered `ok`, `setPhase` of a legal value to a valid bank puts its two words
on the wire and returns `OK`; no mirror changes, and every byte of the register space reads as before but the bank's
two. Every field not named keeps its value. The model's own: that `seq_buf`, `seq_len` and `seq_idx` of the idle end
state keep their values, where R10 and R12 call them meaningless, is log 15 (R128 gives `seq_idx` after the last
word), and that the words `w2` and `w3` of `seq_buf` are left as they were, from reset on zero, is log 15 and log 1;
the register space is the ghost shadow of R22 (the spec's decision D21; log 14); `res_payload` after `OK` is log 4. -/
def Obligations.SetPhaseCompletes : Prop :=
  ∀ (s : State) (sel : Nat) (val : Value) (rest : List Ack),
    s.Ready → sel ≤ 3 → val.toNat ≤ 4095 → s.answers = [.ok, .ok] ++ rest →
    let base : Nat := 0x9 + 2 * sel
    let b0 : Byte := 0x0#4 ++ val.extractLsb' 8 4
    let b1 : Byte := val.extractLsb' 0 8
    let w0 : CommandWord := 0x1#4 ++ BitVec.ofNat 4 base ++ b0
    let w1 : CommandWord := 0x0#4 ++ BitVec.ofNat 4 (base - 1) ++ b1
    ∃ slots : Memory,
      exec (.setPhase sel val) s = .next { s with
        seqBuf := { s.seqBuf with w0 := w0, w1 := w1 }, seqLen := 2, seqIdx := 2, awaiting := false,
        pendingCommit := none, resKind := .ok, results := s.results ++ [.ok], answers := rest,
        trace := s.trace ++ [⟨w0, true⟩, ⟨w1, false⟩], chip := { s.chip with slots := slots } }
      ∧ ∀ a : Nat, Memory.read slots a
          = if a = base then some b0 else if a = base - 1 then some b1 else Memory.read s.chip.slots a

/-- R123, R198 for `setPhase`: a failure at word `k`, and a wait at word `k`. The model's own: that `seq_buf`,
`seq_len` and `seq_idx` of the idle end state keep their values, where R10 and R12 call them meaningless, is log 15
(R128 gives `seq_idx` after the failing word), and that the words `w2` and `w3` of `seq_buf` are left as they were,
from reset on zero, is log 15 and log 1; the slots are the ghost shadow of R22 (the spec's decision D21; log 14). -/
def Obligations.SetPhaseStopsWithTheTransport : Prop :=
  ∀ (s : State) (sel : Nat) (val : Value) (k : Nat), s.Ready → sel ≤ 3 → val.toNat ≤ 4095 → k < 2 →
    let base : Nat := 0x9 + 2 * sel
    let b0 : Byte := 0x0#4 ++ val.extractLsb' 8 4
    let w0 : CommandWord := 0x1#4 ++ BitVec.ofNat 4 base ++ b0
    let w1 : CommandWord := 0x0#4 ++ BitVec.ofNat 4 (base - 1) ++ val.extractLsb' 0 8
    let sent : List WireEvent := [⟨w0, true⟩, ⟨w1, false⟩].take (k + 1)
    (∀ e rest, s.answers = List.replicate k .ok ++ .err e :: rest →
      ∃ slots : Memory,
        exec (.setPhase sel val) s = .next { s with
          seqBuf := { s.seqBuf with w0 := w0, w1 := w1 }, seqLen := 2, seqIdx := BitVec.ofNat 3 k,
          awaiting := false, pendingCommit := none, resKind := .transportError, resPayload := e,
          results := s.results ++ [.error (.transport e)], answers := rest, trace := s.trace ++ sent,
          chip := { s.chip with slots := slots } }
        ∧ ∀ a : Nat, Memory.read slots a
            = if a = base ∨ a = base - 1 then none else Memory.read s.chip.slots a)
    ∧ (s.answers = List.replicate k .ok →
      exec (.setPhase sel val) s = .next { s with
        seqBusy := true, seqBuf := { s.seqBuf with w0 := w0, w1 := w1 }, seqLen := 2,
        seqIdx := BitVec.ofNat 3 k, awaiting := true, pendingCommit := none, answers := [],
        trace := s.trace ++ sent })

/-- R22, R198 (the ghost shadow is the spec's decision D21): a bank of the chip is known to hold exactly what the last
acknowledged `setFrequency` to it sent; after a failed one it is unknown, and the other bank and every phase bank are
as they were. That the model carries the shadow is log 14. -/
def Obligations.ShadowKnowsTheFrequencySent : Prop :=
  ∀ (s t : State) (bank : Fin 2) (val : Value),
    exec (.setFrequency bank.val val) s = .next t → t.seqBusy = false →
    (t.resKind = .ok → t.chip.frequency bank = some val)
    ∧ (t.resKind ≠ .ok → t.chip.frequency bank = none)
    ∧ (∀ other : Fin 2, other ≠ bank → t.chip.frequency other = s.chip.frequency other)
    ∧ (∀ other : Fin 4, t.chip.phase other = s.chip.phase other)

/-- R22, R198 (decision D21, log 14): the same of `setPhase`, for a legal value. -/
def Obligations.ShadowKnowsThePhaseSent : Prop :=
  ∀ (s t : State) (bank : Fin 4) (val : Value), val.toNat ≤ 4095 →
    exec (.setPhase bank.val val) s = .next t → t.seqBusy = false →
    (t.resKind = .ok → t.chip.phase bank = some (val.setWidth 12))
    ∧ (t.resKind ≠ .ok → t.chip.phase bank = none)
    ∧ (∀ other : Fin 4, other ≠ bank → t.chip.phase other = s.chip.phase other)
    ∧ (∀ other : Fin 2, t.chip.frequency other = s.chip.frequency other)

/-! ## The control operations -/

/-- R143 with R57, R101, and R147 with `MIRROR_COMMIT = BEFORE` (the spec's decision D5): the mirror takes the merged
value whatever the transport does; the one word is `0xC000 | mirror` with hold 0. Every byte of the register space,
both other mirrors and every field not named keep their values. The model's own: that the chip's copy of the register
is the new value after `ok` and unknown after `err(e)` is the ghost shadow of R22 (the spec's decision D21; log 14);
that `seq_buf`, `seq_len` and `seq_idx` of the idle end state keep their values, where R10 and R12 call them
meaningless (R128 gives `seq_idx` as the transfer ends), is log 15; that the words `w1` to `w3` of `seq_buf` are left
as they were, from reset on zero, is log 15 and log 1; `res_payload` after `OK` is log 4. -/
def Obligations.SetOutputEnabledCompletes : Prop :=
  ∀ (s : State) (sel : Nat) (val : Value), s.Ready → s.OwnedBitsOnly → sel = 0 ∨ sel = 1 →
    let oc : CommandWord := if sel = 1 then 0x0000 else s.outputControl ||| 0x1000
    let w : CommandWord := 0xC000 ||| oc
    (∀ rest, s.answers = .ok :: rest →
      exec (.setOutputEnabled sel val) s = .next { s with
        outputControl := oc, seqBuf := { s.seqBuf with w0 := w }, seqLen := 1, seqIdx := 1, awaiting := false,
        pendingCommit := none, resKind := .ok, results := s.results ++ [.ok], answers := rest,
        trace := s.trace ++ [⟨w, false⟩], chip := { s.chip with outputControl := some oc } })
    ∧ (∀ e rest, s.answers = .err e :: rest →
      exec (.setOutputEnabled sel val) s = .next { s with
        outputControl := oc, seqBuf := { s.seqBuf with w0 := w }, seqLen := 1, seqIdx := 0, awaiting := false,
        pendingCommit := none, resKind := .transportError, resPayload := e,
        results := s.results ++ [.error (.transport e)], answers := rest, trace := s.trace ++ [⟨w, false⟩],
        chip := { s.chip with outputControl := none } })
    ∧ (s.answers = [] →
      exec (.setOutputEnabled sel val) s = .next { s with
        seqBusy := true, outputControl := oc, seqBuf := { s.seqBuf with w0 := w }, seqLen := 1, seqIdx := 0,
        awaiting := true, pendingCommit := none, trace := s.trace ++ [⟨w, false⟩] })

/-- R144 with R58, R102, and R147 with `MIRROR_COMMIT = BEFORE` (decision D5); the frame is whole. That the chip's
copy of the register is the new value after `ok` and unknown after `err(e)` is the ghost shadow of R22 (the spec's
decision D21; log 14); that `seq_buf`, `seq_len` and `seq_idx` of the idle end state keep their values, where R10 and
R12 call them meaningless (R128 gives `seq_idx` as the transfer ends), is log 15; that the words `w1` to `w3` of
`seq_buf` are left as they were, from reset on zero, is log 15 and log 1; `res_payload` after `OK` is log 4. -/
def Obligations.SelectActiveFrequencyBankCompletes : Prop :=
  ∀ (s : State) (sel : Nat) (val : Value), s.Ready → s.OwnedBitsOnly → sel = 0 ∨ sel = 1 →
    let bs : CommandWord := if sel = 1 then s.bankSelect ||| 0x0800 else s.bankSelect &&& ~~~0x0800#16
    let w : CommandWord := 0x6000 ||| bs
    (∀ rest, s.answers = .ok :: rest →
      exec (.selectActiveFrequencyBank sel val) s = .next { s with
        bankSelect := bs, seqBuf := { s.seqBuf with w0 := w }, seqLen := 1, seqIdx := 1, awaiting := false,
        pendingCommit := none, resKind := .ok, results := s.results ++ [.ok], answers := rest,
        trace := s.trace ++ [⟨w, false⟩], chip := { s.chip with bankSelect := some bs } })
    ∧ (∀ e rest, s.answers = .err e :: rest →
      exec (.selectActiveFrequencyBank sel val) s = .next { s with
        bankSelect := bs, seqBuf := { s.seqBuf with w0 := w }, seqLen := 1, seqIdx := 0, awaiting := false,
        pendingCommit := none, resKind := .transportError, resPayload := e,
        results := s.results ++ [.error (.transport e)], answers := rest, trace := s.trace ++ [⟨w, false⟩],
        chip := { s.chip with bankSelect := none } })
    ∧ (s.answers = [] →
      exec (.selectActiveFrequencyBank sel val) s = .next { s with
        seqBusy := true, bankSelect := bs, seqBuf := { s.seqBuf with w0 := w }, seqLen := 1, seqIdx := 0,
        awaiting := true, pendingCommit := none, trace := s.trace ++ [⟨w, false⟩] })

/-- R145 with R58, R103, and R147 with `MIRROR_COMMIT = BEFORE` (decision D5), for a valid bank; the frame is whole.
That the chip's copy of the register is the new value after `ok` and unknown after `err(e)` is the ghost shadow of R22
(the spec's decision D21; log 14); that `seq_buf`, `seq_len` and `seq_idx` of the idle end state keep their values,
where R10 and R12 call them meaningless (R128 gives `seq_idx` as the transfer ends), is log 15; that the words `w1` to
`w3` of `seq_buf` are left as they were, from reset on zero, is log 15 and log 1; `res_payload` after `OK` is log 4.
-/
def Obligations.SelectActivePhaseBankCompletes : Prop :=
  ∀ (s : State) (sel : Nat) (val : Value), s.Ready → s.OwnedBitsOnly → sel ≤ 3 →
    let bs : CommandWord := (s.bankSelect &&& ~~~0x0600#16) ||| (BitVec.ofNat 16 sel <<< 9)
    let w : CommandWord := 0x6000 ||| bs
    (∀ rest, s.answers = .ok :: rest →
      exec (.selectActivePhaseBank sel val) s = .next { s with
        bankSelect := bs, seqBuf := { s.seqBuf with w0 := w }, seqLen := 1, seqIdx := 1, awaiting := false,
        pendingCommit := none, resKind := .ok, results := s.results ++ [.ok], answers := rest,
        trace := s.trace ++ [⟨w, false⟩], chip := { s.chip with bankSelect := some bs } })
    ∧ (∀ e rest, s.answers = .err e :: rest →
      exec (.selectActivePhaseBank sel val) s = .next { s with
        bankSelect := bs, seqBuf := { s.seqBuf with w0 := w }, seqLen := 1, seqIdx := 0, awaiting := false,
        pendingCommit := none, resKind := .transportError, resPayload := e,
        results := s.results ++ [.error (.transport e)], answers := rest, trace := s.trace ++ [⟨w, false⟩],
        chip := { s.chip with bankSelect := none } })
    ∧ (s.answers = [] →
      exec (.selectActivePhaseBank sel val) s = .next { s with
        seqBusy := true, bankSelect := bs, seqBuf := { s.seqBuf with w0 := w }, seqLen := 1, seqIdx := 0,
        awaiting := true, pendingCommit := none, trace := s.trace ++ [⟨w, false⟩] })

/-- R146 with R59, R104 (inverted polarity), and R147 with `MIRROR_COMMIT = BEFORE` (decision D5); the frame is whole.
That the chip's copy of the register is the new value after `ok` and unknown after `err(e)` is the ghost shadow of R22
(the spec's decision D21; log 14); that `seq_buf`, `seq_len` and `seq_idx` of the idle end state keep their values,
where R10 and R12 call them meaningless (R128 gives `seq_idx` as the transfer ends), is log 15; that the words `w1` to
`w3` of `seq_buf` are left as they were, from reset on zero, is log 15 and log 1; `res_payload` after `OK` is log 4.
-/
def Obligations.SelectSyncSourceCompletes : Prop :=
  ∀ (s : State) (sel : Nat) (val : Value), s.Ready → s.OwnedBitsOnly → sel = 0 ∨ sel = 1 →
    let ss : CommandWord := if sel = 1 then 0x0000 else 0x1000
    let w : CommandWord := 0x8000 ||| ss
    (∀ rest, s.answers = .ok :: rest →
      exec (.selectSyncSource sel val) s = .next { s with
        syncSource := ss, seqBuf := { s.seqBuf with w0 := w }, seqLen := 1, seqIdx := 1, awaiting := false,
        pendingCommit := none, resKind := .ok, results := s.results ++ [.ok], answers := rest,
        trace := s.trace ++ [⟨w, false⟩], chip := { s.chip with syncSource := some ss } })
    ∧ (∀ e rest, s.answers = .err e :: rest →
      exec (.selectSyncSource sel val) s = .next { s with
        syncSource := ss, seqBuf := { s.seqBuf with w0 := w }, seqLen := 1, seqIdx := 0, awaiting := false,
        pendingCommit := none, resKind := .transportError, resPayload := e,
        results := s.results ++ [.error (.transport e)], answers := rest, trace := s.trace ++ [⟨w, false⟩],
        chip := { s.chip with syncSource := none } })
    ∧ (s.answers = [] →
      exec (.selectSyncSource sel val) s = .next { s with
        seqBusy := true, syncSource := ss, seqBuf := { s.seqBuf with w0 := w }, seqLen := 1, seqIdx := 0,
        awaiting := true, pendingCommit := none, trace := s.trace ++ [⟨w, false⟩] })

/-- R147, for every table: the two commit orders. A transfer that succeeds ends in the same state. After `err(e)` the
state with BEFORE is the state with AFTER but for the mirror, which is the new value with BEFORE and the old one with
AFTER; the word on the wire is built from the new value in both. With no answer both wait at the same word; AFTER
keeps the write for the end of the transfer (`pendingCommit`, log 17). -/
def Obligations.CommitOrdersDifferOnlyOnFailure : Prop :=
  ∀ (p : Params) (s : State) (m : MirrorWrite), s.pendingCommit = none →
    let before := controlTransfer { p with mirrorCommit := .before } m s
    let after := controlTransfer { p with mirrorCommit := .after } m s
    let word := encodeControlWord m.mirror m.value p
    (∀ rest, s.answers = .ok :: rest →
      before = after ∧ after.mirror m.mirror = m.value ∧ after.trace = s.trace ++ [⟨word, false⟩])
    ∧ (∀ e rest, s.answers = .err e :: rest →
      before = after.commit m ∧ before.mirror m.mirror = m.value ∧ (∀ which, after.mirror which = s.mirror which)
      ∧ after.trace = s.trace ++ [⟨word, false⟩])
    ∧ (s.answers = [] →
      before = { after.commit m with pendingCommit := none } ∧ after.pendingCommit = some m
      ∧ (∀ which, after.mirror which = s.mirror which) ∧ after.trace = s.trace ++ [⟨word, false⟩])

/-! ## All operations -/

/-- R172: with an operand outside its valid set an operation ends with `OutOfRangeError`, presents nothing and changes
no mirror; and it ends so on no other request, in no other way. -/
def Obligations.OutOfRangeExactlyWhere : Prop :=
  ∀ (i : Instr) (s : State), isRequest i = true → s.Ready →
    (outOfRangeOperand i = true → exec i s = .next { s with
      awaiting := false, pendingCommit := none, resKind := .outOfRangeError,
      results := s.results ++ [.error .outOfRange] })
    ∧ (∀ t, exec i s = .next t → t.results = s.results ++ [.error .outOfRange] → outOfRangeOperand i = true)

/-- R66 (the spec's decision D8): a malformed boolean ends the operation with `InvalidInputError`, presents nothing and
changes no mirror; and no other request that names an operation ends so. -/
def Obligations.MalformedBooleansAreRefused : Prop :=
  ∀ (i : Instr) (s : State), isRequest i = true → s.Ready →
    (malformedBoolean i = true → exec i s = .next { s with
      awaiting := false, pendingCommit := none, resKind := .invalidInputError,
      results := s.results ++ [.error .invalidInput] })
    ∧ (∀ t, exec i s = .next t → t.results = s.results ++ [.error .invalidInput] → malformedBoolean i = true)

/-- R149: an operation that reaches its transfer is one `transmit` of one atom, of 4, 2 or 1 words, from a state that
differs from the one before it in the mirror of its family at most. The atom is the one R141 to R146 list
(`requestAtom`). -/
def Obligations.OperationsTransmitOneAtom : Prop :=
  ∀ (i : Instr) (s : State), isRequest i = true → s.Ready → outOfRangeOperand i = false →
    malformedBoolean i = false →
    ∃ s' : State, exec i s = .next (s'.transmit (s.requestAtom i))
      ∧ s' = { s with
          seqBusy := true, pendingCommit := none, outputControl := s'.outputControl, bankSelect := s'.bankSelect,
          syncSource := s'.syncSource }
      ∧ (s.requestAtom i).length = atomLength i

/-- From R150, for every table: of a request that has ended within its step, `res_kind` is `OK` exactly when its whole
atom, of 4, 2 or 1 words, has been added to the wire and one `ok` for each word has been taken from the transport. A
request that is still waiting for the transport is the subject of `OperationInFlightEndsOkOnlyWhole` (log 5). -/
def Obligations.NoSilentPartialSuccess : Prop :=
  ∀ (p : Params) (i : Instr) (s t : State), isRequest i = true → execWith p i s = .next t → t.seqBusy = false →
    (t.resKind = .ok ↔
      (s.requestAtom i p).length = atomLength i ∧ t.trace = s.trace ++ wire (s.requestAtom i p)
        ∧ s.answers = List.replicate (atomLength i) .ok ++ t.answers)

/-- From R150 and R128: an operation in flight, at a later step. A step that leaves it in flight has taken no answer and
stays at its word, or has taken an `ok` and is at the next one; a step that ends it gives `OK` exactly when it has taken
an `ok` to the last word, and then the whole atom is on the wire. -/
def Obligations.OperationInFlightEndsOkOnlyWhole : Prop :=
  ∀ s t : State, s.Inv → s.Sent → s.seqBusy = true → step s = .next t →
    (t.seqBusy = true →
      (t.seqIdx = s.seqIdx ∧ s.answers = [] ∧ t.answers = [])
      ∨ (t.seqIdx.toNat = s.seqIdx.toNat + 1 ∧ s.answers = .ok :: t.answers))
    ∧ (t.seqBusy = false →
      (t.resKind = .ok ↔ s.seqIdx.toNat + 1 = s.seqLen.toNat ∧ s.answers = .ok :: t.answers)
      ∧ (t.resKind = .ok → ∃ before, t.trace = before ++ wire s.atom))

/-- R16: each mirror is changed by its own family only. -/
def Obligations.MirrorsBelongToTheirFamilies : Prop :=
  ∀ (i : Instr) (s t : State), s.pendingCommit = none → exec i s = .next t →
    ((∀ sel val, i ≠ .setOutputEnabled sel val) → t.outputControl = s.outputControl)
    ∧ ((∀ sel val, i ≠ .selectActiveFrequencyBank sel val ∧ i ≠ .selectActivePhaseBank sel val) →
        t.bankSelect = s.bankSelect)
    ∧ ((∀ sel val, i ≠ .selectSyncSource sel val) → t.syncSource = s.syncSource)

/-- R148 (the spec marks it as derived), R38, for every table and so for both commit orders: a request issued again,
after a success or a failure, transmits the same atom. What each issue adds to the wire is the first words of that one
atom, up to the last one or to the word that failed or is not answered. Beyond the two rules: with `MIRROR_COMMIT =
BEFORE` (the spec's decision D5, log 12), and with AFTER when the first issue succeeded, the mirrors after the second
issue are those after the first. -/
def Obligations.ReissueSendsTheSameAtom : Prop :=
  ∀ (p : Params) (i : Instr) (s t u : State), isRequest i = true → outOfRangeOperand i = false →
    malformedBoolean i = false → execWith p i s = .next t → execWith p i t = .next u →
    t.requestAtom i p = s.requestAtom i p
    ∧ (∃ m n, 1 ≤ m ∧ m ≤ atomLength i ∧ 1 ≤ n ∧ n ≤ atomLength i
        ∧ t.trace = s.trace ++ (wire (s.requestAtom i p)).take m
        ∧ u.trace = t.trace ++ (wire (s.requestAtom i p)).take n)
    ∧ (p.mirrorCommit = .before ∨ t.resKind = .ok → ∀ which, u.mirror which = t.mirror which)

/-- R140, R127 (the spec's decision D17): while busy the block takes no request. In the model a request handed to a busy
block has no step (U5; log 9), and a step leaves the requester's queue as it is. -/
def Obligations.BusyBlockAcceptsNoRequest : Prop :=
  (∀ (i : Instr) (s : State), isRequest i = true → s.seqBusy = true → exec i s = .refused .requestWhileBusy)
  ∧ (∀ s t : State, s.seqBusy = true → step s = .next t → t.inputs = s.inputs)

/-! ## The step -/

/-- A step runs the decoded instruction: the request first in line, taken off the port, in an idle and ready block; the
word at `seq_idx` in a busy one. -/
def Obligations.StepRunsTheDecodedInstruction : Prop :=
  (∀ (s : State) (w : Nat) (rest : List HostEvent) (i : Instr),
    s.Ready → s.inputs = .request w :: rest → decode (.request w) = .ok i →
    step s = exec i { s with inputs := rest })
  ∧ (∀ (s : State) (w : CommandWord) (i : Instr),
    s.currentWord? = some w → decode (.command w) = .ok i → step s = exec i s)

/-- R65 (the spec's decision D8): a request whose `op` is 0x0 or 0x7 to 0xF is answered with `InvalidInputError`;
nothing is presented and nothing else changes. -/
def Obligations.ReservedRequestsAreInvalidInput : Prop :=
  ∀ (s : State) (w : Nat) (rest : List HostEvent), s.Ready → s.inputs = .request w :: rest →
    w / 2 ^ 36 % 16 = 0 ∨ 7 ≤ w / 2 ^ 36 % 16 →
    step s = .next { s with
      inputs := rest, awaiting := false, pendingCommit := none, resKind := .invalidInputError,
      results := s.results ++ [.error .invalidInput] }

/-- R25, R190: what the spec gives of the state after reset (all but `outputControl` is the spec's decision D6, log
13; the shadow is its decision D21, log 14). -/
def Obligations.ResetLeavesTheSpecsValues : Prop :=
  State.reset.outputControl = 0x3800 ∧ State.reset.bankSelect = 0x0000 ∧ State.reset.syncSource = 0x0000
    ∧ State.reset.seqBusy = false ∧ State.reset.seqLen = 0 ∧ State.reset.seqIdx = 0 ∧ State.reset.resKind = .ok
    ∧ State.reset.holdOutput = false ∧ State.reset.trace = []
    ∧ (∀ which, State.reset.chip.register which = none) ∧ (∀ a, Memory.read State.reset.chip.slots a = none)

/-- R191 (the spec's decision D7): the first step after reset transmits one ENABLE_CONTROL word, 0xF800 with hold 0,
reports the transport's answer, and leaves the block ready either way. The chip clauses are the ghost shadow of R22
(the spec's decision D21; log 14). -/
def Obligations.AttachTransmitsTheResetMirror : Prop :=
  ∀ (inputs : List HostEvent) (rest : List Ack),
    (∃ t, step { State.reset with inputs := inputs, answers := .ok :: rest } = .next t
      ∧ t.Ready ∧ t.trace = [⟨0xF800, false⟩] ∧ t.resKind = .ok ∧ t.outputControl = 0x3800
      ∧ t.chip.outputControl = some 0x3800 ∧ t.inputs = inputs ∧ t.answers = rest)
    ∧ (∀ e, ∃ t, step { State.reset with inputs := inputs, answers := .err e :: rest } = .next t
      ∧ t.Ready ∧ t.trace = [⟨0xF800, false⟩] ∧ t.resKind = .transportError ∧ t.resPayload = e
      ∧ t.outputControl = 0x3800 ∧ t.chip.outputControl = none ∧ t.inputs = inputs ∧ t.answers = rest)

/-- R193: detach presents nothing on the bus, and the chip keeps whatever it was last told. The model's own (log 8):
that the block's registers keep their values over detach, where R193 says that detach ends the life of every register
and R24 that no state of the block is defined after it; and that a request, which has no meaning from then on (R24,
U6), is refused. -/
def Obligations.DetachSendsNothing : Prop :=
  (∀ (s : State) (rest : List HostEvent), s.Ready → s.inputs = .detach :: rest →
    step s = .next { s with inputs := rest, lifecycle := .detached })
  ∧ (∀ (s : State) (w : Nat) (rest : List HostEvent), s.seqBusy = false → s.lifecycle = .detached →
    s.inputs = .request w :: rest → step s = .refused .noDevice)

/-- R20: `res_kind` holds the outcome of the last completed operation, and `res_payload` the transport's own value
when that was a `TransportError`; every step keeps it so, in every state. That the results are kept as a list is log
16. -/
def Obligations.StepKeepsResultIsLast : Prop :=
  ∀ s t : State, s.ResultIsLast → step s = .next t → t.ResultIsLast

/-- R21, R31: nothing is ever taken back from the wire trace. That the next attach of a detached device begins a new
one is log 8. -/
def Obligations.StepOnlyExtendsTheTrace : Prop :=
  ∀ s t : State, step s = .next t →
    (∃ sent, t.trace = s.trace ++ sent ∧ sent.length ≤ 4) ∨ (s.lifecycle = .detached ∧ t.trace = [])

/-- R18, R19, R62, R128 together: every step keeps the invariant of the block. Every mirror holds a legal value, every
pair on the wire is one the block emits with the hold flag that belongs to it, an operation in flight has a whole atom
in the buffer, and the chip's slots stand in canonical form. It rests on `MIRROR_COMMIT = BEFORE` (the spec's decision
D5, log 12); the slots are the ghost shadow (decision D21, log 14). -/
def Obligations.StepKeepsTheInvariant : Prop :=
  ∀ s t : State, s.Inv → step s = .next t → t.Inv

/-- From R124 and R128: while an operation is in flight, the words of its atom up to where it stands are the last
things on the wire, in order and with their hold flags; every step keeps it so. -/
def Obligations.StepKeepsTheSentWords : Prop :=
  ∀ s t : State, s.Inv → s.Sent → step s = .next t → t.Sent

/-- The invariants hold at reset. -/
def Obligations.ResetMeetsTheInvariant : Prop :=
  State.reset.Inv ∧ State.reset.Sent ∧ State.reset.ShadowAgrees ∧ State.reset.ResultIsLast

/-- Under the invariant the machine never stops: no step faults, and a step is refused only for a request or a detach
of a detached device or a second attach (R24, R190, U6; that the model refuses these is log 8). -/
def Obligations.InvariantMachineNeverStops : Prop :=
  ∀ s : State, s.Inv →
    (∃ t, step s = .next t)
    ∨ (step s = .refused .noDevice ∧ s.lifecycle = .detached)
    ∨ (step s = .refused .alreadyAttached ∧ s.lifecycle = .ready)

/-- R22, R199 (the ghost shadow is the spec's decision D21, log 14; `MIRROR_COMMIT = BEFORE` its decision D5, log 12):
whatever is known of a control register of the chip is what the block's mirror holds, but for the register whose word
is in flight. -/
def Obligations.StepKeepsTheShadowInAgreement : Prop :=
  ∀ s t : State, s.Inv → s.ShadowAgrees → step s = .next t → t.ShadowAgrees

/-! ## The configuration -/

/-- R6: `exec` and `step` are the machine over any parameter table at the table of the defaults. -/
def Obligations.ExecRunsTheDefaultTable : Prop :=
  (∀ (i : Instr) (s : State), exec i s = execWith Config.params i s)
  ∧ (∀ s : State, step s = stepWith Config.params s)

/-- R130, R173, U7: the transport's error value is "opaque to this layer". For every table and any two types of the
transport's payload, renaming the payloads before a step gives the step with its payloads renamed: the block copies
them and never inspects them. -/
def Obligations.PayloadIsNeverInspected : Prop :=
  ∀ (ε ε' : Type) (f : ε → ε') (p : Params) (s : State ε), stepWith p (s.mapPayload f) = mapOutcome f (stepWith p s)

/-- From R50, R80 and R7 items 1 and 2: in every table, not only in the default one, each field of a data word is
recovered by slicing, for every operand that can be written; so no bit is cut off or runs into another field (U3), and
a table with other widths (R7 leaves 5 and 3 beside 4 and 4) changes no rule. -/
def Obligations.DataWordFieldsInEveryTable : Prop :=
  ∀ (p : Params) (c : CommandCode) (a : p.Address) (b : Byte),
    field (encodeWord p c a b).toNat p.cmdShift p.cmdWidth = (p.code c).val
    ∧ field (encodeWord p c a b).toNat p.addrShift p.addrWidth = a.val
    ∧ (encodeWord p c a b).extractLsb' p.dataShift 8 = b

/-- From R63, R64 and R70 (the spec's decisions D8 and D9): in every consistent layout of the request word, the word of a
request is one the port can carry and decodes to that request, and in every consistent encoding of `res_kind` the
numbers tell the results apart; the defaults are consistent. What makes them consistent is read from the rules (log
27). -/
def Obligations.PortEncodingsRoundTripInEveryTable : Prop :=
  Config.params.request.Consistent ∧ Config.params.result.Consistent
  ∧ (∀ (p : Params) (i : Instr), p.request.Consistent → isRequest i = true → i.wellFormed p = true →
      ∃ w, encode i p = some w ∧ w.wellFormed p = true ∧ decode w p = .ok i)
  ∧ (∀ (p : Params) (a b : ResKind), p.result.Consistent → a.code p = b.code p → a = b)
end

