-- ==== Sys2Proof/Laws/Config.lean ====
section
/-! SUPPORT. The widths, the counts and the numbers of the default table (R6), one lemma per entry. -/

namespace Sys2Proof

@[simp] theorem Config.wordWidth_eq : Config.wordWidth = 16 := rfl
@[simp] theorem Config.dataWidth_eq : Config.dataWidth = 8 := rfl
@[simp] theorem Config.freqBits_eq : Config.freqBits = 32 := rfl
@[simp] theorem Config.phaseBits_eq : Config.phaseBits = 12 := rfl
@[simp] theorem Config.nFreqBanks_eq : Config.nFreqBanks = 2 := rfl
@[simp] theorem Config.nPhaseBanks_eq : Config.nPhaseBanks = 4 := rfl
@[simp] theorem Config.nFreqWords_eq : Config.nFreqWords = 4 := rfl
@[simp] theorem Config.nPhaseWords_eq : Config.nPhaseWords = 2 := rfl

/-- The types of the values have the widths that the source fixes (R6; log 25). -/
theorem types_have_the_widths :
    CommandWord = BitVec Config.wordWidth ∧ Byte = BitVec Config.dataWidth ∧ Value = BitVec Config.freqBits :=
  ⟨rfl, rfl, rfl⟩

/-- The table has one base for each bank, by the counts that the source fixes (R6; log 25). -/
theorem entries_have_the_counts (p : Params) :
    (∃ f : Fin Config.nFreqBanks → { a : p.Address // 3 ≤ a.val }, p.freqBase = f)
      ∧ ∃ f : Fin Config.nPhaseBanks → { a : p.Address // 1 ≤ a.val }, p.phaseBase = f :=
  ⟨⟨_, rfl⟩, ⟨_, rfl⟩⟩

/-! The widths that types rest on are no simp lemmas: rewriting one inside a type leaves a term no other lemma
matches. -/

theorem params_addrWidth : Config.params.addrWidth = 4 := rfl
theorem params_cmdWidth : Config.params.cmdWidth = 4 := rfl
theorem params_request_opWidth : Config.params.request.opWidth = 4 := rfl
theorem params_request_selWidth : Config.params.request.selWidth = 4 := rfl
theorem params_result_width : Config.params.result.width = 2 := rfl

@[simp] theorem params_dataShift : Config.params.dataShift = 0 := rfl
@[simp] theorem params_addrShift : Config.params.addrShift = 8 := rfl
@[simp] theorem params_cmdShift : Config.params.cmdShift = 12 := rfl
@[simp] theorem params_code_phase16 : (Config.params.code .phase16).val = 0x0 := rfl
@[simp] theorem params_code_phase8 : (Config.params.code .phase8).val = 0x1 := rfl
@[simp] theorem params_code_frequency16 : (Config.params.code .frequency16).val = 0x2 := rfl
@[simp] theorem params_code_frequency8 : (Config.params.code .frequency8).val = 0x3 := rfl
@[simp] theorem params_code_bankSelect : (Config.params.code .bankSelect).val = 0x6 := rfl
@[simp] theorem params_code_syncSourceSelect : (Config.params.code .syncSourceSelect).val = 0x8 := rfl
@[simp] theorem params_code_enableControl : (Config.params.code .enableControl).val = 0xC := rfl
@[simp] theorem params_ocSleep : Config.params.ocSleep = 0x2000#16 := rfl
@[simp] theorem params_ocReset : Config.params.ocReset = 0x1000#16 := rfl
@[simp] theorem params_ocClear : Config.params.ocClear = 0x0800#16 := rfl
@[simp] theorem params_ocMask : Config.params.ocMask = 0x3800#16 := by decide
@[simp] theorem params_bsFreq : Config.params.bsFreq = 0x0800#16 := rfl
@[simp] theorem params_bsPhaseShift : Config.params.bsPhaseShift = 9 := rfl
@[simp] theorem params_bsPhaseMask : Config.params.bsPhaseMask = 0x0600#16 := by decide
@[simp] theorem params_bsMask : Config.params.bsMask = 0x0E00#16 := by decide
@[simp] theorem params_ssSelsrc : Config.params.ssSelsrc = 0x1000#16 := rfl
@[simp] theorem params_ssMask : Config.params.ssMask = 0x1000#16 := rfl
@[simp] theorem params_unownedBits (which : ControlMirror) : Config.params.unownedBits which = 0#16 := by
  cases which <;> decide
@[simp] theorem params_mirrorCommit : Config.params.mirrorCommit = .before := rfl
@[simp] theorem params_bankselReset : Config.params.bankselReset = 0 := rfl
@[simp] theorem params_syncsrcReset : Config.params.syncsrcReset = 0 := rfl
@[simp] theorem params_request_width : Config.params.request.width = 40 := rfl
@[simp] theorem params_request_opShift : Config.params.request.opShift = 36 := rfl
@[simp] theorem params_request_selShift : Config.params.request.selShift = 32 := rfl
@[simp] theorem params_request_valShift : Config.params.request.valShift = 0 := rfl
@[simp] theorem params_op_setFrequency : (Config.params.request.op .setFrequency).val = 0x1 := rfl
@[simp] theorem params_op_setPhase : (Config.params.request.op .setPhase).val = 0x2 := rfl
@[simp] theorem params_op_setOutputEnabled : (Config.params.request.op .setOutputEnabled).val = 0x3 := rfl
@[simp] theorem params_op_selectActiveFrequencyBank :
    (Config.params.request.op .selectActiveFrequencyBank).val = 0x4 := rfl
@[simp] theorem params_op_selectActivePhaseBank : (Config.params.request.op .selectActivePhaseBank).val = 0x5 := rfl
@[simp] theorem params_op_selectSyncSource : (Config.params.request.op .selectSyncSource).val = 0x6 := rfl
@[simp] theorem params_attachEmits : Config.params.attachEmits = true := rfl
@[simp] theorem params_freqBase_zero : (Config.params.freqBase 0).1.val = 0x3 := rfl
@[simp] theorem params_freqBase_one : (Config.params.freqBase 1).1.val = 0x7 := rfl

@[simp] theorem params_phaseBase_zero : (Config.params.phaseBase 0).1.val = 0x9 := rfl
@[simp] theorem params_phaseBase_one : (Config.params.phaseBase 1).1.val = 0xB := rfl
@[simp] theorem params_phaseBase_two : (Config.params.phaseBase 2).1.val = 0xD := rfl
@[simp] theorem params_phaseBase_three : (Config.params.phaseBase 3).1.val = 0xF := rfl

/-- The four phase bases stand two apart from 0x9 on. -/
theorem params_phaseBase (b : Fin 4) :
    (Config.params.phaseBase b).1.val = 9 + 2 * b.val := by
  revert b; decide

end Sys2Proof
end

