-- ==== Sys2Proof/Laws/Codec.lean ====
section
/-! SUPPORT. The laws of the codec and of the classifier of command words: what a word's fields are, what it decodes
to, and where it goes in the chip. -/

namespace Sys2Proof

/-- A number is narrowed to itself, exactly where it is below the bound: nothing is cut off (U3). -/
theorem narrow_eq_some {bound n : Nat} {x : Fin bound} : narrow bound n = some x ↔ x.val = n := by
  unfold narrow
  split
  · simp [Fin.ext_iff, eq_comm]
  · simp only [reduceCtorEq, false_iff]
    omega

@[simp] theorem narrow_isSome (bound n : Nat) : (narrow bound n).isSome = decide (n < bound) := by
  unfold narrow
  split <;> simp_all

/-- A data command word of a number that fits is the encoded word of the address it is (R80). -/
theorem dataWord_eq_some {p : Params} {code : CommandCode} {addr : Nat} {data : Byte} {w : CommandWord} :
    dataWord p code addr data = some w ↔ ∃ a : p.Address, a.val = addr ∧ encodeWord p code a data = w := by
  simp [dataWord, Params.address?, Option.map_eq_some_iff, narrow_eq_some]

/-- A request word of a number that fits is the packed word of the selector it is (R63). -/
theorem requestWord_eq_some {p : Params} {op : Operation} {sel : Nat} {val : Value} {w : PortWord} :
    requestWord p op sel val = some w ↔ ∃ s : p.Selector, s.val = sel ∧ .request (packRequest p op s val) = w := by
  simp [requestWord, Params.selector?, Option.map_eq_some_iff, narrow_eq_some]

/-- A field read bit by bit. -/
theorem field_testBit (w shift width i : Nat) :
    (field w shift width).testBit i = (decide (i < width) && w.testBit (shift + i)) := by
  simp [field, Nat.testBit_mod_two_pow, Nat.testBit_div_two_pow, Nat.add_comm]

/-- A field fits its width. -/
theorem field_lt (w shift width : Nat) : field w shift width < 2 ^ width := Nat.mod_lt _ (Nat.two_pow_pos width)

/-- A number that is made of a field's bits and fits its width is the field. -/
theorem field_eq {w shift width v : Nat} (hv : v < 2 ^ width)
    (h : ∀ i, i < width → w.testBit (shift + i) = v.testBit i) : field w shift width = v := by
  apply Nat.eq_of_testBit_eq
  intro i
  rw [field_testBit]
  by_cases hi : i < width
  · simp [hi, h i hi]
  · simp [hi, Nat.testBit_lt_two_pow (lt_of_lt_of_le hv (Nat.pow_le_pow_right (by decide) (Nat.le_of_not_lt hi)))]

/-- Every default code fits its four bits (R7 item 2). -/
theorem params_code_lt (c : CommandCode) : (Config.params.code c).val < 2 ^ 4 := (Config.params.code c).isLt

/-- The three fields are disjoint and cover the word (R50): each bit of a data word is a bit of one of them (R80). -/
theorem encodeWord_getLsbD (c : CommandCode) (a : Config.params.Address) (b : Byte) (i : Nat) (hi : i < 16) :
    (encodeWord Config.params c a b).getLsbD i = if i < 8 then b.getLsbD i else if i < 12 then a.val.testBit (i - 8)
      else (Config.params.code c).val.testBit (i - 12) := by
  simp only [encodeWord, shiftedCode, params_cmdShift, params_addrShift, params_dataShift, BitVec.getLsbD_or,
    BitVec.getLsbD_shiftLeft, BitVec.getLsbD_setWidth, BitVec.getLsbD_ofNat, hi, decide_true, Bool.true_and]
  have hb : 8 ≤ i → b.getLsbD i = false := BitVec.getLsbD_of_ge b i
  have ha : 12 ≤ i → a.val.testBit (i - 8) = false := fun h =>
    Nat.testBit_lt_two_pow (lt_of_lt_of_le a.isLt (Nat.pow_le_pow_right (n := 2) (i := 4) (by decide) (by omega)))
  have h16 : i - 8 < 16 ∧ i - 12 < 16 := by omega
  by_cases h8 : i < 8
  · simp [h8, hi, show i < 12 by omega]
  · by_cases h12 : i < 12
    · simp [h8, h12, h16, hb (by omega)]
    · simp [h8, h12, h16, ha (by omega), hb (by omega)]

/-- The `cmd` field of a data word (R50). -/
theorem encodeWord_cmd (c : CommandCode) (a : Config.params.Address) (b : Byte) :
    field (encodeWord Config.params c a b).toNat 12 4 = (Config.params.code c).val :=
  field_eq (params_code_lt c) fun i hi => by
    rw [BitVec.testBit_toNat, encodeWord_getLsbD _ _ _ _ (by omega)]
    simp [show ¬ 12 + i < 8 by omega]

/-- The `addr` field of a data word (R50). -/
theorem encodeWord_addr (c : CommandCode) (a : Config.params.Address) (b : Byte) :
    field (encodeWord Config.params c a b).toNat 8 4 = a.val :=
  field_eq a.isLt fun i hi => by
    rw [BitVec.testBit_toNat, encodeWord_getLsbD _ _ _ _ (by omega)]
    simp [show 8 + i < 12 by omega]

/-- The `data` field of a data word (R50). -/
theorem encodeWord_data (c : CommandCode) (a : Config.params.Address) (b : Byte) :
    (encodeWord Config.params c a b).extractLsb' 0 8 = b := by
  apply BitVec.eq_of_getLsbD_eq
  intro i hi
  rw [BitVec.getLsbD_extractLsb', encodeWord_getLsbD _ _ _ _ (by omega)]
  simp [hi]

/-- A data word is the word of no control code: one of the class bits 15:14 is set in every control word, whatever its
mirror holds, and in no data word (R61). -/
theorem encodeWord_not_control (c : CommandCode) (a : Config.params.Address) (b : Byte)
    (h : (Config.params.code c).val < 4) :
    encodeWord Config.params c a b &&& 0xC7FF#16 ≠ 0xC000#16
      ∧ encodeWord Config.params c a b &&& 0xEFFF#16 ≠ 0x8000#16
      ∧ encodeWord Config.params c a b &&& 0xF1FF#16 ≠ 0x6000#16 := by
  have hbit : ∀ n, n < 2 → (encodeWord Config.params c a b).getLsbD (14 + n) = false := by
    intro n hn
    rw [encodeWord_getLsbD _ _ _ _ (by omega)]
    simp [show ¬ 14 + n < 8 by omega, show ¬ 14 + n < 12 by omega, show 14 + n - 12 = 2 + n by omega]
    exact Nat.testBit_lt_two_pow (lt_of_lt_of_le h (Nat.pow_le_pow_right (n := 2) (i := 2) (by decide) (by omega)))
  refine ⟨fun e => ?_, fun e => ?_, fun e => ?_⟩
  · have := congrArg (fun w => w.getLsbD 15) e
    rw [BitVec.getLsbD_and, hbit 1 (by omega)] at this
    exact absurd this (by decide)
  · have := congrArg (fun w => w.getLsbD 15) e
    rw [BitVec.getLsbD_and, hbit 1 (by omega)] at this
    exact absurd this (by decide)
  · have := congrArg (fun w => w.getLsbD 14) e
    rw [BitVec.getLsbD_and, hbit 0 (by omega)] at this
    exact absurd this (by decide)

/-- The shifted control codes of the default table (R60). -/
@[simp] theorem shiftedCode_enableControl : shiftedCode .enableControl = 0xC000#16 := by decide
@[simp] theorem shiftedCode_syncSourceSelect : shiftedCode .syncSourceSelect = 0x8000#16 := by decide
@[simp] theorem shiftedCode_bankSelect : shiftedCode .bankSelect = 0x6000#16 := by decide

/-- With the default table the pattern of a control word is its shifted code. -/
@[simp] theorem controlPattern_eq (which : ControlMirror) :
    controlPattern which = shiftedCode (Config.controlCode which) := by cases which <;> decide

/-- The decoder of command words with the default numbers (R61). -/
theorem decodeCommand_eq (w : CommandWord) : decodeCommand w =
    if w &&& 0xC7FF#16 = 0xC000#16 then .ok (.enableControl (flagSet w 0x2000) (flagSet w 0x1000) (flagSet w 0x0800))
    else if w &&& 0xEFFF#16 = 0x8000#16 then .ok (.syncSourceSelect (flagSet w 0x1000))
    else if w &&& 0xF1FF#16 = 0x6000#16 then .ok (.bankSelect (flagSet w 0x0800) (w.extractLsb' 9 2))
    else if field w.toNat 12 4 = 3 then .ok (.frequency8 (field w.toNat 8 4) (w.extractLsb' 0 8))
    else if field w.toNat 12 4 = 2 then .ok (.frequency16 (field w.toNat 8 4) (w.extractLsb' 0 8))
    else if field w.toNat 12 4 = 1 then
      if phaseHighByte (w.extractLsb' 0 8) then .ok (.phase8 (field w.toNat 8 4) (w.extractLsb' 0 8))
      else .error .neverEmitted
    else if field w.toNat 12 4 = 0 then .ok (.phase16 (field w.toNat 8 4) (w.extractLsb' 0 8))
    else .error .neverEmitted := by
  unfold decodeCommand
  simp
  rfl

theorem decodeCommand_phase16 (a : Config.params.Address) (b : Byte) :
    decodeCommand (encodeWord Config.params .phase16 a b) = .ok (.phase16 a.val b) := by
  obtain ⟨h1, h2, h3⟩ := encodeWord_not_control .phase16 a b (by decide)
  simp [decodeCommand_eq, h1, h2, h3, encodeWord_cmd, encodeWord_addr, encodeWord_data]

theorem decodeCommand_phase8 (a : Config.params.Address) (b : Byte) (h : phaseHighByte b = true) :
    decodeCommand (encodeWord Config.params .phase8 a b) = .ok (.phase8 a.val b) := by
  obtain ⟨h1, h2, h3⟩ := encodeWord_not_control .phase8 a b (by decide)
  simp [decodeCommand_eq, h1, h2, h3, h, encodeWord_cmd, encodeWord_addr, encodeWord_data]

theorem decodeCommand_frequency16 (a : Config.params.Address) (b : Byte) :
    decodeCommand (encodeWord Config.params .frequency16 a b) = .ok (.frequency16 a.val b) := by
  obtain ⟨h1, h2, h3⟩ := encodeWord_not_control .frequency16 a b (by decide)
  simp [decodeCommand_eq, h1, h2, h3, encodeWord_cmd, encodeWord_addr, encodeWord_data]

theorem decodeCommand_frequency8 (a : Config.params.Address) (b : Byte) :
    decodeCommand (encodeWord Config.params .frequency8 a b) = .ok (.frequency8 a.val b) := by
  obtain ⟨h1, h2, h3⟩ := encodeWord_not_control .frequency8 a b (by decide)
  simp [decodeCommand_eq, h1, h2, h3, encodeWord_cmd, encodeWord_addr, encodeWord_data]

/-- A mirror with no unowned bit set is one of the finitely many values its fields can make (R14, R15, R18). -/
theorem bankSelect_cases (v : CommandWord) (h : v &&& ~~~Config.params.bsMask = 0) :
    ∃ f p, v = bankSelectOf f p := by
  refine ⟨v[11], v.extractLsb' 9 2, ?_⟩
  apply BitVec.eq_of_getLsbD_eq
  intro i hi
  have hb := congrArg (fun w => w.getLsbD i) h
  interval_cases i <;>
    simp [bankSelectOf, bitField] at hb ⊢ <;>
    (cases hv : v[11] <;> simp_all)

theorem syncSource_cases (v : CommandWord) (h : v &&& ~~~Config.params.ssMask = 0) : ∃ x, v = syncSourceOf x := by
  refine ⟨v[12], ?_⟩
  apply BitVec.eq_of_getLsbD_eq
  intro i hi
  have hb := congrArg (fun w => w.getLsbD i) h
  interval_cases i <;>
    simp [syncSourceOf, bitField] at hb ⊢ <;>
    (cases hv : v[12] <;> simp_all)

theorem outputControl_cases (v : CommandWord) (h : v &&& ~~~Config.params.ocMask = 0) :
    ∃ s r c, v = outputControlOf s r c := by
  refine ⟨v[13], v[12], v[11], ?_⟩
  apply BitVec.eq_of_getLsbD_eq
  intro i hi
  have hb := congrArg (fun w => w.getLsbD i) h
  interval_cases i <;>
    simp [outputControlOf, bitField] at hb ⊢ <;>
    (cases hv : v[13] <;> cases hw : v[12] <;> cases hx : v[11] <;> simp_all)

theorem decodeCommand_bankSelect : ∀ (f : Bool) (p : BitVec 2),
    decodeCommand (encodeControlWord .bankSelect (bankSelectOf f p)) = .ok (.bankSelect f p) := by decide

theorem decodeCommand_syncSourceSelect : ∀ x : Bool,
    decodeCommand (encodeControlWord .syncSource (syncSourceOf x)) = .ok (.syncSourceSelect x) := by decide

theorem decodeCommand_enableControl : ∀ s r c : Bool,
    decodeCommand (encodeControlWord .outputControl (outputControlOf s r c)) = .ok (.enableControl s r c) := by decide

namespace Machine

theorem chipTarget_phase16 (a : Config.params.Address) (b : Byte) :
    chipTarget (encodeWord Config.params .phase16 a b) = some (.slot a.val b) := by
  simp [chipTarget, decodeCommand_phase16]

theorem chipTarget_phase8 (a : Config.params.Address) (b : Byte) (h : phaseHighByte b = true) :
    chipTarget (encodeWord Config.params .phase8 a b) = some (.slot a.val b) := by
  simp [chipTarget, decodeCommand_phase8 _ _ h]

theorem chipTarget_frequency16 (a : Config.params.Address) (b : Byte) :
    chipTarget (encodeWord Config.params .frequency16 a b) = some (.slot a.val b) := by
  simp [chipTarget, decodeCommand_frequency16]

theorem chipTarget_frequency8 (a : Config.params.Address) (b : Byte) :
    chipTarget (encodeWord Config.params .frequency8 a b) = some (.slot a.val b) := by
  simp [chipTarget, decodeCommand_frequency8]

/-- A data command word, in any table, goes to a slot of the register space (R30). -/
theorem chipTarget_slot_lt {p : Params} {w : CommandWord} {a : Nat} {v : Byte}
    (h : chipTarget w p = some (.slot a v)) : a < 2 ^ p.addrWidth := by
  have key : ∀ i, decodeCommand w p = .ok i →
      i = .phase16 a v ∨ i = .phase8 a v ∨ i = .frequency16 a v ∨ i = .frequency8 a v →
      a = field w.toNat p.addrShift p.addrWidth := by
    intro i hi hcase
    unfold decodeCommand at hi
    dsimp only at hi
    split at hi <;> [skip; split at hi <;> [skip; split at hi <;> [skip; split at hi <;> [skip;
      split at hi <;> [skip; split at hi <;> [split at hi; split at hi]]]]]] <;>
    · cases hi <;> simp_all
  have : ∃ i, decodeCommand w p = .ok i ∧
      (i = .phase16 a v ∨ i = .phase8 a v ∨ i = .frequency16 a v ∨ i = .frequency8 a v) := by
    unfold chipTarget at h
    split at h <;> simp_all
  obtain ⟨i, hi, hc⟩ := this
  rw [key i hi hc]
  exact field_lt _ _ _

/-- A control word goes to the chip's copy of its mirror and carries the mirror's value (R60; R7 item 4). -/
theorem chipTarget_control (which : ControlMirror) (v : CommandWord)
    (h : v &&& ~~~Config.params.ownedMask which = 0) :
    chipTarget (encodeControlWord which v) = some (.register which v) := by
  cases which
  · obtain ⟨a, b, c, rfl⟩ := outputControl_cases v h
    revert a b c; decide
  · obtain ⟨f, p, rfl⟩ := bankSelect_cases v h
    revert f p; decide
  · obtain ⟨x, rfl⟩ := syncSource_cases v h
    revert x; decide

end Machine
end Sys2Proof
end

