-- ==== Sys2Proof/Laws/State.lean ====
section
/-! SUPPORT. One lemma per field per update of `State`, so that no later proof unfolds a record update. (Lean may print a
field of a `State` in a goal as `s.trace TransportErrorPayload`; it is `s.trace`.) -/

namespace Sys2Proof.Machine

variable {ε : Type}

section Finish
variable (s : State ε) (r : OpResult ε)

@[simp] theorem State.finish_outputControl : (s.finish r).outputControl = s.outputControl := rfl
@[simp] theorem State.finish_bankSelect : (s.finish r).bankSelect = s.bankSelect := rfl
@[simp] theorem State.finish_syncSource : (s.finish r).syncSource = s.syncSource := rfl
@[simp] theorem State.finish_seqBusy : (s.finish r).seqBusy = false := rfl
@[simp] theorem State.finish_seqBuf : (s.finish r).seqBuf = s.seqBuf := rfl
@[simp] theorem State.finish_seqLen : (s.finish r).seqLen = s.seqLen := rfl
@[simp] theorem State.finish_seqIdx : (s.finish r).seqIdx = s.seqIdx := rfl
@[simp] theorem State.finish_resKind : (s.finish r).resKind = r.kind := rfl
@[simp] theorem State.finish_awaiting : (s.finish r).awaiting = false := rfl
@[simp] theorem State.finish_pendingCommit : (s.finish r).pendingCommit = none := rfl
@[simp] theorem State.finish_lifecycle : (s.finish r).lifecycle = s.lifecycle := rfl
@[simp] theorem State.finish_inputs : (s.finish r).inputs = s.inputs := rfl
@[simp] theorem State.finish_answers : (s.finish r).answers = s.answers := rfl
@[simp] theorem State.finish_trace : (s.finish r).trace = s.trace := rfl
@[simp] theorem State.finish_results : (s.finish r).results = s.results ++ [r] := rfl
@[simp] theorem State.finish_chip : (s.finish r).chip = s.chip := rfl

/-- `res_payload` is written by a `TransportError` only (R175). -/
theorem State.finish_resPayload : (s.finish r).resPayload
    = match r with
      | .error (.transport e) => e
      | .error .invalidInput => s.resPayload
      | .error .outOfRange => s.resPayload
      | .ok => s.resPayload := rfl

@[simp] theorem State.finish_ok_resPayload : (s.finish .ok).resPayload = s.resPayload := rfl

end Finish

section Raise
variable (s : State ε) (e : OpError ε)

@[simp] theorem State.raise_outputControl : (s.raise e).outputControl = s.outputControl := rfl
@[simp] theorem State.raise_bankSelect : (s.raise e).bankSelect = s.bankSelect := rfl
@[simp] theorem State.raise_syncSource : (s.raise e).syncSource = s.syncSource := rfl
@[simp] theorem State.raise_seqBusy : (s.raise e).seqBusy = false := rfl
@[simp] theorem State.raise_seqBuf : (s.raise e).seqBuf = s.seqBuf := rfl
@[simp] theorem State.raise_seqLen : (s.raise e).seqLen = s.seqLen := rfl
@[simp] theorem State.raise_seqIdx : (s.raise e).seqIdx = s.seqIdx := rfl
@[simp] theorem State.raise_resKind : (s.raise e).resKind = (OpResult.error e).kind := rfl
@[simp] theorem State.raise_awaiting : (s.raise e).awaiting = false := rfl
@[simp] theorem State.raise_pendingCommit : (s.raise e).pendingCommit = none := rfl
@[simp] theorem State.raise_lifecycle : (s.raise e).lifecycle = s.lifecycle := rfl
@[simp] theorem State.raise_inputs : (s.raise e).inputs = s.inputs := rfl
@[simp] theorem State.raise_answers : (s.raise e).answers = s.answers := rfl
@[simp] theorem State.raise_trace : (s.raise e).trace = s.trace := rfl
@[simp] theorem State.raise_results : (s.raise e).results = s.results ++ [.error e] := rfl
@[simp] theorem State.raise_chip : (s.raise e).chip = s.chip := rfl

@[simp] theorem State.raise_transport_resPayload (p : ε) :
    (s.raise (.transport p)).resPayload = p := rfl
@[simp] theorem State.raise_invalidInput_resPayload : (s.raise .invalidInput).resPayload = s.resPayload := rfl
@[simp] theorem State.raise_outOfRange_resPayload : (s.raise .outOfRange).resPayload = s.resPayload := rfl

end Raise

section LoadAtom
variable (s : State ε) (words : List CommandWord)

@[simp] theorem State.loadAtom_outputControl : (s.loadAtom words).outputControl = s.outputControl := rfl
@[simp] theorem State.loadAtom_bankSelect : (s.loadAtom words).bankSelect = s.bankSelect := rfl
@[simp] theorem State.loadAtom_syncSource : (s.loadAtom words).syncSource = s.syncSource := rfl
@[simp] theorem State.loadAtom_seqBusy : (s.loadAtom words).seqBusy = true := rfl
@[simp] theorem State.loadAtom_seqBuf : (s.loadAtom words).seqBuf = s.seqBuf.load words := rfl
@[simp] theorem State.loadAtom_seqLen : (s.loadAtom words).seqLen = BitVec.ofNat 3 words.length := rfl
@[simp] theorem State.loadAtom_seqIdx : (s.loadAtom words).seqIdx = 0 := rfl
@[simp] theorem State.loadAtom_resKind : (s.loadAtom words).resKind = s.resKind := rfl
@[simp] theorem State.loadAtom_resPayload : (s.loadAtom words).resPayload = s.resPayload := rfl
@[simp] theorem State.loadAtom_awaiting : (s.loadAtom words).awaiting = false := rfl
@[simp] theorem State.loadAtom_pendingCommit : (s.loadAtom words).pendingCommit = s.pendingCommit := rfl
@[simp] theorem State.loadAtom_lifecycle : (s.loadAtom words).lifecycle = s.lifecycle := rfl
@[simp] theorem State.loadAtom_inputs : (s.loadAtom words).inputs = s.inputs := rfl
@[simp] theorem State.loadAtom_answers : (s.loadAtom words).answers = s.answers := rfl
@[simp] theorem State.loadAtom_trace : (s.loadAtom words).trace = s.trace := rfl
@[simp] theorem State.loadAtom_results : (s.loadAtom words).results = s.results := rfl
@[simp] theorem State.loadAtom_chip : (s.loadAtom words).chip = s.chip := rfl

end LoadAtom

section Present
variable (s : State ε) (w : CommandWord)

@[simp] theorem State.present_outputControl : (s.present w).outputControl = s.outputControl := rfl
@[simp] theorem State.present_bankSelect : (s.present w).bankSelect = s.bankSelect := rfl
@[simp] theorem State.present_syncSource : (s.present w).syncSource = s.syncSource := rfl
@[simp] theorem State.present_seqBusy : (s.present w).seqBusy = s.seqBusy := rfl
@[simp] theorem State.present_seqBuf : (s.present w).seqBuf = s.seqBuf := rfl
@[simp] theorem State.present_seqLen : (s.present w).seqLen = s.seqLen := rfl
@[simp] theorem State.present_seqIdx : (s.present w).seqIdx = s.seqIdx := rfl
@[simp] theorem State.present_resKind : (s.present w).resKind = s.resKind := rfl
@[simp] theorem State.present_resPayload : (s.present w).resPayload = s.resPayload := rfl
@[simp] theorem State.present_awaiting : (s.present w).awaiting = true := rfl
@[simp] theorem State.present_pendingCommit : (s.present w).pendingCommit = s.pendingCommit := rfl
@[simp] theorem State.present_lifecycle : (s.present w).lifecycle = s.lifecycle := rfl
@[simp] theorem State.present_inputs : (s.present w).inputs = s.inputs := rfl
@[simp] theorem State.present_answers : (s.present w).answers = s.answers := rfl
@[simp] theorem State.present_trace : (s.present w).trace = s.trace ++ [⟨w, s.hold⟩] := rfl
@[simp] theorem State.present_results : (s.present w).results = s.results := rfl
@[simp] theorem State.present_chip : (s.present w).chip = s.chip := rfl

end Present

section Commit
variable (s : State ε) (m : MirrorWrite)

@[simp] theorem State.commit_seqBusy : (s.commit m).seqBusy = s.seqBusy := by rcases m with ⟨r, v⟩; cases r <;> rfl
@[simp] theorem State.commit_seqBuf : (s.commit m).seqBuf = s.seqBuf := by rcases m with ⟨r, v⟩; cases r <;> rfl
@[simp] theorem State.commit_seqLen : (s.commit m).seqLen = s.seqLen := by rcases m with ⟨r, v⟩; cases r <;> rfl
@[simp] theorem State.commit_seqIdx : (s.commit m).seqIdx = s.seqIdx := by rcases m with ⟨r, v⟩; cases r <;> rfl
@[simp] theorem State.commit_resKind : (s.commit m).resKind = s.resKind := by rcases m with ⟨r, v⟩; cases r <;> rfl
@[simp] theorem State.commit_resPayload : (s.commit m).resPayload = s.resPayload := by rcases m with ⟨r, v⟩; cases r <;> rfl
@[simp] theorem State.commit_awaiting : (s.commit m).awaiting = s.awaiting := by rcases m with ⟨r, v⟩; cases r <;> rfl
@[simp] theorem State.commit_pendingCommit : (s.commit m).pendingCommit = s.pendingCommit := by rcases m with ⟨r, v⟩; cases r <;> rfl
@[simp] theorem State.commit_lifecycle : (s.commit m).lifecycle = s.lifecycle := by rcases m with ⟨r, v⟩; cases r <;> rfl
@[simp] theorem State.commit_inputs : (s.commit m).inputs = s.inputs := by rcases m with ⟨r, v⟩; cases r <;> rfl
@[simp] theorem State.commit_answers : (s.commit m).answers = s.answers := by rcases m with ⟨r, v⟩; cases r <;> rfl
@[simp] theorem State.commit_trace : (s.commit m).trace = s.trace := by rcases m with ⟨r, v⟩; cases r <;> rfl
@[simp] theorem State.commit_results : (s.commit m).results = s.results := by rcases m with ⟨r, v⟩; cases r <;> rfl
@[simp] theorem State.commit_chip : (s.commit m).chip = s.chip := by rcases m with ⟨r, v⟩; cases r <;> rfl
@[simp] theorem State.commit_outputControl_outputControl (v : CommandWord) : (s.commit ⟨.outputControl, v⟩).outputControl = v := rfl
@[simp] theorem State.commit_outputControl_bankSelect (v : CommandWord) : (s.commit ⟨.outputControl, v⟩).bankSelect = s.bankSelect := rfl
@[simp] theorem State.commit_outputControl_syncSource (v : CommandWord) : (s.commit ⟨.outputControl, v⟩).syncSource = s.syncSource := rfl
@[simp] theorem State.commit_bankSelect_outputControl (v : CommandWord) : (s.commit ⟨.bankSelect, v⟩).outputControl = s.outputControl := rfl
@[simp] theorem State.commit_bankSelect_bankSelect (v : CommandWord) : (s.commit ⟨.bankSelect, v⟩).bankSelect = v := rfl
@[simp] theorem State.commit_bankSelect_syncSource (v : CommandWord) : (s.commit ⟨.bankSelect, v⟩).syncSource = s.syncSource := rfl
@[simp] theorem State.commit_syncSource_outputControl (v : CommandWord) : (s.commit ⟨.syncSource, v⟩).outputControl = s.outputControl := rfl
@[simp] theorem State.commit_syncSource_bankSelect (v : CommandWord) : (s.commit ⟨.syncSource, v⟩).bankSelect = s.bankSelect := rfl
@[simp] theorem State.commit_syncSource_syncSource (v : CommandWord) : (s.commit ⟨.syncSource, v⟩).syncSource = v := rfl

/-- A commit writes its mirror and no other (R16). -/
theorem State.commit_mirror (which : ControlMirror) :
    (s.commit m).mirror which = if which = m.mirror then m.value else s.mirror which := by
  rcases m with ⟨r, v⟩
  cases r <;> cases which <;> rfl

end Commit

section CommitPending
variable (s : State ε)

@[simp] theorem State.commitPending_seqBusy : s.commitPending.seqBusy = s.seqBusy := by
  unfold State.commitPending; split <;> simp
@[simp] theorem State.commitPending_seqBuf : s.commitPending.seqBuf = s.seqBuf := by
  unfold State.commitPending; split <;> simp
@[simp] theorem State.commitPending_seqLen : s.commitPending.seqLen = s.seqLen := by
  unfold State.commitPending; split <;> simp
@[simp] theorem State.commitPending_seqIdx : s.commitPending.seqIdx = s.seqIdx := by
  unfold State.commitPending; split <;> simp
@[simp] theorem State.commitPending_resKind : s.commitPending.resKind = s.resKind := by
  unfold State.commitPending; split <;> simp
@[simp] theorem State.commitPending_resPayload : s.commitPending.resPayload = s.resPayload := by
  unfold State.commitPending; split <;> simp
@[simp] theorem State.commitPending_awaiting : s.commitPending.awaiting = s.awaiting := by
  unfold State.commitPending; split <;> simp
@[simp] theorem State.commitPending_pendingCommit : s.commitPending.pendingCommit = s.pendingCommit := by
  unfold State.commitPending; split <;> simp
@[simp] theorem State.commitPending_lifecycle : s.commitPending.lifecycle = s.lifecycle := by
  unfold State.commitPending; split <;> simp
@[simp] theorem State.commitPending_inputs : s.commitPending.inputs = s.inputs := by
  unfold State.commitPending; split <;> simp
@[simp] theorem State.commitPending_answers : s.commitPending.answers = s.answers := by
  unfold State.commitPending; split <;> simp
@[simp] theorem State.commitPending_trace : s.commitPending.trace = s.trace := by
  unfold State.commitPending; split <;> simp
@[simp] theorem State.commitPending_results : s.commitPending.results = s.results := by
  unfold State.commitPending; split <;> simp
@[simp] theorem State.commitPending_chip : s.commitPending.chip = s.chip := by
  unfold State.commitPending; split <;> simp

/-- With nothing kept, stage 7 of R140 writes nothing. -/
@[simp] theorem State.commitPending_none (h : s.pendingCommit = none) : s.commitPending = s := by
  simp [State.commitPending, h]

end CommitPending

section Mirror
variable (s : State ε)

@[simp] theorem State.mirror_outputControl : s.mirror .outputControl = s.outputControl := rfl
@[simp] theorem State.mirror_bankSelect : s.mirror .bankSelect = s.bankSelect := rfl
@[simp] theorem State.mirror_syncSource : s.mirror .syncSource = s.syncSource := rfl

end Mirror

section ResetWith
variable (p : Params) (e : ε)

@[simp] theorem State.resetWith_outputControl : (State.resetWith p e).outputControl = p.ocMask := rfl
@[simp] theorem State.resetWith_bankSelect : (State.resetWith p e).bankSelect = p.bankselReset := rfl
@[simp] theorem State.resetWith_syncSource : (State.resetWith p e).syncSource = p.syncsrcReset := rfl
@[simp] theorem State.resetWith_seqBusy : (State.resetWith p e).seqBusy = false := rfl
@[simp] theorem State.resetWith_seqBuf : (State.resetWith p e).seqBuf = ⟨0, 0, 0, 0⟩ := rfl
@[simp] theorem State.resetWith_seqLen : (State.resetWith p e).seqLen = 0 := rfl
@[simp] theorem State.resetWith_seqIdx : (State.resetWith p e).seqIdx = 0 := rfl
@[simp] theorem State.resetWith_resKind : (State.resetWith p e).resKind = .ok := rfl
@[simp] theorem State.resetWith_resPayload : (State.resetWith p e).resPayload = e := rfl
@[simp] theorem State.resetWith_awaiting : (State.resetWith p e).awaiting = false := rfl
@[simp] theorem State.resetWith_pendingCommit : (State.resetWith p e).pendingCommit = none := rfl
@[simp] theorem State.resetWith_lifecycle :
    (State.resetWith p e).lifecycle = if p.attachEmits then .attaching else .ready := rfl
@[simp] theorem State.resetWith_inputs : (State.resetWith p e).inputs = [] := rfl
@[simp] theorem State.resetWith_answers : (State.resetWith p e).answers = [] := rfl
@[simp] theorem State.resetWith_trace : (State.resetWith p e).trace = [] := rfl
@[simp] theorem State.resetWith_results : (State.resetWith p e).results = [] := rfl
@[simp] theorem State.resetWith_chip : (State.resetWith p e).chip = ⟨none, none, none, []⟩ := rfl

end ResetWith

section Reset

/-- The machine's reset is the reset of the default table (R25). -/
theorem State.reset_eq : State.reset = State.resetWith Config.params ⟨0⟩ := rfl

@[simp] theorem State.reset_outputControl : State.reset.outputControl = 0x3800 := rfl
@[simp] theorem State.reset_bankSelect : State.reset.bankSelect = 0x0000 := rfl
@[simp] theorem State.reset_syncSource : State.reset.syncSource = 0x0000 := rfl
@[simp] theorem State.reset_seqBusy : State.reset.seqBusy = false := rfl
@[simp] theorem State.reset_awaiting : State.reset.awaiting = false := rfl
@[simp] theorem State.reset_pendingCommit : State.reset.pendingCommit = none := rfl
@[simp] theorem State.reset_resKind : State.reset.resKind = .ok := rfl
@[simp] theorem State.reset_lifecycle : State.reset.lifecycle = .attaching := rfl
@[simp] theorem State.reset_inputs : State.reset.inputs = [] := rfl
@[simp] theorem State.reset_answers : State.reset.answers = [] := rfl
@[simp] theorem State.reset_trace : State.reset.trace = [] := rfl
@[simp] theorem State.reset_results : State.reset.results = [] := rfl
@[simp] theorem State.reset_chip : State.reset.chip = ⟨none, none, none, []⟩ := rfl

end Reset

end Sys2Proof.Machine
end

