-- ==== Sys2Proof/Laws/Sequencer.lean ====
section
/-! SUPPORT. What each shared operation of the sequencer, of acceptance and of the step can do, said once, for every
parameter table. -/

namespace Sys2Proof.Machine

variable {ε : Type}

/-- The word the sequencer is at stands in the buffer at `seq_idx`, while busy and below `seq_len` (R128). -/
theorem State.currentWord?_eq_some {s : State ε} {w : CommandWord} :
    s.currentWord? = some w ↔
      s.seqBusy = true ∧ s.seqIdx.toNat < s.seqLen.toNat ∧ s.seqBuf.word? s.seqIdx.toNat = some w := by
  unfold State.currentWord?
  split
  · rename_i h; simp [h.1, h.2]
  · rename_i h
    constructor
    · intro h'; cases h'
    · rintro ⟨h1, h2, -⟩; exact absurd ⟨h1, h2⟩ h

/-- The answer `ok` before the last word: on to the next one (R128, third row). -/
theorem State.acknowledge_next {s : State ε} {p : Params} (h : s.seqIdx.toNat + 1 < s.seqLen.toNat) :
    s.acknowledge p = { s with seqIdx := s.seqIdx + 1, awaiting := false } := by
  simp [State.acknowledge, h]

/-- The answer `ok` to the last word: the operation ends with `OK` (R128, fourth row). -/
theorem State.acknowledge_last {s : State ε} {p : Params} (h : ¬ s.seqIdx.toNat + 1 < s.seqLen.toNat) :
    s.acknowledge p = { s.commitPending with seqIdx := s.seqLen, chip := s.chip.takeAtom s.atom p }.finish .ok := by
  simp [State.acknowledge, h]

/-- What taking the answer can do: nothing, go on, end well, or end with the transport's error. -/
theorem State.takeAnswer_cases (s : State ε) (p : Params) :
    (s.answers = [] ∧ s.takeAnswer p = s)
    ∨ (∃ rest, s.answers = .ok :: rest ∧ s.takeAnswer p = State.acknowledge { s with answers := rest } p)
    ∨ (∃ e rest, s.answers = .err e :: rest ∧ s.takeAnswer p = State.abort { s with answers := rest } e p) := by
  unfold State.takeAnswer
  split
  · exact .inl ⟨by assumption, rfl⟩
  · exact .inr (.inl ⟨_, by assumption, rfl⟩)
  · exact .inr (.inr ⟨_, _, by assumption, rfl⟩)

@[simp] theorem State.takeAnswer_nil {s : State ε} {p : Params} (h : s.answers = []) : s.takeAnswer p = s := by
  simp [State.takeAnswer, h]

theorem State.takeAnswer_ok {s : State ε} {p : Params} {rest : List (Ack ε)} (h : s.answers = .ok :: rest) :
    s.takeAnswer p = State.acknowledge { s with answers := rest } p := by
  simp [State.takeAnswer, h]

theorem State.takeAnswer_err {s : State ε} {p : Params} {e : ε} {rest : List (Ack ε)}
    (h : s.answers = .err e :: rest) : s.takeAnswer p = State.abort { s with answers := rest } e p := by
  simp [State.takeAnswer, h]

/-- A visit with no word to send does nothing. -/
theorem State.sendWord_none {s : State ε} {p : Params} (h : s.currentWord? = none) : s.sendWord p = s := by
  simp [State.sendWord, h]

/-- A visit presents the word, unless it stands presented already, and takes the answer (R128). -/
theorem State.sendWord_some {s : State ε} {p : Params} {w : CommandWord} (h : s.currentWord? = some w) :
    s.sendWord p = (if s.awaiting then s else s.present w).takeAnswer p := by
  simp [State.sendWord, h]

@[simp] theorem State.sendWords_zero (s : State ε) (p : Params) : State.sendWords 0 s p = s := rfl

/-- The loop goes on while the operation is in flight and no answer is missing. -/
theorem State.sendWords_succ (n : Nat) (s : State ε) (p : Params) :
    State.sendWords (n + 1) s p
      = if (s.sendWord p).seqBusy ∧ (s.sendWord p).awaiting = false then State.sendWords n (s.sendWord p) p
        else s.sendWord p := rfl

/-- The packaged induction over the loop: what every visit keeps, the loop keeps. -/
theorem State.sendWords_keeps {P : State ε → Prop} {p : Params} (h : ∀ s, P s → P (s.sendWord p)) (n : Nat)
    (s : State ε) (hs : P s) : P (State.sendWords n s p) := by
  induction n generalizing s with
  | zero => exact hs
  | succ n ih =>
    rw [State.sendWords_succ]
    split
    · exact ih _ (h s hs)
    · exact h s hs

/-- An empty atom presents nothing and ends with `OK` (R126). -/
@[simp] theorem State.transmit_nil (s : State ε) (p : Params) : s.transmit [] p = s.finish .ok := rfl

/-- An atom is loaded and sent (R120, R128). -/
@[simp] theorem State.transmit_cons (s : State ε) (w : CommandWord) (rest : List CommandWord) (p : Params) :
    s.transmit (w :: rest) p = (s.loadAtom (w :: rest)).sendWords (rest.length + 1) p := rfl

/-- A command word runs exactly where it is the word in flight, and then it is one visit of the sequencer. -/
theorem sendCommand_next {w : CommandWord} {s t : State ε} {p : Params} :
    sendCommand w s p = .next t ↔ s.currentWord? = some w ∧ t = s.sendWord p := by
  unfold sendCommand
  split
  · rename_i h; simp [h, eq_comm]
  · rename_i h; simp [h]

/-- A request runs exactly in an idle, ready block, and then it is its operation (R140). -/
theorem acceptRequest_next {op : State ε → State ε} {s t : State ε} :
    acceptRequest op s = .next t ↔
      s.seqBusy = false ∧ s.lifecycle = .ready ∧ t = op { s with seqBusy := true, pendingCommit := none } := by
  unfold acceptRequest
  split
  · rename_i h; simp [h]
  · rename_i h
    have hb : s.seqBusy = false := by simpa using h
    split <;> rename_i h' <;> simp only [h', hb, true_and, reduceCtorEq, false_and]
    exact ⟨fun e => (Host.Outcome.next.inj e).symm, fun e => by rw [e]⟩

/-- A control operation with `MIRROR_COMMIT = BEFORE` (R147): the mirror is written, then the word is sent. -/
theorem controlTransfer_before {p : Params} (h : p.mirrorCommit = .before) (m : MirrorWrite) (s : State ε) :
    controlTransfer p m s = (s.commit m).transmit [encodeControlWord m.mirror m.value p] p := by
  simp [controlTransfer, h]

/-- A control operation with `MIRROR_COMMIT = AFTER` (R147): the write is kept for the end of the transfer. -/
theorem controlTransfer_after {p : Params} (h : p.mirrorCommit = .after) (m : MirrorWrite) (s : State ε) :
    controlTransfer p m s
      = State.transmit { s with pendingCommit := some m } [encodeControlWord m.mirror m.value p] p := by
  simp [controlTransfer, h]

@[simp] theorem below_val {bound : Nat} (a : Fin bound) (k : Nat) (h : k ≤ a.val) : (below a k h).val = a.val - k := rfl

@[simp] theorem atomWords_nil (p : Params) : atomWords p [] = [] := rfl
@[simp] theorem atomWords_cons (p : Params) (t : RegisterWrite p.addrWidth) (rest : List (RegisterWrite p.addrWidth)) :
    atomWords p (t :: rest) = t.word p :: atomWords p rest := rfl
@[simp] theorem atomWords_length (p : Params) (writes : List (RegisterWrite p.addrWidth)) :
    (atomWords p writes).length = writes.length := List.length_map _

/-- The atom of a frequency, word by word (R81, R84, R88). -/
theorem atomWords_splitFrequency (p : Params) (value : Value) (base : { a : p.Address // 3 ≤ a.val }) :
    atomWords p (splitFrequency value base) =
      [ encodeWord p .frequency8 base.1 (value.extractLsb' 24 8),
        encodeWord p .frequency16 (below base.1 1 (by have := base.2; omega)) (value.extractLsb' 16 8),
        encodeWord p .frequency8 (below base.1 2 (by have := base.2; omega)) (value.extractLsb' 8 8),
        encodeWord p .frequency16 (below base.1 3 base.2) (value.extractLsb' 0 8) ] := rfl

/-- What the split of a phase can do: the error from 4096 on, else its two writes, whose atom is two words (R82, R84,
R88). -/
theorem splitPhase_cases (p : Params) (value : Value) (base : { a : p.Address // 1 ≤ a.val }) :
    (4096 ≤ value.toNat ∧ splitPhase (ε := ε) value base = .error .outOfRange)
    ∨ (value.toNat < 4096 ∧ ∃ writes, splitPhase (ε := ε) value base = .ok writes ∧ atomWords p writes =
        [ encodeWord p .phase8 base.1 ((value.extractLsb' 8 4).setWidth 8),
          encodeWord p .phase16 (below base.1 1 base.2) (value.extractLsb' 0 8) ]) := by
  by_cases h : 4096 ≤ value.toNat
  · exact .inl ⟨h, if_pos h⟩
  · exact .inr ⟨by omega, _, if_neg h, rfl⟩

/-- The atom of a frequency has four words (R88). -/
theorem atomWords_splitFrequency_length (p : Params) (value : Value) (base : { a : p.Address // 3 ≤ a.val }) :
    (atomWords p (splitFrequency value base)).length = 4 := rfl

/-- A data command word is sent exactly where it has a word and that word is in flight (R80, R128). -/
theorem sendDataCommand_next {word : Option CommandWord} {s t : State ε} {p : Params} :
    sendDataCommand word s p = .next t ↔ ∃ w, word = some w ∧ s.currentWord? = some w ∧ t = s.sendWord p := by
  cases word with
  | none => simp [sendDataCommand]
  | some w => simp [sendDataCommand, sendCommand_next]

/-- The step's four cases, by what `fetch` finds. -/
theorem step_eq (s : State) : step s = match fetch s with
    | .run i s' => exec i s'
    | .done s' => .next s'
    | .fault r => .fault r
    | .refuse r => .refused r := rfl

/-- While busy, the next thing is the word in flight (R127). -/
theorem fetch_busy {s : State ε} {p : Params} (h : s.seqBusy = true) : fetch s p = fetchWord s p := by simp [fetch, h]

/-- After reset, the next thing is the attach transfer (R191). -/
theorem fetch_attaching {s : State ε} {p : Params} (h : s.seqBusy = false) (h' : s.lifecycle = .attaching) :
    fetch s p = .done (attachTransfer s p) := by simp [fetch, h, h']

/-- An idle, ready block takes the next event (R140). -/
theorem fetch_ready {s : State ε} {p : Params} (h : s.seqBusy = false) (h' : s.lifecycle = .ready) :
    fetch s p = fetchEvent s p := by simp [fetch, h, h']

/-- A detached device waits for its next attach (R24). -/
theorem fetch_detached {s : State ε} {p : Params} (h : s.seqBusy = false) (h' : s.lifecycle = .detached) :
    fetch s p = fetchDetached s p := by simp [fetch, h, h']

end Sys2Proof.Machine
end

