-- ==== Sys2Proof/Laws/Emitted.lean ====
section
/-! SUPPORT. The words `Params.Emits` counts (R7 item 5) are all the words a step can put on the wire, in every table;
and what the values of the mirrors are. -/

namespace Sys2Proof

/-- The phase-bank merge leaves every bit outside `BS_MASK` (R17, R103). -/
theorem Machine.mergePhaseBank_unowned {p : Params} {bs bs' : CommandWord} {bank : Nat}
    (hm : Machine.mergePhaseBank (ε := Machine.TransportErrorPayload) bs bank p = .ok bs') :
    bs' &&& ~~~p.bsMask = bs &&& ~~~p.bsMask := by
  unfold Machine.mergePhaseBank at hm
  split at hm
  · cases hm
  · rename_i b hb
    obtain rfl := Except.ok.inj hm
    have hb : BitVec.ofNat 16 b.val = BitVec.ofNat 16 b.val &&& 3#16 := by clear hm hb; revert b; decide
    rw [hb, BitVec.shiftLeft_and_distrib]
    ext i
    simp only [Params.bsMask, Params.bsPhaseMask, BitVec.getElem_and, BitVec.getElem_or, BitVec.getElem_not]
    cases (3#16 <<< p.bsPhaseShift)[i] <;> simp

/-- Bits outside a mirror's mask are for ever those of its reset value, and `outputControl` has three values (R13, R17,
in every table). -/
theorem Params.MirrorValue.cases {p : Params} {which : ControlMirror} {v : CommandWord} (h : p.MirrorValue which v) :
    match which with
    | .outputControl => v = p.ocMask ∨ v = 0 ∨ v = p.ocReset
    | .bankSelect => v &&& ~~~p.bsMask = p.unownedBits .bankSelect
    | .syncSource => v &&& ~~~p.ssMask = p.unownedBits .syncSource := by
  induction h with
  | reset which => cases which <;> simp [Params.resetMirror, Params.unownedBits, Params.ownedMask]
  | outputEnabled enabled h ih =>
    have hsub : p.ocMask ||| p.ocReset = p.ocMask := by
      ext i; simp only [Params.ocMask, BitVec.getElem_or]; cases p.ocReset[i] <;> simp
    have hclear : p.ocReset &&& ~~~p.ocMask = 0 := by
      ext i; simp only [Params.ocMask, BitVec.getElem_and, BitVec.getElem_not, BitVec.getElem_or]
      cases p.ocReset[i] <;> simp
    cases enabled
    · rcases ih with rfl | rfl | rfl <;> simp [Machine.mergeOutputEnabled, hsub]
    · refine .inr (.inl ?_)
      rcases ih with rfl | rfl | rfl <;> simp only [Machine.mergeOutputEnabled, if_true]
      · exact BitVec.and_not_self _
      · simp
      · exact hclear
  | frequencyBank select h ih =>
    rw [← ih]; cases select <;> ext i <;> simp [Machine.mergeFrequencyBank, Params.bsMask] <;>
      cases p.bsFreq[i] <;> simp
  | phaseBank bank h hm ih => exact (Machine.mergePhaseBank_unowned hm).trans ih
  | syncSource useExternal h ih =>
    rw [← ih]; cases useExternal <;> ext i <;> simp [Machine.mergeSyncSource, Params.ssMask] <;>
      cases p.ssSelsrc[i] <;> simp

/-- The default's reset values have owned bits only, and so have all values of its mirrors (R18). -/
theorem Params.MirrorValue.legal {which : ControlMirror} {v : CommandWord}
    (h : Config.params.MirrorValue which v) : Machine.legalMirror which v := by
  have h := h.cases
  cases which
  · exact h
  · exact h.trans (by decide)
  · exact h.trans (by decide)

/-- Outside its mask a value of a mirror is the mirror's unowned bits. -/
theorem Params.MirrorValue.unowned {p : Params} {which : ControlMirror} {v : CommandWord}
    (h : p.MirrorValue which v) : v &&& ~~~p.ownedMask which = p.unownedBits which := by
  have h := h.cases
  cases which
  · have hsub : p.ocReset &&& ~~~p.ocMask = 0 := by
      ext i; simp only [Params.ocMask, BitVec.getElem_and, BitVec.getElem_not, BitVec.getElem_or]
      cases p.ocReset[i] <;> simp
    rcases h with rfl | rfl | rfl <;> simp [Params.unownedBits, Params.resetMirror, Params.ownedMask, hsub]
  · exact h
  · exact h

/-- Where no control code has a bit of its mirror's mask (R7 item 4), the decoder names an instruction for every control
word the block can emit: no table that meets R7 makes the block stop at its own control word. -/
theorem decodeCommand_emitted_control {p : Params} {which : ControlMirror} {v : CommandWord}
    (hcode : shiftedCode (Config.controlCode which) p &&& p.ownedMask which = 0) (h : p.MirrorValue which v) :
    ∃ i, decodeCommand (encodeControlWord which v p) p = .ok i := by
  have hpat : encodeControlWord which v p &&& ~~~p.ownedMask which = controlPattern which p := by
    rw [controlPattern, ← h.unowned, encodeControlWord]
    ext i hi
    have := congrArg (fun w => w[i]) hcode
    simp only [BitVec.getElem_and, BitVec.getElem_or, BitVec.getElem_not] at this ⊢
    cases hc : (shiftedCode (Config.controlCode which) p)[i] <;> simp_all
  unfold decodeCommand
  cases which <;> simp only [Params.ownedMask] at hpat <;> dsimp only <;> repeat' split
  all_goals exact ⟨_, rfl⟩

/-- A control word of a value its mirror can hold is counted. -/
theorem Params.emits_control {p : Params} {which : ControlMirror} {v : CommandWord} (h : p.MirrorValue which v) :
    p.Emits (Config.controlCode which) (encodeControlWord which v p) := .inr (.inr ⟨which, v, h, rfl, rfl⟩)

/-- The words of a split frequency are counted. -/
theorem Params.emits_frequency (p : Params) (bank : Fin 2) (value : Value) {w : CommandWord}
    (h : w ∈ Machine.atomWords p (Machine.splitFrequency value (p.freqBase bank))) : ∃ c, p.Emits c w := by
  obtain ⟨t, ht, rfl⟩ := List.mem_map.mp h
  exact ⟨_, .inl ⟨bank, value, t, ht, rfl, rfl⟩⟩

/-- The words of a split phase are counted. -/
theorem Params.emits_phase {p : Params} {bank : Fin 4} {value : Value} {writes : List (Machine.RegisterWrite p.addrWidth)}
    (hs : Machine.splitPhase (ε := Machine.TransportErrorPayload) value (p.phaseBase bank) = .ok writes) {w : CommandWord}
    (h : w ∈ Machine.atomWords p writes) : ∃ c, p.Emits c w := by
  obtain ⟨t, ht, rfl⟩ := List.mem_map.mp h
  exact ⟨_, .inr (.inl ⟨bank, value, writes, t, hs, ht, rfl, rfl⟩)⟩

namespace Machine

/-- Everything in the mirrors, kept for them, and on the wire is counted. -/
structure State.Counted (s : State) (p : Params) : Prop where
  mirrors : ∀ which, p.MirrorValue which (s.mirror which)
  pending : ∀ m, s.pendingCommit = some m → p.MirrorValue m.mirror m.value
  trace : ∀ e ∈ s.trace, ∃ c, p.Emits c e.word

/-- Everything an operation in flight has in its buffer is counted. -/
def State.AtomCounted (s : State) (p : Params) : Prop := s.seqBusy = true → ∀ w ∈ s.atom, ∃ c, p.Emits c w

variable {s : State} {p : Params}

/-- Only the mirrors, what is kept for them, and the wire matter. -/
theorem State.Counted.congr (h : s.Counted p) {t : State} (hm : ∀ which, t.mirror which = s.mirror which)
    (hp : t.pendingCommit = s.pendingCommit) (ht : t.trace = s.trace) : t.Counted p :=
  ⟨fun which => hm which ▸ h.mirrors which, hp ▸ h.pending, ht ▸ h.trace⟩

theorem State.Counted.commit (h : s.Counted p) {m : MirrorWrite} (hm : p.MirrorValue m.mirror m.value) :
    (s.commit m).Counted p where
  mirrors which := by
    rw [State.commit_mirror]
    split
    · rename_i e; rw [e]; exact hm
    · exact h.mirrors which
  pending := by simpa using h.pending
  trace := by simpa using h.trace

theorem State.Counted.commitPending (h : s.Counted p) : s.commitPending.Counted p := by
  unfold State.commitPending
  split
  · exact h.commit (h.pending _ (by assumption))
  · exact h

theorem State.Counted.finish (h : s.Counted p) (r : OpResult) : (s.finish r).Counted p :=
  ⟨fun which => by have := h.mirrors which; cases which <;> exact this, fun _ e => by simp at e, h.trace⟩

theorem State.Counted.takeAnswer (h : s.Counted p) : (s.takeAnswer p).Counted p := by
  rcases s.takeAnswer_cases p with ⟨-, e⟩ | ⟨rest, -, e⟩ | ⟨er, rest, -, e⟩ <;> rw [e]
  · exact h
  · have h' : State.Counted { s with answers := rest } p := ⟨h.mirrors, h.pending, h.trace⟩
    unfold State.acknowledge
    split
    · exact ⟨h.mirrors, h.pending, h.trace⟩
    · apply State.Counted.finish
      exact h'.commitPending.congr (fun which => by cases which <;> rfl) rfl rfl
  · apply State.Counted.finish
    exact h.congr (fun which => by cases which <;> rfl) rfl rfl

/-- Taking an answer leaves the buffer as it is. -/
theorem State.takeAnswer_atom (s : State) (p : Params) :
    (s.takeAnswer p).atom = s.atom ∧ ((s.takeAnswer p).seqBusy = true → s.seqBusy = true) := by
  rcases s.takeAnswer_cases p with ⟨-, e⟩ | ⟨rest, -, e⟩ | ⟨er, rest, -, e⟩ <;> rw [e]
  · exact ⟨rfl, id⟩
  · unfold State.acknowledge
    split
    · exact ⟨rfl, id⟩
    · exact ⟨by simp [State.atom], fun h => by simp at h⟩
  · exact ⟨rfl, fun h => by simp [State.abort] at h⟩

/-- A visit of the sequencer puts on the wire only a word of the atom. -/
theorem State.Counted.sendWord (h : s.Counted p ∧ s.AtomCounted p) :
    (s.sendWord p).Counted p ∧ (s.sendWord p).AtomCounted p := by
  cases hw : s.currentWord? with
  | none => rw [State.sendWord_none hw]; exact h
  | some w =>
    rw [State.sendWord_some hw]
    have key : ∀ t : State, t.Counted p → t.atom = s.atom → t.seqBusy = s.seqBusy →
        (t.takeAnswer p).Counted p ∧ (t.takeAnswer p).AtomCounted p := fun t ht ha hb =>
      ⟨ht.takeAnswer, fun hbusy => by
        rw [(t.takeAnswer_atom p).1, ha]
        exact h.2 (hb ▸ (t.takeAnswer_atom p).2 hbusy)⟩
    split
    · exact key s h.1 rfl rfl
    · refine key _ ⟨h.1.mirrors, h.1.pending, ?_⟩ rfl rfl
      intro e he
      rcases List.mem_append.mp he with he | he
      · exact h.1.trace e he
      · obtain rfl := List.mem_singleton.mp he
        obtain ⟨hb, hlt, hword⟩ := State.currentWord?_eq_some.mp hw
        refine h.2 hb w ?_
        have hget : s.atom[s.seqIdx.toNat]? = some w := by
          rw [State.atom, SeqBuf.words, List.getElem?_take, if_pos hlt, ← hword]
          match s.seqIdx.toNat with
          | 0 | 1 | 2 | 3 | n + 4 => rfl
        exact List.mem_of_getElem? hget

/-- One `transmit` of counted words keeps everything counted. -/
theorem State.Counted.transmit (h : s.Counted p) {words : List CommandWord} (hlen : words.length ≤ 4)
    (hw : ∀ w ∈ words, ∃ c, p.Emits c w) : (s.transmit words p).Counted p ∧ (s.transmit words p).AtomCounted p := by
  match words, hlen with
  | [], _ => exact ⟨h.finish _, fun hb => by simp at hb⟩
  | w :: rest, hlen =>
    rw [State.transmit_cons]
    refine State.sendWords_keeps (P := fun s => s.Counted p ∧ s.AtomCounted p) (fun _ => State.Counted.sendWord) _ _
      ⟨⟨h.mirrors, h.pending, h.trace⟩, fun _ x hx => hw x ?_⟩
    have hatom : (s.loadAtom (w :: rest)).atom = w :: rest := by
      match rest, hlen with
      | [], _ | [_], _ | [_, _], _ | [_, _, _], _ => rfl
    rwa [hatom] at hx

/-- A control transfer of a value its mirror can hold keeps everything counted, with either commit order (R147). -/
theorem State.Counted.controlTransfer (h : s.Counted p) {m : MirrorWrite} (hm : p.MirrorValue m.mirror m.value) :
    (controlTransfer p m s).Counted p ∧ (controlTransfer p m s).AtomCounted p := by
  have hw : ∀ w ∈ [encodeControlWord m.mirror m.value p], ∃ c, p.Emits c w := fun w hw => by
    obtain rfl := List.mem_singleton.mp hw
    exact ⟨_, Params.emits_control hm⟩
  cases hc : p.mirrorCommit
  · rw [controlTransfer_before hc]
    exact (h.commit hm).transmit (by simp) hw
  · rw [controlTransfer_after hc]
    exact State.Counted.transmit (s := { s with pendingCommit := some m })
      ⟨h.mirrors, fun m' e => by obtain rfl := Option.some.inj e; exact hm, h.trace⟩ (by simp) hw

/-- An error keeps everything counted. -/
theorem State.Counted.raise (h : s.Counted p) (e : OpError) : (s.raise e).Counted p ∧ (s.raise e).AtomCounted p :=
  ⟨h.finish _, fun hb => by simp at hb⟩

/-- Accepting a request hands its operation a counted state. -/
theorem acceptRequest_counted {op : State → State} {t : State} (hs : s.Counted p) (h : acceptRequest op s = .next t)
    (hop : ∀ s : State, s.Counted p → (op s).Counted p ∧ (op s).AtomCounted p) : t.Counted p ∧ t.AtomCounted p := by
  obtain ⟨-, -, rfl⟩ := acceptRequest_next.mp h
  exact hop _ ⟨hs.mirrors, fun _ e => (by cases e), hs.trace⟩

/-- An instruction keeps everything counted, in every table. -/
theorem execWith_keeps_emitted {i : Instr} {t : State} (hs : s.Counted p ∧ s.AtomCounted p)
    (h : execWith p i s = .next t) : t.Counted p ∧ t.AtomCounted p := by
  have hdata : ∀ {word : Option CommandWord}, sendDataCommand word s p = .next t → t.Counted p ∧ t.AtomCounted p :=
    fun e => by obtain ⟨_, -, -, rfl⟩ := sendDataCommand_next.mp e; exact State.Counted.sendWord hs
  have hcontrol : ∀ {w : CommandWord}, sendCommand w s p = .next t → t.Counted p ∧ t.AtomCounted p :=
    fun e => by obtain ⟨-, rfl⟩ := sendCommand_next.mp e; exact State.Counted.sendWord hs
  cases i with
  | setFrequency sel val =>
    refine acceptRequest_counted hs.1 h fun s hs => ?_
    unfold setFrequencyOp
    split
    · exact hs.raise _
    · exact hs.transmit (by simp [atomWords_splitFrequency]) fun w => p.emits_frequency _ val
  | setPhase sel val =>
    refine acceptRequest_counted hs.1 h fun s hs => ?_
    unfold setPhaseOp
    split
    · exact hs.raise _
    · rename_i b _
      split
      · exact hs.raise _
      · rename_i writes hw
        have hlen : writes.length ≤ 4 := by
          unfold splitPhase at hw; split at hw <;> cases hw; simp
        exact hs.transmit (by rw [atomWords_length]; exact hlen) fun w => Params.emits_phase hw
  | setOutputEnabled sel _ =>
    refine acceptRequest_counted hs.1 h fun s hs => ?_
    unfold setOutputEnabledOp
    split
    · exact hs.raise _
    · exact hs.controlTransfer (.outputEnabled _ (hs.mirrors .outputControl))
  | selectActiveFrequencyBank sel _ =>
    refine acceptRequest_counted hs.1 h fun s hs => ?_
    unfold selectActiveFrequencyBankOp
    split
    · exact hs.raise _
    · exact hs.controlTransfer (.frequencyBank _ (hs.mirrors .bankSelect))
  | selectActivePhaseBank sel _ =>
    refine acceptRequest_counted hs.1 h fun s hs => ?_
    unfold selectActivePhaseBankOp
    split
    · exact hs.raise _
    · exact hs.controlTransfer (.phaseBank _ (hs.mirrors .bankSelect) (by assumption))
  | selectSyncSource sel _ =>
    refine acceptRequest_counted hs.1 h fun s hs => ?_
    unfold selectSyncSourceOp
    split
    · exact hs.raise _
    · exact hs.controlTransfer (.syncSource _ (hs.mirrors .syncSource))
  | phase16 addr data => exact hdata h
  | phase8 addr data => exact hdata h
  | frequency16 addr data => exact hdata h
  | frequency8 addr data => exact hdata h
  | bankSelect freq phase => exact hcontrol h
  | syncSourceSelect selsrc => exact hcontrol h
  | enableControl sleep reset clear => exact hcontrol h

/-- The state after reset is counted, in every table. -/
theorem resetWith_counted (p : Params) (payload : TransportErrorPayload) :
    (State.resetWith p payload).Counted p ∧ (State.resetWith p payload).AtomCounted p :=
  ⟨⟨fun which => by cases which <;> exact Params.MirrorValue.reset _, fun _ h => by simp at h,
    fun _ h => by simp at h⟩, fun h => by simp at h⟩

/-- What a fetch hands on is counted. -/
def Fetched.Counted (f : Fetched) (p : Params) : Prop :=
  match f with
  | .run _ s => s.Counted p ∧ s.AtomCounted p
  | .done s => s.Counted p ∧ s.AtomCounted p
  | .fault _ => True
  | .refuse _ => True

/-- Every word a step puts on the wire is one that `Params.Emits` counts, in every table: from reset on, and so in every
run (R7 item 5). -/
theorem stepWith_keeps_emitted {t : State} (hs : s.Counted p ∧ s.AtomCounted p) (h : stepWith p s = .next t) :
    t.Counted p ∧ t.AtomCounted p := by
  have hinput : ∀ rest, State.Counted { s with inputs := rest } p ∧ State.AtomCounted { s with inputs := rest } p :=
    fun _ => ⟨⟨hs.1.mirrors, hs.1.pending, hs.1.trace⟩, hs.2⟩
  have hfetch : (fetch s p).Counted p := by
    unfold fetch
    split
    · unfold fetchWord
      split
      · trivial
      · split
        · exact hs
        · trivial
    · split
      · refine State.Counted.transmit (s := { s with lifecycle := .ready, seqBusy := true, pendingCommit := none })
          ⟨hs.1.mirrors, fun _ e => (by cases e), hs.1.trace⟩ (by simp) fun w hw => ?_
        obtain rfl := List.mem_singleton.mp hw
        exact ⟨_, Params.emits_control (hs.1.mirrors .outputControl)⟩
      · unfold fetchEvent
        split
        · exact hs
        · split
          · exact hinput _
          · exact (hinput _).1.raise _
        · exact ⟨⟨hs.1.mirrors, hs.1.pending, hs.1.trace⟩, hs.2⟩
        · trivial
      · unfold fetchDetached
        split
        · exact hs
        · obtain ⟨hr, ha⟩ := resetWith_counted p s.resPayload
          exact ⟨⟨hr.mirrors, hr.pending, hr.trace⟩, ha⟩
        · trivial
        · trivial
  unfold stepWith at h
  split at h
  · rename_i e; rw [e] at hfetch; exact execWith_keeps_emitted hfetch h
  · rename_i e; rw [e] at hfetch; cases h; exact hfetch
  · cases h
  · cases h

end Machine
end Sys2Proof
end

