-- ==== Sys2Proof/Laws/Memory.lean ====
section
/-! SUPPORT. The laws of the chip's register slots: what a read sees after each operation, and that each operation keeps
the canonical form. -/

namespace Sys2Proof.Machine

@[simp] theorem Memory.read_nil (a : Nat) : Memory.read [] a = none := rfl

/-- A read after a write: the byte written, and every other slot as before. -/
theorem Memory.read_write (m : Memory) (a b : Nat) (v : Byte) :
    Memory.read (Memory.write m a v) b = if b = a then some v else Memory.read m b := by
  induction m with
  | nil => simp only [Memory.write, Memory.read]; simp only [eq_comm]
  | cons c rest ih =>
    unfold Memory.write
    split
    · simp only [Memory.read, eq_comm (a := a)]
    · split
      · rename_i heq
        by_cases h : b = a
        · simp [Memory.read, ← heq, h]
        · have : ¬ c.1 = b := fun hc => h (hc.symm.trans heq.symm)
          simp [Memory.read, this, h]
      · rename_i hne
        by_cases hc : c.1 = b
        · have : b ≠ a := fun hb => hne (by rw [hc, hb])
          simp [Memory.read, hc, this]
        · simp [Memory.read, hc, ih]

/-- A read after a slot has become unknown: nothing there, and every other slot as before. -/
theorem Memory.read_forget (m : Memory) (a b : Nat) :
    Memory.read (Memory.forget m a) b = if b = a then none else Memory.read m b := by
  induction m with
  | nil => simp [Memory.forget]
  | cons c rest ih =>
    unfold Memory.forget at ih ⊢
    by_cases hca : c.1 = a
    · by_cases h : b = a
      · simp_all
      · have : ¬ c.1 = b := fun hc => h (hc.symm.trans hca)
        simp_all [Memory.read]
    · by_cases h : b = a
      · subst h; simp_all [Memory.read]
      · simp_all [Memory.read]

theorem Memory.wf_cons (c : Host.Cell) (rest : Memory) (p : Params) :
    Memory.wf (c :: rest) p = true ↔ c.1 < 2 ^ p.addrWidth ∧ (∀ d ∈ rest, c.1 < d.1) ∧ Memory.wf rest p = true := by
  simp [Memory.wf, and_assoc]

/-- The entries after a write: the written one and old ones. -/
theorem Memory.mem_write (m : Memory) (a : Nat) (v : Byte) (d : Host.Cell)
    (h : d ∈ Memory.write m a v) : d.1 = a ∨ d ∈ m := by
  induction m with
  | nil => simp [Memory.write] at h; simp [h]
  | cons c rest ih =>
    unfold Memory.write at h
    split at h
    · simp at h; rcases h with h | h | h <;> simp [h]
    · split at h
      · rename_i heq
        simp at h; rcases h with h | h <;> simp [h, heq]
      · simp at h; rcases h with h | h
        · simp [h]
        · rcases ih h with h' | h' <;> simp [h']

/-- A write to a slot of the register space keeps the canonical form. -/
theorem Memory.wf_write (m : Memory) (a : Nat) (v : Byte) (p : Params) (ha : a < 2 ^ p.addrWidth)
    (h : Memory.wf m p = true) : Memory.wf (Memory.write m a v) p = true := by
  induction m with
  | nil => simp [Memory.write, Memory.wf, ha]
  | cons c rest ih =>
    obtain ⟨hc, hall, hrest⟩ := (Memory.wf_cons c rest p).mp h
    unfold Memory.write
    split
    · rename_i hlt
      refine (Memory.wf_cons _ _ p).mpr ⟨ha, ?_, h⟩
      intro d hd
      rcases List.mem_cons.mp hd with rfl | hd
      · exact hlt
      · exact lt_trans hlt (hall d hd)
    · split
      · exact (Memory.wf_cons _ _ p).mpr ⟨hc, hall, hrest⟩
      · rename_i hge hne
        refine (Memory.wf_cons _ _ p).mpr ⟨hc, ?_, ih hrest⟩
        intro d hd
        rcases Memory.mem_write rest a v d hd with hd | hd
        · omega
        · exact hall d hd

/-- Forgetting keeps the canonical form. -/
theorem Memory.wf_forget (m : Memory) (a : Nat) (p : Params) (h : Memory.wf m p = true) :
    Memory.wf (Memory.forget m a) p = true := by
  induction m with
  | nil => rfl
  | cons c rest ih =>
    obtain ⟨hc, hall, hrest⟩ := (Memory.wf_cons c rest p).mp h
    have ih := ih hrest
    unfold Memory.forget at ih ⊢
    rw [List.filter_cons]
    split
    · exact (Memory.wf_cons _ _ p).mpr ⟨hc, fun d hd => hall d (List.mem_of_mem_filter hd), ih⟩
    · exact ih

/-- A word taken by the chip keeps the canonical form of its slots. -/
theorem ChipShadow.wf_take (p : Params) (c : ChipShadow) (w : CommandWord) (h : Memory.wf c.slots p = true) :
    Memory.wf (c.take w p).slots p = true := by
  unfold ChipShadow.take
  split
  · rename_i ht; exact Memory.wf_write _ _ _ _ (chipTarget_slot_lt ht) h
  · rename_i r v _; cases r <;> exact h
  · exact h

/-- A word lost keeps the canonical form of the chip's slots. -/
theorem ChipShadow.wf_lose (p : Params) (c : ChipShadow) (w : CommandWord) (h : Memory.wf c.slots p = true) :
    Memory.wf (c.lose w p).slots p = true := by
  unfold ChipShadow.lose
  split
  · exact Memory.wf_forget _ _ _ h
  · rename_i r v _; cases r <;> exact h
  · exact h

@[simp] theorem ChipShadow.takeAtom_nil (p : Params) (c : ChipShadow) : c.takeAtom [] p = c := rfl
@[simp] theorem ChipShadow.takeAtom_cons (p : Params) (c : ChipShadow) (w : CommandWord) (rest : List CommandWord) :
    c.takeAtom (w :: rest) p = (c.take w p).takeAtom rest p := rfl
@[simp] theorem ChipShadow.loseAtom_nil (p : Params) (c : ChipShadow) : c.loseAtom [] p = c := rfl
@[simp] theorem ChipShadow.loseAtom_cons (p : Params) (c : ChipShadow) (w : CommandWord) (rest : List CommandWord) :
    c.loseAtom (w :: rest) p = (c.lose w p).loseAtom rest p := rfl

/-- An atom taken keeps the canonical form. -/
theorem ChipShadow.wf_takeAtom (p : Params) (words : List CommandWord) (c : ChipShadow)
    (h : Memory.wf c.slots p = true) : Memory.wf (c.takeAtom words p).slots p = true := by
  induction words generalizing c with
  | nil => exact h
  | cons w rest ih => exact ih _ (ChipShadow.wf_take p c w h)

/-- An atom lost keeps the canonical form. -/
theorem ChipShadow.wf_loseAtom (p : Params) (words : List CommandWord) (c : ChipShadow)
    (h : Memory.wf c.slots p = true) : Memory.wf (c.loseAtom words p).slots p = true := by
  induction words generalizing c with
  | nil => exact h
  | cons w rest ih => exact ih _ (ChipShadow.wf_lose p c w h)

/-- The memory of the reset state has the canonical form. -/
theorem State.reset_slots_wf : Memory.wf State.reset.chip.slots = true := rfl

end Sys2Proof.Machine
end

