-- ==== Sys2Proof/Laws/PerInstr.lean ====
section
/-! SUPPORT. The family of facts stated instruction by instruction: the word of an instruction is one of its row of
spec/opcode_table.json. -/

namespace Sys2Proof.Laws.TableRow

/-- The `match` and `mask` of a row. -/
structure Row (n : Nat) where
  matchBits : BitVec n
  maskBits : BitVec n

/-- A word is one of a row's when its bits under the mask are the match. -/
def Row.admits {n : Nat} (r : Row n) (w : BitVec n) : Prop := w &&& r.maskBits = r.matchBits

/-- A request word of the given row: 40 bits. -/
def RequestRow (r : Row 40) : PortWord → Prop
  | .request w => w < 2 ^ 40 ∧ r.admits (BitVec.ofNat 40 w)
  | .command _ => False

/-- A command word of the given row. -/
def CommandRow (r : Row 16) : PortWord → Prop
  | .request _ => False
  | .command w => r.admits w

/-- The row of each instruction, copied from the `match` and `mask` columns of spec/opcode_table.json. -/
def inRow : Instr → PortWord → Prop
  | .setFrequency _ _ => RequestRow ⟨0x1000000000, 0xF000000000⟩
  | .setPhase _ _ => RequestRow ⟨0x2000000000, 0xF000000000⟩
  | .setOutputEnabled _ _ => RequestRow ⟨0x3000000000, 0xF000000000⟩
  | .selectActiveFrequencyBank _ _ => RequestRow ⟨0x4000000000, 0xF000000000⟩
  | .selectActivePhaseBank _ _ => RequestRow ⟨0x5000000000, 0xF000000000⟩
  | .selectSyncSource _ _ => RequestRow ⟨0x6000000000, 0xF000000000⟩
  | .phase16 _ _ => CommandRow ⟨0x0000, 0xF000⟩
  | .phase8 _ _ => CommandRow ⟨0x1000, 0xF0F0⟩
  | .frequency16 _ _ => CommandRow ⟨0x2000, 0xF000⟩
  | .frequency8 _ _ => CommandRow ⟨0x3000, 0xF000⟩
  | .bankSelect _ _ => CommandRow ⟨0x6000, 0xF1FF⟩
  | .syncSourceSelect _ => CommandRow ⟨0x8000, 0xEFFF⟩
  | .enableControl _ _ _ => CommandRow ⟨0xC000, 0xC7FF⟩

/-- A well-formed instruction has a word, and it is one of its row. -/
def Statement (i : Instr) : Prop := i.wellFormed = true → ∃ w, encode i = some w ∧ inRow i w

/-- A request word bit by bit. -/
theorem packRequest_testBit (op : Operation) (sel : Config.params.Selector) (val : Value) (i : Nat) :
    (packRequest Config.params op sel val).testBit i
      = ((decide (36 ≤ i) && (Config.params.request.op op).val.testBit (i - 36)
          || decide (32 ≤ i) && sel.val.testBit (i - 32)) || val.getLsbD i) := by
  simp [packRequest, Nat.testBit_or, Nat.testBit_shiftLeft, ← BitVec.testBit_toNat]

/-- A request word has 40 bits. -/
theorem packRequest_lt (op : Operation) (sel : Config.params.Selector) (val : Value) :
    packRequest Config.params op sel val < 2 ^ 40 := by
  have hop : (Config.params.request.op op).val < 2 ^ 4 := (Config.params.request.op op).isLt
  have hsel : sel.val < 2 ^ 4 := sel.isLt
  have hval := val.isLt
  simp only [packRequest, params_request_opShift, params_request_selShift, params_request_valShift,
    Nat.shiftLeft_eq] at *
  refine Nat.or_lt_two_pow (Nat.or_lt_two_pow ?_ ?_) ?_ <;> omega

/-- The match of a request row is its operation's number in the field `op`. -/
theorem packRequest_masked (op : Operation) (sel : Config.params.Selector) (val : Value) :
    BitVec.ofNat 40 (packRequest Config.params op sel val) &&& 0xF000000000#40
      = BitVec.ofNat 40 (packRequest Config.params op ⟨0, by decide⟩ 0) := by
  apply BitVec.eq_of_getLsbD_eq
  intro i hi
  simp only [BitVec.getLsbD_and, BitVec.getLsbD_ofNat, hi, decide_true, Bool.true_and, packRequest_testBit]
  by_cases hlow : i < 36
  · have : Nat.testBit 0xF000000000 i = false := by interval_cases i <;> rfl
    simp [this, show ¬ 36 ≤ i by omega]
  · have hmask : Nat.testBit 0xF000000000 i = true := by interval_cases i <;> rfl
    have hsel : sel.val.testBit (i - 32) = false := Nat.testBit_lt_two_pow
      (lt_of_lt_of_le sel.isLt (Nat.pow_le_pow_right (n := 2) (i := 4) (by decide) (by omega)))
    simp [hmask, hsel, show 36 ≤ i by omega, BitVec.getLsbD_of_ge val i (by omega)]

theorem request_inRow {op : Operation} {sel : Nat} {val : Value} {m : BitVec 40}
    (hm : BitVec.ofNat 40 (packRequest Config.params op ⟨0, by decide⟩ 0) = m)
    (h : (Config.params.selector? sel).isSome = true) :
    ∃ w, requestWord Config.params op sel val = some w ∧ RequestRow ⟨m, 0xF000000000⟩ w := by
  obtain ⟨s, hs⟩ := Option.isSome_iff_exists.mp h
  exact ⟨.request _, by rw [requestWord, hs]; rfl, packRequest_lt op s val, (packRequest_masked op s val).trans hm⟩

theorem encodeWord_masked (c : CommandCode) (a : Config.params.Address) (b : Byte) :
    encodeWord Config.params c a b &&& 0xF000#16 = encodeWord Config.params c ⟨0, by decide⟩ 0 := by
  apply BitVec.eq_of_getLsbD_eq
  intro i hi
  rw [BitVec.getLsbD_and, encodeWord_getLsbD _ _ _ _ hi, encodeWord_getLsbD _ _ _ _ hi]
  interval_cases i <;> simp

theorem encodeWord_nibble_masked (c : CommandCode) (a : Config.params.Address) (b : Byte)
    (h : b.toNat < 16) :
    encodeWord Config.params c a b &&& 0xF0F0#16 = encodeWord Config.params c ⟨0, by decide⟩ 0 := by
  apply BitVec.eq_of_getLsbD_eq
  intro i hi
  have hz : ∀ j, j < 4 → b.getLsbD (4 + j) = false := fun j hj => by
    rw [← BitVec.testBit_toNat]
    exact Nat.testBit_lt_two_pow (lt_of_lt_of_le h (Nat.pow_le_pow_right (n := 2) (i := 4) (by decide) (by omega)))
  have h4 := hz 0 (by omega)
  have h5 := hz 1 (by omega)
  have h6 := hz 2 (by omega)
  have h7 := hz 3 (by omega)
  rw [BitVec.getLsbD_and, encodeWord_getLsbD _ _ _ _ hi, encodeWord_getLsbD _ _ _ _ hi]
  interval_cases i <;> simp_all

theorem data_inRow {c : CommandCode} {addr : Nat} {data : Byte} {m : CommandWord}
    (hm : encodeWord Config.params c ⟨0, by decide⟩ 0 = m) (h : (Config.params.address? addr).isSome = true) :
    ∃ w, (dataWord Config.params c addr data).map .command = some w ∧ CommandRow ⟨m, 0xF000⟩ w := by
  obtain ⟨a, ha⟩ := Option.isSome_iff_exists.mp h
  exact ⟨.command _, by rw [dataWord, ha]; rfl, (encodeWord_masked c a data).trans hm⟩

theorem setFrequency (sel : Nat) (val : Value) : Statement (.setFrequency sel val) :=
  fun h => request_inRow (by decide) h
theorem setPhase (sel : Nat) (val : Value) : Statement (.setPhase sel val) :=
  fun h => request_inRow (by decide) h
theorem setOutputEnabled (sel : Nat) (val : Value) : Statement (.setOutputEnabled sel val) :=
  fun h => request_inRow (by decide) h
theorem selectActiveFrequencyBank (sel : Nat) (val : Value) :
    Statement (.selectActiveFrequencyBank sel val) := fun h => request_inRow (by decide) h
theorem selectActivePhaseBank (sel : Nat) (val : Value) :
    Statement (.selectActivePhaseBank sel val) := fun h => request_inRow (by decide) h
theorem selectSyncSource (sel : Nat) (val : Value) : Statement (.selectSyncSource sel val) :=
  fun h => request_inRow (by decide) h
theorem phase16 (addr : Nat) (data : Byte) : Statement (.phase16 addr data) :=
  fun h => data_inRow (by decide) h
theorem frequency16 (addr : Nat) (data : Byte) : Statement (.frequency16 addr data) :=
  fun h => data_inRow (by decide) h
theorem frequency8 (addr : Nat) (data : Byte) : Statement (.frequency8 addr data) :=
  fun h => data_inRow (by decide) h
theorem phase8 (addr : Nat) (data : Byte) : Statement (.phase8 addr data) := fun h => by
  obtain ⟨h, hd⟩ := (Bool.and_eq_true _ _).mp h
  obtain ⟨a, ha⟩ := Option.isSome_iff_exists.mp h
  refine ⟨.command (encodeWord Config.params .phase8 a data), ?_, ?_⟩
  · simp [encode, phase8Word, hd, dataWord, ha]
  · exact (encodeWord_nibble_masked .phase8 a data (of_decide_eq_true hd)).trans (by decide)
theorem bankSelect (freq : Bool) (phase : BitVec 2) : Statement (.bankSelect freq phase) := fun _ => by
  refine ⟨_, rfl, (?_ : encodeControlWord _ _ &&& _ = _)⟩
  revert freq phase
  decide
theorem syncSourceSelect (selsrc : Bool) : Statement (.syncSourceSelect selsrc) := fun _ => by
  refine ⟨_, rfl, (?_ : encodeControlWord _ _ &&& _ = _)⟩
  cases selsrc <;> decide
theorem enableControl (sleep reset clear : Bool) : Statement (.enableControl sleep reset clear) := fun _ => by
  refine ⟨_, rfl, (?_ : encodeControlWord _ _ &&& _ = _)⟩
  cases sleep <;> cases reset <;> cases clear <;> decide

end Sys2Proof.Laws.TableRow
end

