-- ==== Sys2Proof/Tests/Slice0.lean ====
section
/-! SUPPORT. Tests. Expected values come from spec/95_test_vectors.md and from the encodings of spec/30_encoding.md, written
out bit by bit; none is the model's own answer. After them, for every statement with hypotheses, a concrete state and
operands that meet them (`witness_…`). -/

namespace Sys2Proof.Tests
open Sys2Proof Sys2Proof.Machine

/-! ## Helpers -/

/-- The payload the tests' transport fails with. -/
def payload : TransportErrorPayload := ⟨7⟩

/-- The block after its attach transfer, with the given answers of the transport to come. -/
def ready (answers : List Ack) : State := { State.reset with lifecycle := .ready, answers := answers }

/-- The same with the chip enabled, `bankSelect` = 0x0800 and one slot of the chip known. -/
def running (answers : List Ack) : State :=
  { ready answers with outputControl := 0x0000, bankSelect := 0x0800, chip := { State.reset.chip with slots := [(0x8, 0x55)] } }

/-- The block in the middle of the atom of `setFrequency 0, 0xDEADBEEF` (spec/95 section 2.6), at word `idx`. -/
def sending (idx : BitVec 3) (waiting : Bool) (answers : List Ack) : State :=
  { ready answers with
    seqBusy := true, seqBuf := ⟨0x33DE, 0x22AD, 0x31BE, 0x20EF⟩, seqLen := 4, seqIdx := idx, awaiting := waiting }

/-- A block sending the one given word. -/
def sendingOne (w : CommandWord) (answers : List Ack) : State := (ready answers).loadAtom [w]

/-- What a test looks at after a step: the words added to the wire with their hold flags, the kind of the result and the
three mirrors. -/
structure Seen where
  trace : List (CommandWord × Bool)
  kind : ResKind
  mirrors : CommandWord × CommandWord × CommandWord
  deriving DecidableEq, Repr

/-- The view of an outcome; nothing where the machine stops. -/
def seen : Host.Outcome State Fault Refusal → Option Seen
  | .next t => some ⟨t.trace.map fun e => (e.word, e.hold), t.resKind, (t.outputControl, t.bankSelect, t.syncSource)⟩
  | .fault _ => none
  | .refused _ => none

/-- The next state of an outcome. -/
def after : Host.Outcome State Fault Refusal → Option State
  | .next t => some t
  | .fault _ => none
  | .refused _ => none

/-- A table with the other widths that R7 leaves: `ADDR_WIDTH` 5 and `CMD_WIDTH` 3, codes 0 to 6, bases up to 0x1F, and
with a request word of 48 bits (`op` bits 3:0, `sel` bits 7:4, `val` bits 47:16) and results of 3 bits. -/
def wide : Params where
  dataShift := 0
  addrShift := 8
  addrWidth := 5
  cmdShift := 13
  cmdWidth := 3
  widths := rfl
  fieldsFit := by decide
  fieldsApart := by decide
  code
    | .phase16 => 0
    | .phase8 => 1
    | .frequency16 => 2
    | .frequency8 => 3
    | .bankSelect => 4
    | .syncSourceSelect => 5
    | .enableControl => 6
  freqBase
    | 0 => ⟨0x1B, by decide⟩
    | 1 => ⟨0x1F, by decide⟩
  phaseBase
    | 0 => ⟨0x11, by decide⟩
    | 1 => ⟨0x13, by decide⟩
    | 2 => ⟨0x15, by decide⟩
    | 3 => ⟨0x17, by decide⟩
  ocSleep := 0x1000
  ocReset := 0x0800
  ocClear := 0x0400
  bsFreq := 0x0800
  bsPhaseShift := 9
  ssSelsrc := 0x1000
  mirrorCommit := .before
  bankselReset := 0
  syncsrcReset := 0
  attachEmits := true
  request := {
    width := 48, opShift := 0, opWidth := 4, selShift := 4, selWidth := 4, valShift := 16
    op := Config.defaultRequest.op
    fieldsFit := by decide
    fieldsApart := by decide }
  result := {
    width := 3
    code := fun
      | .ok => 7
      | .invalidInputError => 6
      | .outOfRangeError => 5
      | .transportError => 4 }

/-! ## Well-formedness: each check, and what it refuses (R30, R55, R63, conflict C11) -/

theorem test_selector_of_five_bits_is_ill_formed : (Instr.setPhase 16 0).wellFormed = false := by decide
theorem test_address_of_five_bits_is_ill_formed : (Instr.frequency8 0x10 0).wellFormed = false := by decide
theorem test_address_of_five_bits_is_well_formed_in_the_wide_table : (Instr.frequency8 0x1F 0).wellFormed wide = true := by
  decide
theorem test_request_word_of_41_bits_is_ill_formed : (PortWord.request (2 ^ 40)).wellFormed = false := by decide

-- U3: an operand that does not fit has no word; nothing is cut off, and none runs into another field
theorem test_operands_outside_the_contract_have_no_word :
    encode (.frequency8 0x10 0x96) = none ∧ encode (.phase16 0x100 0) = none ∧ encode (.phase8 0xF 0x10) = none
      ∧ encode (.setPhase 16 0) = none ∧ encode (.frequency8 0x20 0x96) wide = none := by decide
theorem test_phase8_with_high_nibble_is_ill_formed : (Instr.phase8 0xF 0x10).wellFormed = false := by decide
theorem test_phase8_without_high_nibble_is_well_formed : (Instr.phase8 0xF 0x0F).wellFormed = true := by decide

/-! ## Decoding: every row, from a word written out bit by bit -/

-- op 0001, sel 0000, val 0x00989680 (R63, R64; spec/95 P1 line 1)
theorem test_decode_setFrequency :
    decode (.request 0b0001_0000_00000000100110001001011010000000) = .ok (.setFrequency 0 10000000) := by decide
-- op 0010, sel 0010, val 0x00000FFF (P2 line 5)
theorem test_decode_setPhase :
    decode (.request 0b0010_0010_00000000000000000000111111111111) = .ok (.setPhase 2 4095) := by decide
-- op 0011, sel 0001, val all ones (section 2.7, last row)
theorem test_decode_setOutputEnabled :
    decode (.request 0b0011_0001_11111111111111111111111111111111) = .ok (.setOutputEnabled 1 0xFFFFFFFF) := by decide
-- op 0100, sel 0001 (P2 line 1)
theorem test_decode_selectActiveFrequencyBank :
    decode (.request 0b0100_0001_00000000000000000000000000000000) = .ok (.selectActiveFrequencyBank 1 0) := by decide
-- op 0101, sel 0010 (P2 line 2)
theorem test_decode_selectActivePhaseBank :
    decode (.request 0b0101_0010_00000000000000000000000000000000) = .ok (.selectActivePhaseBank 2 0) := by decide
-- op 0110, sel 1111 (section 2.7): decoded, and answered with an error
theorem test_decode_selectSyncSource :
    decode (.request 0b0110_1111_00000000000000000000000000000000) = .ok (.selectSyncSource 15 0) := by decide
-- op 0000, 0111, 1111 (section 2.7)
theorem test_decode_reserved_ops :
    decode (.request 0x00_0000_0000) = .error .reservedOp ∧ decode (.request 0x71_0000_0005) = .error .reservedOp
      ∧ decode (.request 0xFF_FFFF_FFFF) = .error .reservedOp := by decide
-- 0000 aaaa dddddddd (R56)
theorem test_decode_phase16 : decode (.command 0b0000_1110_10111100) = .ok (.phase16 0xE 0xBC) := by decide
-- 0001 aaaa 0000dddd (R55)
theorem test_decode_phase8 : decode (.command 0b0001_1111_00001010) = .ok (.phase8 0xF 0x0A) := by decide
-- 0010 aaaa dddddddd (R54)
theorem test_decode_frequency16 : decode (.command 0b0010_0000_10000000) = .ok (.frequency16 0x0 0x80) := by decide
-- 0011 aaaa dddddddd (R53)
theorem test_decode_frequency8 : decode (.command 0b0011_0001_10010110) = .ok (.frequency8 0x1 0x96) := by decide
-- 0110 f pp 000000000 (R58)
theorem test_decode_bankSelect : decode (.command 0b0110_1_01_000000000) = .ok (.bankSelect true 1) := by decide
-- 100 x 000000000000 (R59)
theorem test_decode_syncSourceSelect : decode (.command 0b100_1_000000000000) = .ok (.syncSourceSelect true) := by decide
-- 11 s r c 00000000000 (R57)
theorem test_decode_enableControl :
    decode (.command 0b11_0_1_0_00000000000) = .ok (.enableControl false true false) := by decide
-- R62: prefixes 0x4, 0x5, 0x7, bit 13 of the sync class, low bits of the control classes, a PHASE_8 high nibble
theorem test_decode_never_emitted :
    ([0x4000, 0x5123, 0x7FFF, 0xA000, 0x8001, 0xC001, 0x6001, 0x1F1A] : List CommandWord).all
      (fun w => decode (.command w) = .error .neverEmitted) = true := by decide
-- the wide table: 011 11111 10010110, its other words, and its requests
theorem test_wide_table_words :
    encodeWord wide .frequency8 ⟨0x1F, by decide⟩ 0x96 = 0b011_11111_10010110
      ∧ decode (.command 0b011_11111_10010110) wide = .ok (.frequency8 0x1F 0x96)
      ∧ decode (.command 0b110_01_000_00000000) wide = .ok (.enableControl false true false)
      ∧ decode (.request 0x0000_0FFF_0022) wide = .ok (.setPhase 2 4095)
      ∧ encode (.setPhase 2 4095) wide = some (.request 0x0000_0FFF_0022) ∧ ResKind.outOfRangeError.code wide = 5 := by decide
theorem test_decodeTableWord :
    decodeTableWord 40 0x6100000000 = some (.selectSyncSource 1 0)
      ∧ decodeTableWord 16 0x2298 = some (.frequency16 0x2 0x98) ∧ decodeTableWord 24 0x2298 = none := by decide

/-! ## The requests, one step each -/

-- S6
theorem test_setFrequency :
    seen (exec (.setFrequency 0 10000000) (ready [.ok, .ok, .ok, .ok]))
      = some ⟨[(0x3300, true), (0x2298, true), (0x3196, true), (0x2080, false)], .ok, (0x3800, 0, 0)⟩ := by decide
-- S5: the third of four words fails
theorem test_setFrequency_fails_at_third_word :
    seen (exec (.setFrequency 1 0x12345678) (ready [.ok, .ok, .err payload]))
      = some ⟨[(0x3712, true), (0x2634, true), (0x3556, true)], .transportError, (0x3800, 0, 0)⟩ := by decide
-- section 2.3
theorem test_setPhase :
    seen (exec (.setPhase 3 0xABC) (ready [.ok, .ok]))
      = some ⟨[(0x1F0A, true), (0x0EBC, false)], .ok, (0x3800, 0, 0)⟩ := by decide
-- section 2.7: 4096 is refused and nothing is presented
theorem test_setPhase_4096 :
    seen (exec (.setPhase 2 4096) (ready [.ok, .ok])) = some ⟨[], .outOfRangeError, (0x3800, 0, 0)⟩ := by decide
-- S9: disable sets the reset bit only
theorem test_setOutputEnabled_false :
    seen (exec (.setOutputEnabled 0 0) (running [.ok])) = some ⟨[(0xD000, false)], .ok, (0x1000, 0x0800, 0)⟩ := by decide
-- section 2.7: sel = 2 is a malformed boolean
theorem test_setOutputEnabled_malformed :
    seen (exec (.setOutputEnabled 2 0) (running [.ok])) = some ⟨[], .invalidInputError, (0, 0x0800, 0)⟩ := by decide
-- P4 line 1, MIRROR_COMMIT = BEFORE and AFTER
theorem test_selectActiveFrequencyBank_fails_before :
    seen (exec (.selectActiveFrequencyBank 1 0) (ready [.err payload]))
      = some ⟨[(0x6800, false)], .transportError, (0x3800, 0x0800, 0)⟩ := by decide
theorem test_selectActiveFrequencyBank_fails_after :
    seen (acceptRequest (selectActiveFrequencyBankOp { Config.params with mirrorCommit := .after } 1) (ready [.err payload]))
      = some ⟨[(0x6800, false)], .transportError, (0x3800, 0x0000, 0)⟩ := by decide
-- P2 line 2: the frequency bit is carried
theorem test_selectActivePhaseBank :
    seen (exec (.selectActivePhaseBank 2 0) (running [.ok])) = some ⟨[(0x6C00, false)], .ok, (0, 0x0C00, 0)⟩ := by decide
-- S3
theorem test_selectActivePhaseBank_4 :
    seen (exec (.selectActivePhaseBank 4 0) (running [.ok])) = some ⟨[], .outOfRangeError, (0, 0x0800, 0)⟩ := by decide
-- example of R146: inverted polarity
theorem test_selectSyncSource_false :
    seen (exec (.selectSyncSource 0 0) (ready [.ok])) = some ⟨[(0x9000, false)], .ok, (0x3800, 0, 0x1000)⟩ := by decide
theorem test_selectSyncSource_true :
    seen (exec (.selectSyncSource 1 0) (ready [.ok])) = some ⟨[(0x8000, false)], .ok, (0x3800, 0, 0x0000)⟩ := by decide

/-! ## The command words, one visit of the sequencer each (section 2.6) -/

theorem test_frequency8_goes_on :
    (after (exec (.frequency8 0x3 0xDE) (sending 0 false [.ok]))).map (fun t => (t.seqIdx, t.trace, t.seqBusy))
      = some (1, [⟨0x33DE, true⟩], true) := by decide
theorem test_frequency16_last_word_fails :
    (after (exec (.frequency16 0x0 0xEF) (sending 3 false [.err payload]))).map
        (fun t => (t.seqIdx, t.trace, t.seqBusy, t.resKind, t.resPayload))
      = some (3, [⟨0x20EF, false⟩], false, .transportError, payload) := by decide
theorem test_phase8_waits_for_the_transport :
    (after (exec (.phase8 0xF 0x0A) ((ready []).loadAtom [0x1F0A, 0x0EBC]))).map
        (fun t => (t.awaiting, t.trace, t.seqBusy)) = some (true, [⟨0x1F0A, true⟩], true) := by decide
theorem test_phase16_not_in_flight :
    after (exec (.phase16 0xE 0xBC) ((ready [.ok]).loadAtom [0x1F0A, 0x0EBC])) = none := by decide
theorem test_bankSelect_word :
    seen (exec (.bankSelect true 2) (sendingOne 0x6C00 [.ok])) = some ⟨[(0x6C00, false)], .ok, (0x3800, 0, 0)⟩ := by decide
theorem test_syncSourceSelect_word :
    seen (exec (.syncSourceSelect true) (sendingOne 0x9000 [.ok])) = some ⟨[(0x9000, false)], .ok, (0x3800, 0, 0)⟩ := by
  decide
theorem test_enableControl_word :
    (after (exec (.enableControl false true false) (sendingOne 0xD000 [.ok]))).map (·.chip.outputControl)
      = some (some 0x1000) := by decide

-- U3, R55: refused in every state; 0x1000 in flight is PHASE_8 at address 0
theorem test_operands_outside_the_contract_are_refused :
    exec (.phase16 0x10 0) (sendingOne 0x1000 [.ok]) = .refused .operandOutsideContract
      ∧ exec (.phase8 0xF 0x10) (sendingOne 0x1F10 [.ok]) = .refused .operandOutsideContract :=
  ⟨rfl, rfl⟩

/-! ## Reset, attach, and the placing of a word -/

-- section 2.9, first two rows and the third
theorem test_attach : seen (step { State.reset with answers := [.ok] }) = some ⟨[(0xF800, false)], .ok, (0x3800, 0, 0)⟩ := by
  decide
theorem test_attach_fails :
    seen (step { State.reset with answers := [.err payload] }) = some ⟨[(0xF800, false)], .transportError, (0x3800, 0, 0)⟩ := by
  decide
theorem test_reset_without_attach_transfer :
    (State.resetWith { Config.params with attachEmits := false } payload).lifecycle = .ready := by decide
/-- The machine over another table, with other bases for the banks: R6 lets a model be instantiated otherwise. -/
theorem test_other_table :
    seen (execWith { Config.params with phaseBase := fun _ => ⟨0x2, by decide⟩ } (.setPhase 3 0xABC) (ready [.ok, .ok]))
      = some ⟨[(0x120A, true), (0x01BC, false)], .ok, (0x3800, 0, 0)⟩ := by decide
/-- A step over the wide table, from its own layout of a request: `setFrequency 1, 0x12345678` from base 0x1F. -/
theorem test_wide_table :
    seen (stepWith wide { ready [.ok, .ok, .ok, .ok] with inputs := [.request 0x1234_5678_0011] })
      = some ⟨[(0x7F12, true), (0x5E34, true), (0x7D56, true), (0x5C78, false)], .ok, (0x3800, 0, 0)⟩ := by decide
/-- A table with an unowned bit in a reset value: its BANK_SELECT word carries the bit, and is sent, waits for its answer
and is acknowledged like another (R17, R86, R128). -/
theorem test_unowned_reset_bit :
    let p := { Config.params with bankselReset := 0x0001 }
    let s := { State.resetWith p payload with lifecycle := .ready, inputs := [.request 0x41_0000_0000] }
    (after (stepWith p s)).map (fun t => (t.awaiting, t.bankSelect)) = some (true, 0x0801)
      ∧ ((after (stepWith p s)).bind fun t => seen (stepWith p { t with answers := [.ok] }))
        = some ⟨[(0x6801, false)], .ok, (0x3800, 0x0801, 0)⟩ := by decide
/-- With 0xB800 there the BANK_SELECT word of bank 1 is 0xF800, the ENABLE_CONTROL word after reset: the table does not
meet R7 item 5. -/
theorem test_reset_value_against_R7 : ¬ Params.MeetsConstraints { Config.params with bankselReset := 0xB800 } := fun h =>
  absurd (h.emittedDisjoint .enableControl .bankSelect 0xF800
    (.inr (.inr ⟨.outputControl, 0x3800, .reset .outputControl, rfl, by decide⟩))
    (.inr (.inr ⟨.bankSelect, 0xB800, .reset .bankSelect, rfl, by decide⟩))) (by decide)
theorem test_reset_memory_wf : Memory.wf State.reset.chip.slots = true := by decide
theorem test_placed_request_runs :
    seen (step (State.withFetchWord State.reset 40 0x5F00000000)) = some ⟨[], .outOfRangeError, (0x3800, 0, 0)⟩ := by decide
theorem test_placed_command_runs :
    seen (step (State.withFetchWord State.reset 16 0x6E00)) = some ⟨[(0x6E00, false)], .ok, (0x3800, 0, 0)⟩ := by decide

/-! ## Witnesses: states and operands that meet the hypotheses of a statement -/

theorem witness_SplitsReconstructTheirValue :
    (∃ base : { a : Fin (2 ^ 4) // 3 ≤ a.val }, base.1.val = 0x3)
      ∧ (∃ base : { a : Fin (2 ^ 4) // 1 ≤ a.val }, base.1.val = 0x1) ∧ (4095 : Value).toNat ≤ 4095 :=
  ⟨⟨⟨0x3, by decide⟩, rfl⟩, ⟨⟨0x1, by decide⟩, rfl⟩, by decide⟩
theorem witness_SplitPhaseFailsExactlyFrom4096 : 4096 ≤ (4096 : Value).toNat ∧ (4095 : Value).toNat < 4096 := by decide
theorem witness_ControlWordCarriesItsMirror :
    (0x3800 : CommandWord) &&& ~~~0x3800#16 = 0 ∧ (0x0E00 : CommandWord) &&& ~~~0x0E00#16 = 0
      ∧ (0x1000 : CommandWord) &&& ~~~0x1000#16 = 0 := by decide
theorem witness_DecodeInvertsEncode :
    (Instr.phase8 0xF 0x0F).wellFormed = true ∧ (Instr.phase8 0xF 0x10).wellFormed = false
      ∧ (Instr.frequency16 0x10 0).wellFormed = false ∧ (Instr.setPhase 16 0).wellFormed = false := by decide
theorem witness_EncodeInvertsDecode :
    ((PortWord.command 0x1F0F).wellFormed = true ∧ decode (.command 0x1F0F) = .ok (.phase8 0xF 0x0F))
      ∧ (PortWord.request 0x6F_FFFF_FFFF).wellFormed = true
      ∧ decode (.request 0x6F_FFFF_FFFF) = .ok (.selectSyncSource 15 0xFFFFFFFF) := by decide
theorem witness_PortEncodingsRoundTripInEveryTable :
    wide.request.Consistent ∧ wide.result.Consistent ∧ isRequest (.setPhase 15 4096) = true
      ∧ (Instr.setPhase 15 4096).wellFormed wide = true ∧ ResKind.ok.code wide = ResKind.ok.code wide :=
  ⟨⟨fun a b => by cases a <;> cases b <;> decide, by decide⟩, fun a b => by cases a <;> cases b <;> decide,
    rfl, by decide, rfl⟩
theorem witness_MergePhaseBankBits : 3 < (4 : Nat) ∧ (3 : Nat) ≤ 3 := by decide
theorem witness_MergesPreserveUnownedBits : mergePhaseBank (ε := TransportErrorPayload) 0x0800 3 = .ok 0x0E00 := by decide
theorem witness_BankMergesDoNotInterfere : (3 : Nat) ≤ 3 := by decide

theorem witness_OutputControlHasTwoStates : legalMirror .outputControl 0x1000 := .inr (.inr rfl)
/-- One clause each: the whole exchange answered, and the exchange failing at its last word. -/
theorem witness_TransmitIsOneExchange :
    (ready [.ok, .ok]).answers = exchangeAnswers 2 none ++ []
      ∧ (ready [.ok, .ok, .ok, .err payload]).answers = exchangeAnswers 4 (some (3, payload)) ++ []
      ∧ (∀ k e, some (3, payload) = some (k, e) → k < 4) :=
  ⟨rfl, rfl, fun k e h => by cases h; decide⟩

/-- One clause each: four words acknowledged, the last of four failing, the first not answered. -/
theorem witness_TransmitFollowsTheAnswers :
    (ready [.ok, .ok, .ok, .ok]).pendingCommit = none
      ∧ (ready [.ok, .ok, .ok, .ok]).answers = List.replicate 4 .ok ++ []
      ∧ (ready [.ok, .ok, .ok, .err payload]).answers = List.replicate 3 .ok ++ .err payload :: []
      ∧ (ready []).answers = List.replicate 0 .ok ∧ 3 < 4 ∧ 0 < 4 := by decide
theorem witness_TransmitPresentsItsWordsInOrder :
    1 ≤ ([0xC000] : List CommandWord).length ∧ ([0x33DE, 0x22AD, 0x31BE, 0x20EF] : List CommandWord).length ≤ 4 := by decide

/-- One clause each: no answer, `ok` before the last word, `ok` to the last word, `err`. -/
theorem witness_CommandWordsRunOneVisit :
    (encode (.frequency8 0x3 0xDE) = some (.command 0x33DE) ∧ (sending 0 true []).currentWord? = some 0x33DE
      ∧ (sending 0 true []).pendingCommit = none ∧ (sending 0 true []).answers = [])
    ∧ (encode (.frequency8 0x1 0xBE) = some (.command 0x31BE) ∧ (sending 2 false [.ok]).currentWord? = some 0x31BE
      ∧ (sending 2 false [.ok]).seqIdx.toNat + 1 < (sending 2 false [.ok]).seqLen.toNat)
    ∧ (encode (.frequency16 0x0 0xEF) = some (.command 0x20EF) ∧ (sending 3 false [.ok]).currentWord? = some 0x20EF
      ∧ (sending 3 false [.ok]).seqIdx.toNat + 1 = (sending 3 false [.ok]).seqLen.toNat)
    ∧ (encode (.frequency16 0x0 0xEF) = some (.command 0x20EF) ∧ (sending 3 false [.err payload]).currentWord? = some 0x20EF
      ∧ (sending 3 false [.err payload]).answers = .err payload :: []) := by decide
/-- The other six command words in flight, each as the one word of its atom. -/
theorem witness_CommandWordsRunOneVisit_others :
    (encode (.phase16 0xE 0xBC) = some (.command 0x0EBC) ∧ (sendingOne 0x0EBC [.ok]).currentWord? = some 0x0EBC)
    ∧ (encode (.phase8 0xF 0x0A) = some (.command 0x1F0A) ∧ (sendingOne 0x1F0A [.ok]).currentWord? = some 0x1F0A)
    ∧ (encode (.bankSelect true 2) = some (.command 0x6C00) ∧ (sendingOne 0x6C00 [.ok]).currentWord? = some 0x6C00)
    ∧ (encode (.syncSourceSelect true) = some (.command 0x9000) ∧ (sendingOne 0x9000 [.ok]).currentWord? = some 0x9000)
    ∧ (encode (.enableControl false true false) = some (.command 0xD000)
      ∧ (sendingOne 0xD000 [.ok]).currentWord? = some 0xD000) := by decide
theorem witness_OtherCommandWordsAreNotPresented :
    encode (.phase16 0xE 0xBC) = some (.command 0x0EBC) ∧ (ready [.ok]).currentWord? ≠ some 0x0EBC
      ∧ (sending 0 false [.ok]).currentWord? ≠ some 0x0EBC
      ∧ isRequest (.frequency8 0x10 0) = false ∧ (Instr.frequency8 0x10 0).wellFormed = false
      ∧ isRequest (.phase8 0xF 0x10) = false ∧ (Instr.phase8 0xF 0x10).wellFormed = false := by decide
theorem witness_SeqIdxAdvancesByOne :
    (sending 2 false [.ok]).seqBusy = true
      ∧ ∃ t, step (sending 2 false [.ok]) = .next t ∧ t.seqBusy = true := ⟨by decide, _, rfl, by decide⟩

/-- The atom of `setFrequency 0, 0xDEADBEEF` in flight meets the invariant. -/
theorem sending_inv (idx : BitVec 3) (waiting : Bool) (answers : List Ack) (h : idx.toNat < 4) :
    (sending idx waiting answers).Inv where
  mirrors := by
    intro which
    cases which
    · exact .inl rfl
    · show (0x0000 : CommandWord) &&& ~~~Config.params.bsMask = 0; decide
    · show (0x0000 : CommandWord) &&& ~~~Config.params.ssMask = 0; decide
  sending := fun _ => ⟨.inl ⟨0, 0xDEADBEEF, (by decide :
    [(0x33DE : CommandWord), 0x22AD, 0x31BE, 0x20EF]
      = atomWords Config.params (splitFrequency 0xDEADBEEF (Config.params.freqBase 0)))⟩, rfl, h⟩
  idle := fun hb => Bool.noConfusion hb
  noPending := rfl
  wireLegal := fun _ he => absurd he List.not_mem_nil
  slots := rfl
theorem witness_StepwiseSendingReachesTransmit :
    (sending 0 false [.ok, .ok, .ok, .err payload]).Inv ∧ (sending 0 false [.ok, .ok, .ok, .err payload]).seqBusy = true
      ∧ (4 : Nat) - 0 ≤ [Ack.ok, .ok, .ok, .err payload].length := ⟨sending_inv _ _ _ (by decide), rfl, by decide⟩

theorem ready_ready (answers : List Ack) : (ready answers).Ready := ⟨rfl, rfl⟩
theorem running_ready (answers : List Ack) : (running answers).Ready := ⟨rfl, rfl⟩
theorem running_owned (answers : List Ack) : (running answers).OwnedBitsOnly :=
  (by decide : (0x0000 : CommandWord) &&& ~~~Config.params.ocMask = 0 ∧ (0x0800 : CommandWord) &&& ~~~Config.params.bsMask = 0
    ∧ (0x0000 : CommandWord) &&& ~~~Config.params.ssMask = 0)

theorem witness_SetFrequencyCompletes :
    (running [.ok, .ok, .ok, .ok]).Ready ∧ (1 : Nat) ≤ 1
      ∧ (running [.ok, .ok, .ok, .ok]).answers = [.ok, .ok, .ok, .ok] ++ [] := ⟨running_ready _, by decide, rfl⟩
theorem witness_SetFrequencyStopsWithTheTransport :
    (running [.ok, .ok, .ok, .err payload]).Ready ∧ (1 : Nat) ≤ 1
      ∧ (running [.ok, .ok, .ok, .err payload]).answers = List.replicate 3 .ok ++ .err payload :: []
      ∧ (running []).answers = List.replicate 0 .ok := ⟨running_ready _, by decide, rfl, rfl⟩
theorem witness_SetPhaseCompletes :
    (running [.ok, .ok]).Ready ∧ (3 : Nat) ≤ 3 ∧ (4095 : Value).toNat ≤ 4095
      ∧ (running [.ok, .ok]).answers = [.ok, .ok] ++ [] := ⟨running_ready _, by decide, by decide, rfl⟩
theorem witness_SetPhaseStopsWithTheTransport :
    (running [.ok, .err payload]).Ready ∧ (3 : Nat) ≤ 3 ∧ (4095 : Value).toNat ≤ 4095
      ∧ (running [.ok, .err payload]).answers = List.replicate 1 .ok ++ .err payload :: []
      ∧ (running []).answers = List.replicate 0 .ok := ⟨running_ready _, by decide, by decide, rfl, rfl⟩
theorem witness_ShadowKnowsTheFrequencySent :
    (∃ t, exec (.setFrequency 1 0x12345678) (running [.ok, .ok, .ok, .ok]) = .next t ∧ t.seqBusy = false ∧ t.resKind = .ok)
    ∧ (∃ t, exec (.setFrequency 1 0x12345678) (running [.ok, .ok, .err payload]) = .next t ∧ t.seqBusy = false
      ∧ t.resKind ≠ .ok) := ⟨⟨_, rfl, by decide⟩, ⟨_, rfl, by decide⟩⟩
theorem witness_ShadowKnowsThePhaseSent :
    (4095 : Value).toNat ≤ 4095
    ∧ (∃ t, exec (.setPhase 3 4095) (running [.ok, .ok]) = .next t ∧ t.seqBusy = false ∧ t.resKind = .ok)
    ∧ (∃ t, exec (.setPhase 3 4095) (running [.err payload]) = .next t ∧ t.seqBusy = false ∧ t.resKind ≠ .ok) :=
  ⟨by decide, ⟨_, rfl, by decide⟩, ⟨_, rfl, by decide⟩⟩

/-- The three clauses of each control operation's statement, with both values of the boolean. -/
theorem witness_SetOutputEnabledCompletes :
    (running [.ok]).Ready ∧ (running [.ok]).OwnedBitsOnly ∧ ((0 : Nat) = 0 ∨ (0 : Nat) = 1)
      ∧ ((1 : Nat) = 0 ∨ (1 : Nat) = 1) ∧ (running [.ok]).answers = .ok :: []
      ∧ (running [.err payload]).answers = .err payload :: [] ∧ (running []).answers = [] :=
  ⟨running_ready _, running_owned _, by decide, by decide, rfl, rfl, rfl⟩
theorem witness_SelectActiveFrequencyBankCompletes :
    (running [.ok]).Ready ∧ (running [.ok]).OwnedBitsOnly ∧ ((0 : Nat) = 0 ∨ (0 : Nat) = 1)
      ∧ ((1 : Nat) = 0 ∨ (1 : Nat) = 1)
      ∧ (running [.ok]).answers = .ok :: [] ∧ (running [.err payload]).answers = .err payload :: []
      ∧ (running []).answers = [] :=
  ⟨running_ready _, running_owned _, by decide, by decide, rfl, rfl, rfl⟩
theorem witness_SelectActivePhaseBankCompletes :
    (running [.ok]).Ready ∧ (running [.ok]).OwnedBitsOnly ∧ (3 : Nat) ≤ 3
      ∧ (running [.ok]).answers = .ok :: [] ∧ (running [.err payload]).answers = .err payload :: []
      ∧ (running []).answers = [] :=
  ⟨running_ready _, running_owned _, by decide, rfl, rfl, rfl⟩
theorem witness_SelectSyncSourceCompletes :
    (running [.ok]).Ready ∧ (running [.ok]).OwnedBitsOnly ∧ ((0 : Nat) = 0 ∨ (0 : Nat) = 1)
      ∧ ((1 : Nat) = 0 ∨ (1 : Nat) = 1)
      ∧ (running [.ok]).answers = .ok :: [] ∧ (running [.err payload]).answers = .err payload :: []
      ∧ (running []).answers = [] :=
  ⟨running_ready _, running_owned _, by decide, by decide, rfl, rfl, rfl⟩
theorem witness_CommitOrdersDifferOnlyOnFailure :
    (running [.ok]).pendingCommit = none ∧ (running [.ok]).answers = .ok :: []
      ∧ (running [.err payload]).answers = .err payload :: [] ∧ (running []).answers = [] := by decide
theorem witness_OutOfRangeExactlyWhere :
    isRequest (.setPhase 4 4096) = true ∧ (running []).Ready ∧ outOfRangeOperand (.setFrequency 2 1) = true
      ∧ outOfRangeOperand (.setPhase 3 4096) = true ∧ outOfRangeOperand (.selectActivePhaseBank 4 0) = true
      ∧ ∃ t, exec (.setPhase 3 4096) (running []) = .next t ∧ t.results = (running []).results ++ [.error .outOfRange] :=
  ⟨rfl, running_ready _, by decide, by decide, by decide, _, rfl, by decide⟩
theorem witness_MalformedBooleansAreRefused :
    isRequest (.setOutputEnabled 2 0) = true ∧ (running []).Ready ∧ malformedBoolean (.setOutputEnabled 2 0) = true
      ∧ ∃ t, exec (.setOutputEnabled 2 0) (running []) = .next t
        ∧ t.results = (running []).results ++ [.error .invalidInput] :=
  ⟨rfl, running_ready _, by decide, _, rfl, by decide⟩
theorem witness_OperationsTransmitOneAtom :
    isRequest (.setPhase 3 4095) = true ∧ (running [.ok, .ok]).Ready ∧ outOfRangeOperand (.setPhase 3 4095) = false
      ∧ malformedBoolean (.setPhase 3 4095) = false := ⟨rfl, running_ready _, by decide, rfl⟩
theorem witness_NoSilentPartialSuccess :
    isRequest (.setPhase 3 4095) = true
      ∧ (∃ t, execWith Config.params (.setPhase 3 4095) (running [.ok, .ok]) = .next t ∧ t.seqBusy = false
        ∧ t.resKind = .ok)
      ∧ (∃ t, execWith Config.params (.setPhase 3 4095) (running [.ok, .err payload]) = .next t ∧ t.seqBusy = false
        ∧ t.resKind ≠ .ok) :=
  ⟨rfl, ⟨_, rfl, by decide⟩, ⟨_, rfl, by decide⟩⟩
/-- `sending`, with the words sent so far on the wire. -/
def sent (idx : BitVec 3) (waiting : Bool) (answers : List Ack) : State :=
  { sending idx waiting answers with
    trace := (wire [0x33DE, 0x22AD, 0x31BE, 0x20EF]).take (idx.toNat + if waiting then 1 else 0) }
theorem sent_inv (idx : BitVec 3) (waiting : Bool) (answers : List Ack) (h : idx.toNat < 4) :
    (sent idx waiting answers).Inv :=
  { sending_inv idx waiting answers h with
    wireLegal := fun _ he => (by decide : ∀ e ∈ wire [0x33DE, 0x22AD, 0x31BE, 0x20EF], legalEvent e = true) _
      (List.mem_of_mem_take he) }
theorem sent_sent (idx : BitVec 3) (waiting : Bool) (answers : List Ack) : (sent idx waiting answers).Sent :=
  fun _ => ⟨[], rfl⟩
/-- One state each: waiting on, going on, ending well, ending with an error. -/
theorem witness_OperationInFlightEndsOkOnlyWhole :
    ((sent 2 true []).Inv ∧ (sent 2 true []).Sent ∧ ∃ t, step (sent 2 true []) = .next t ∧ t.seqBusy = true)
    ∧ ((sent 2 true [.ok]).Inv ∧ (sent 2 true [.ok]).Sent ∧ ∃ t, step (sent 2 true [.ok]) = .next t ∧ t.seqBusy = true)
    ∧ ((sent 3 true [.ok]).Inv ∧ (sent 3 true [.ok]).Sent
      ∧ ∃ t, step (sent 3 true [.ok]) = .next t ∧ t.seqBusy = false ∧ t.resKind = .ok)
    ∧ ((sent 3 true [.err payload]).Inv ∧ (sent 3 true [.err payload]).Sent
      ∧ ∃ t, step (sent 3 true [.err payload]) = .next t ∧ t.seqBusy = false ∧ t.resKind ≠ .ok) :=
  ⟨⟨sent_inv _ _ _ (by decide), sent_sent _ _ _, _, rfl, by decide⟩,
    ⟨sent_inv _ _ _ (by decide), sent_sent _ _ _, _, rfl, by decide⟩,
    ⟨sent_inv _ _ _ (by decide), sent_sent _ _ _, _, rfl, by decide, by decide⟩,
    ⟨sent_inv _ _ _ (by decide), sent_sent _ _ _, _, rfl, by decide, by decide⟩⟩
theorem witness_StepKeepsTheSentWords :
    (sent 1 false [.ok]).Inv ∧ (sent 1 false [.ok]).Sent ∧ ∃ t, step (sent 1 false [.ok]) = .next t :=
  ⟨sent_inv _ _ _ (by decide), sent_sent _ _ _, _, rfl⟩
theorem witness_MirrorsBelongToTheirFamilies :
    (running [.ok]).pendingCommit = none ∧ ∃ t, exec (.selectSyncSource 0 0) (running [.ok]) = .next t := ⟨rfl, _, rfl⟩
/-- A first issue that fails and one that succeeds, with both commit orders. -/
theorem witness_ReissueSendsTheSameAtom :
    isRequest (.selectActiveFrequencyBank 1 0) = true ∧ outOfRangeOperand (.selectActiveFrequencyBank 1 0) = false
      ∧ malformedBoolean (.selectActiveFrequencyBank 1 0) = false
      ∧ (∃ t, execWith Config.params (.selectActiveFrequencyBank 1 0) (ready [.err payload, .ok]) = .next t
        ∧ ∃ u, execWith Config.params (.selectActiveFrequencyBank 1 0) t = .next u)
      ∧ (∃ t, execWith { Config.params with mirrorCommit := .after } (.selectActiveFrequencyBank 1 0)
          (ready [.ok, .ok]) = .next t ∧ t.resKind = .ok
        ∧ ∃ u, execWith { Config.params with mirrorCommit := .after } (.selectActiveFrequencyBank 1 0) t = .next u) :=
  ⟨rfl, rfl, by decide, ⟨_, rfl, _, rfl⟩, ⟨_, rfl, by decide, _, rfl⟩⟩
theorem witness_BusyBlockAcceptsNoRequest :
    isRequest (.setFrequency 0 0) = true ∧ (sending 0 false []).seqBusy = true ∧ ∃ t, step (sending 0 false []) = .next t :=
  ⟨rfl, rfl, _, rfl⟩
theorem witness_StepRunsTheDecodedInstruction :
    (State.Ready { running [.ok] with inputs := [.request 0x52_0000_0000, .detach] })
      ∧ decode (.request 0x52_0000_0000) = .ok (.selectActivePhaseBank 2 0)
      ∧ (sending 3 false [.ok]).currentWord? = some 0x20EF ∧ decode (.command 0x20EF) = .ok (.frequency16 0x0 0xEF) :=
  ⟨⟨rfl, rfl⟩, by decide, by decide, by decide⟩
theorem witness_ReservedRequestsAreInvalidInput :
    (State.Ready { running [] with inputs := [.request 0x71_0000_0005] })
      ∧ (0x00_0000_0000 : Nat) / 2 ^ 36 % 16 = 0 ∧ 7 ≤ (0x71_0000_0005 : Nat) / 2 ^ 36 % 16
      ∧ 7 ≤ (0xFF_FFFF_FFFF : Nat) / 2 ^ 36 % 16 := ⟨⟨rfl, rfl⟩, by decide⟩
theorem witness_DetachSendsNothing :
    (State.Ready { running [] with inputs := [.detach] })
      ∧ ({ running [] with lifecycle := .detached, inputs := [.request 0] } : State).seqBusy = false := ⟨⟨rfl, rfl⟩, rfl⟩
/-- A last result that is a transport error, in a state whose next step is a request. -/
theorem witness_StepKeepsResultIsLast :
    let s := { running [.ok] with
      inputs := [.request 0x31_0000_0000], resKind := .transportError, resPayload := payload,
      results := [.ok, .error (.transport payload)] }
    s.ResultIsLast ∧ ∃ t, step s = .next t :=
  ⟨⟨rfl, fun _ h => by cases h; rfl⟩, _, rfl⟩
theorem witness_StepOnlyExtendsTheTrace :
    (∃ t, step (sending 0 false [.ok]) = .next t)
      ∧ ∃ t, step { running [] with lifecycle := .detached, inputs := [.attach], trace := [⟨0xF800, false⟩] } = .next t :=
  ⟨⟨_, rfl⟩, ⟨_, rfl⟩⟩
theorem witness_StepKeepsTheInvariant :
    (sending 3 true [.ok]).Inv ∧ ∃ t, step (sending 3 true [.ok]) = .next t := ⟨sending_inv _ _ _ (by decide), _, rfl⟩
theorem witness_InvariantMachineNeverStops : (sending 0 false []).Inv := sending_inv _ _ _ (by decide)
theorem witness_StepKeepsTheShadowInAgreement :
    (sending 3 true [.ok]).Inv ∧ (sending 3 true [.ok]).ShadowAgrees ∧ ∃ t, step (sending 3 true [.ok]) = .next t :=
  ⟨sending_inv _ _ _ (by decide), fun which => by cases which <;> exact .inl rfl, _, rfl⟩

end Sys2Proof.Tests
end

section
/-! PROOFS, spec/00_scope.md. What the two machines of the model have to do with each other (R6), and that the default
table meets the constraints on the parameters (R7). The one constraint that is more than a fact about numbers is item 5,
that no word is emitted for two codes: every emitted word decodes to an instruction of the code it was emitted for, so
the word determines the code. -/

namespace Sys2Proof

/-! ## The machine at the default table (R6) -/

namespace Machine

/-- Each arm of `exec` is the arm of `execWith` at the default table. -/
theorem exec_eq_execWith (i : Instr) (s : State) : exec i s = execWith Config.params i s := by
  cases i <;> rfl

theorem step_eq_stepWith (s : State) : step s = stepWith Config.params s := by
  unfold step stepWith
  cases fetch s with
  | run i s' => exact exec_eq_execWith i s'
  | done s' => rfl
  | fault r => rfl
  | refuse r => rfl

end Machine

/-- Settles O57: `exec` arm by arm, `step` by what is fetched. -/
theorem execRunsTheDefaultTable : Obligations.ExecRunsTheDefaultTable :=
  ⟨Machine.exec_eq_execWith, Machine.step_eq_stepWith⟩

/-! ## The code of an emitted word (R7 item 5) -/

/-- The code whose words decode to an instruction (R53 to R59); a request is no command word and has none. -/
def Instr.commandCode? : Instr → Option CommandCode
  | .setFrequency _ _ => none
  | .setPhase _ _ => none
  | .setOutputEnabled _ _ => none
  | .selectActiveFrequencyBank _ _ => none
  | .selectActivePhaseBank _ _ => none
  | .selectSyncSource _ _ => none
  | .phase16 _ _ => some .phase16
  | .phase8 _ _ => some .phase8
  | .frequency16 _ _ => some .frequency16
  | .frequency8 _ _ => some .frequency8
  | .bankSelect _ _ => some .bankSelect
  | .syncSourceSelect _ => some .syncSourceSelect
  | .enableControl _ _ _ => some .enableControl

/-- A command word decodes to an instruction of the given code. -/
def DecodesToCode (w : CommandWord) (c : CommandCode) : Prop :=
  ∃ i, decodeCommand w = .ok i ∧ i.commandCode? = some c

/-- A word decodes to one instruction, and so has one code. -/
theorem DecodesToCode.unique {w : CommandWord} {c d : CommandCode} (hc : DecodesToCode w c)
    (hd : DecodesToCode w d) : c = d := by
  obtain ⟨i, hi, hic⟩ := hc
  obtain ⟨j, hj, hjd⟩ := hd
  obtain rfl : i = j := Except.ok.inj (hi.symm.trans hj)
  exact Option.some.inj (hic.symm.trans hjd)

namespace Machine

/-- A split frequency is tagged with the two frequency codes only (R81). -/
theorem code_of_mem_splitFrequency {n : Nat} {value : Value} {base : { a : Fin (2 ^ n) // 3 ≤ a.val }}
    {t : RegisterWrite n} (h : t ∈ splitFrequency value base) : t.code = .frequency8 ∨ t.code = .frequency16 := by
  simp only [splitFrequency, List.mem_cons, List.not_mem_nil, or_false] at h
  rcases h with rfl | rfl | rfl | rfl
  · exact .inl rfl
  · exact .inr rfl
  · exact .inl rfl
  · exact .inr rfl

/-- Bits 11:8 of a value, widened to a byte, are the high byte of a phase value (R55, R82). -/
theorem phaseHighByte_of_nibble (x : BitVec 4) : phaseHighByte (x.setWidth 8) = true := by
  revert x; decide

/-- A split phase has the phase codes only, and what it tags PHASE_8 is a high byte (R82). -/
theorem code_of_mem_splitPhase {ε : Type} {n : Nat} {value : Value} {base : { a : Fin (2 ^ n) // 1 ≤ a.val }}
    {writes : List (RegisterWrite n)} (hs : splitPhase (ε := ε) value base = .ok writes)
    {t : RegisterWrite n} (h : t ∈ writes) :
    (t.code = .phase8 ∧ phaseHighByte t.byte = true) ∨ t.code = .phase16 := by
  unfold splitPhase at hs
  split at hs
  · cases hs
  · obtain rfl := Except.ok.inj hs
    simp only [List.mem_cons, List.not_mem_nil, or_false] at h
    rcases h with rfl | rfl
    · exact .inl ⟨rfl, phaseHighByte_of_nibble _⟩
    · exact .inr rfl

/-- The word of a split element decodes to its code. -/
theorem RegisterWrite.word_decodesToCode (t : RegisterWrite Config.params.addrWidth)
    (h : t.code = .frequency8 ∨ t.code = .frequency16 ∨ (t.code = .phase8 ∧ phaseHighByte t.byte = true)
      ∨ t.code = .phase16) : DecodesToCode (t.word Config.params) t.code := by
  obtain ⟨code, a, b⟩ := t
  rcases h with rfl | rfl | ⟨rfl, hb⟩ | rfl
  · exact ⟨_, decodeCommand_frequency8 a b, rfl⟩
  · exact ⟨_, decodeCommand_frequency16 a b, rfl⟩
  · exact ⟨_, decodeCommand_phase8 a b hb, rfl⟩
  · exact ⟨_, decodeCommand_phase16 a b, rfl⟩

end Machine

/-- The control word of a mirror with owned bits only decodes to the mirror's code (R57 to R60). -/
theorem encodeControlWord_decodesToCode {which : ControlMirror} {v : CommandWord}
    (h : v &&& ~~~Config.params.ownedMask which = 0) :
    DecodesToCode (encodeControlWord which v) (Config.controlCode which) := by
  cases which with
  | outputControl =>
    obtain ⟨s, r, c, rfl⟩ := outputControl_cases v h
    exact ⟨_, decodeCommand_enableControl s r c, rfl⟩
  | bankSelect =>
    obtain ⟨f, p, rfl⟩ := bankSelect_cases v h
    exact ⟨_, decodeCommand_bankSelect f p, rfl⟩
  | syncSource =>
    obtain ⟨x, rfl⟩ := syncSource_cases v h
    exact ⟨_, decodeCommand_syncSourceSelect x, rfl⟩

/-- A word the default table emits for a code decodes to an instruction of that code. -/
theorem Params.Emits.decodesToCode {c : CommandCode} {w : CommandWord} (h : Config.params.Emits c w) :
    DecodesToCode w c := by
  rcases h with ⟨bank, value, t, ht, rfl, rfl⟩ | ⟨bank, value, writes, t, hs, ht, rfl, rfl⟩ | ⟨which, v, hv, rfl, rfl⟩
  · exact t.word_decodesToCode ((Machine.code_of_mem_splitFrequency ht).imp_right .inl)
  · exact t.word_decodesToCode (.inr (.inr (Machine.code_of_mem_splitPhase hs ht)))
  · exact encodeControlWord_decodesToCode (hv.unowned.trans (params_unownedBits which))

/-! ## The numbers of the default table (R7 items 2 to 4) -/

theorem params_code_injective (c d : CommandCode) (h : Config.params.code c = Config.params.code d) : c = d := by
  revert h; cases c <;> cases d <;> decide

/-- The frequency banks take the slots 0 to 7 and the phase banks 8 to 15, each bank downwards from its base. -/
theorem params_slotAddresses :
    Config.params.slotAddresses = [3, 2, 1, 0, 7, 6, 5, 4, 9, 8, 11, 10, 13, 12, 15, 14] := by decide

/-- The owned bits of the default table, by their positions (decision D4). -/
theorem params_singleBits :
    singleBit Config.params.ocSleep ∧ singleBit Config.params.ocReset ∧ singleBit Config.params.ocClear
      ∧ singleBit Config.params.bsFreq ∧ singleBit Config.params.ssSelsrc :=
  ⟨⟨13, by decide⟩, ⟨12, by decide⟩, ⟨11, by decide⟩, ⟨11, by decide⟩, ⟨12, by decide⟩⟩

/-- Settles O5: items 1 to 4 are facts about the numbers of the table, item 5 is that an emitted word decodes to the
code it is emitted for. -/
theorem parametersMeetTheirConstraints : Obligations.ParametersMeetTheirConstraints where
  widths := ⟨Config.params.widths, rfl, rfl⟩
  fieldsFit := Config.params.fieldsFit
  fieldsDisjoint := Config.params.fieldsApart
  codesFit c := (Config.params.code c).isLt
  codesDistinct := params_code_injective
  addressesSuffice := by decide
  basesFit := ⟨fun b => (Config.params.freqBase b).1.isLt, fun b => (Config.params.phaseBase b).1.isLt⟩
  basesHigh := ⟨fun b => (Config.params.freqBase b).2, fun b => (Config.params.phaseBase b).2⟩
  rangesDisjoint := by rw [params_slotAddresses]; decide
  masksSingleBits := by
    obtain ⟨hsleep, hreset, hclear, hfreq, hsrc⟩ := params_singleBits
    exact ⟨hsleep, hreset, hclear, hfreq, hsrc, rfl, by decide⟩
  masksDisjoint := by decide
  codesClearOfMasks which := by cases which <;> decide
  emittedDisjoint _ _ _ hc hd := hc.decodesToCode.unique hd.decodesToCode

end Sys2Proof
end

section
/-! PROOFS, spec/10_state.md. What every step keeps. Three inversion lemmas say once what the model can do: `State.Move`
is one transition of the sequencer (R128), `State.Runs` an accepted request (R140), `State.Steps` a step. What every
transition keeps, a visit and a whole transmission keep (`State.sendWord_keeps`, `State.transmit_keeps`), so that each
statement below is proved transition by transition, and then for the seven things a step can be. -/

namespace Sys2Proof

/-! ## The values and the families of the mirrors (R13 to R16) -/

/-- At the default table the legal values of a mirror are the values its merges make from the reset value (R13 to
R15). -/
theorem mirrorValue_iff_legal {which : ControlMirror} {v : CommandWord} :
    Config.params.MirrorValue which v ↔ Machine.legalMirror which v := by
  refine ⟨Params.MirrorValue.legal, fun h => ?_⟩
  have hzero : Config.params.MirrorValue .outputControl 0 := .outputEnabled true (.reset _)
  cases which with
  | outputControl =>
    rcases h with rfl | rfl | rfl
    · exact .reset _
    · exact hzero
    · exact .outputEnabled false hzero
  | bankSelect =>
    obtain ⟨freq, phase, rfl⟩ := bankSelect_cases v h
    have hmerge : ∀ (f : Bool) (b : BitVec 2),
        Machine.mergePhaseBank (ε := Machine.TransportErrorPayload) (Machine.mergeFrequencyBank 0 f) b.toNat
          = .ok (bankSelectOf f b) := by decide
    exact .phaseBank _ (.frequencyBank freq (.reset _)) (hmerge freq phase)
  | syncSource =>
    obtain ⟨x, rfl⟩ := syncSource_cases v h
    have hmerge : ∀ x : Bool, Machine.mergeSyncSource 0 (!x) = syncSourceOf x := by decide
    exact hmerge x ▸ .syncSource (!x) (.reset _)

/-- The mirror whose family an instruction belongs to (R16); the data operations and the command words have none. -/
def Instr.family? : Instr → Option ControlMirror
  | .setFrequency _ _ => none
  | .setPhase _ _ => none
  | .setOutputEnabled _ _ => some .outputControl
  | .selectActiveFrequencyBank _ _ => some .bankSelect
  | .selectActivePhaseBank _ _ => some .bankSelect
  | .selectSyncSource _ _ => some .syncSource
  | .phase16 _ _ => none
  | .phase8 _ _ => none
  | .frequency16 _ _ => none
  | .frequency8 _ _ => none
  | .bankSelect _ _ => none
  | .syncSourceSelect _ => none
  | .enableControl _ _ _ => none

/-- The instructions of each family (R16, R64). -/
theorem Instr.family?_cases {i : Instr} {which : ControlMirror} (h : i.family? = some which) :
    match which with
    | .outputControl => ∃ sel val, i = .setOutputEnabled sel val
    | .bankSelect => ∃ sel val, i = .selectActiveFrequencyBank sel val ∨ i = .selectActivePhaseBank sel val
    | .syncSource => ∃ sel val, i = .selectSyncSource sel val := by
  cases i with
  | setOutputEnabled sel val => cases h; exact ⟨sel, val, rfl⟩
  | selectActiveFrequencyBank sel val => cases h; exact ⟨sel, val, .inl rfl⟩
  | selectActivePhaseBank sel val => cases h; exact ⟨sel, val, .inr rfl⟩
  | selectSyncSource sel val => cases h; exact ⟨sel, val, rfl⟩
  | setFrequency | setPhase | phase16 | phase8 | frequency16 | frequency8 | bankSelect | syncSourceSelect
  | enableControl => cases h

namespace Machine

variable {ε : Type}

/-! ## What the sequencer can do -/

/-- The transitions of R128 out of SEND: the word at `seq_idx` is presented, or it stands presented and its answer is
taken, which goes on to the next word, completes the atom, or aborts it. -/
inductive State.Move (p : Params) (s : State ε) : State ε → Prop where
  | present {w : CommandWord} (hw : s.currentWord? = some w) (ha : s.awaiting = false) : Move p s (s.present w)
  | next {w : CommandWord} {rest : List (Ack ε)} (hw : s.currentWord? = some w) (ha : s.awaiting = true)
      (hans : s.answers = .ok :: rest) (hlt : s.seqIdx.toNat + 1 < s.seqLen.toNat) :
      Move p s { s with answers := rest, seqIdx := s.seqIdx + 1, awaiting := false }
  | complete {w : CommandWord} {rest : List (Ack ε)} (hw : s.currentWord? = some w) (ha : s.awaiting = true)
      (hans : s.answers = .ok :: rest) (hlast : ¬ s.seqIdx.toNat + 1 < s.seqLen.toNat) :
      Move p s (State.finish
        { State.commitPending { s with answers := rest } with
          seqIdx := s.seqLen, chip := s.chip.takeAtom s.atom p } .ok)
  | abort {w : CommandWord} {e : ε} {rest : List (Ack ε)} (hw : s.currentWord? = some w) (ha : s.awaiting = true)
      (hans : s.answers = .err e :: rest) :
      Move p s (State.raise { s with answers := rest, chip := s.chip.loseAtom s.atom p } (.transport e))

theorem State.seqBusy_of_currentWord? {s : State ε} {w : CommandWord} (h : s.currentWord? = some w) :
    s.seqBusy = true := (State.currentWord?_eq_some.mp h).1

theorem State.Move.seqBusy {p : Params} {s t : State ε} (h : s.Move p t) : s.seqBusy = true := by
  cases h with
  | present hw | next hw | complete hw | abort hw => exact State.seqBusy_of_currentWord? hw

/-- Taking the answer to a presented word is one transition, or none where the transport has not answered. -/
theorem State.takeAnswer_move {p : Params} {s : State ε} {w : CommandWord} (hw : s.currentWord? = some w)
    (ha : s.awaiting = true) : s.takeAnswer p = s ∨ s.Move p (s.takeAnswer p) := by
  rcases s.takeAnswer_cases p with ⟨-, e⟩ | ⟨rest, hans, e⟩ | ⟨er, rest, hans, e⟩ <;> rw [e]
  · exact .inl rfl
  · by_cases hlt : s.seqIdx.toNat + 1 < s.seqLen.toNat
    · rw [State.acknowledge_next (s := { s with answers := rest }) hlt]
      exact .inr (.next hw ha hans hlt)
    · rw [State.acknowledge_last (s := { s with answers := rest }) hlt]
      exact .inr (.complete hw ha hans hlt)
  · exact .inr (.abort hw ha hans)

/-- A visit takes the answer in a state where the word stands presented: the one before, or that after presenting it. -/
theorem State.sendWord_cases {s : State ε} {w : CommandWord} (hw : s.currentWord? = some w) (p : Params) :
    ∃ u : State ε, (u = s ∨ s.awaiting = false ∧ u = s.present w) ∧ u.currentWord? = some w ∧ u.awaiting = true
      ∧ s.sendWord p = u.takeAnswer p := by
  rw [State.sendWord_some hw]
  cases ha : s.awaiting with
  | true => exact ⟨s, .inl rfl, hw, ha, rfl⟩
  | false => exact ⟨s.present w, .inr ⟨rfl, rfl⟩, hw, rfl, rfl⟩

section Keeps

variable {p : Params} {P : State ε → Prop}

/-- What every transition of R128 keeps, a visit of the sequencer keeps. -/
theorem State.sendWord_keeps (hP : ∀ s t, P s → s.Move p t → P t) (s : State ε) (hs : P s) : P (s.sendWord p) := by
  cases hw : s.currentWord? with
  | none => rw [State.sendWord_none hw]; exact hs
  | some w =>
    obtain ⟨u, hu, huw, hua, e⟩ := State.sendWord_cases hw p
    have hPu : P u := by
      rcases hu with rfl | ⟨ha, rfl⟩
      · exact hs
      · exact hP s _ hs (.present hw ha)
    rw [e]
    rcases State.takeAnswer_move huw hua with e | hm
    · rw [e]; exact hPu
    · exact hP u _ hPu hm

/-- What every transition of R128 keeps, a whole `transmit` keeps from the load of its atom on. -/
theorem State.transmit_keeps (hP : ∀ s t, P s → s.Move p t → P t) {s : State ε} {words : List CommandWord}
    (hne : words ≠ []) (hs : P (s.loadAtom words)) : P (s.transmit words p) := by
  cases words with
  | nil => exact absurd rfl hne
  | cons w rest =>
    rw [State.transmit_cons]
    exact State.sendWords_keeps (State.sendWord_keeps hP) _ _ hs

end Keeps

/-! ## What an instruction and a step can do -/

/-- The atoms of the two data operations: the words of a split (R81, R82, R88). -/
def DataAtom (words : List CommandWord) : Prop :=
  (∃ (bank : Fin 2) (value : Value),
      words = atomWords Config.params (splitFrequency value (Config.params.freqBase bank)))
  ∨ ∃ (bank : Fin 4) (value : Value) (writes : List (RegisterWrite Config.params.addrWidth)),
      splitPhase (ε := TransportErrorPayload) value (Config.params.phaseBase bank) = .ok writes
        ∧ words = atomWords Config.params writes

/-- A legal atom is a data atom or the control word of a mirror as it stands. -/
theorem State.legalAtom_iff {s : State} {words : List CommandWord} :
    s.LegalAtom words ↔ DataAtom words ∨ ∃ which, words = [encodeControlWord which (s.mirror which)] :=
  or_assoc.symm

theorem DataAtom.legal {words : List CommandWord} (h : DataAtom words) (s : State) : s.LegalAtom words :=
  State.legalAtom_iff.mpr (.inl h)

theorem State.controlWord_legal (s : State) (which : ControlMirror) :
    s.LegalAtom [encodeControlWord which (s.mirror which)] :=
  State.legalAtom_iff.mpr (.inr ⟨which, rfl⟩)

/-- The words of a split frequency. -/
theorem dataAtom_frequency (bank : Fin 2) (value : Value) :
    DataAtom (atomWords Config.params (splitFrequency value (Config.params.freqBase bank))) :=
  .inl ⟨bank, value, rfl⟩

/-- A split phase that is no error is its two writes (R82). -/
theorem eq_of_splitPhase_ok {n : Nat} {value : Value} {base : { a : Fin (2 ^ n) // 1 ≤ a.val }}
    {writes : List (RegisterWrite n)} (h : splitPhase (ε := TransportErrorPayload) value base = .ok writes) :
    writes = [⟨.phase8, base.1, (value.extractLsb' 8 4).setWidth 8⟩,
      ⟨.phase16, below base.1 1 base.2, value.extractLsb' 0 8⟩] := by
  unfold splitPhase at h
  split at h
  · cases h
  · exact (Except.ok.inj h).symm

/-- The words of a split phase. -/
theorem dataAtom_phase {bank : Fin 4} {value : Value} {writes : List (RegisterWrite Config.params.addrWidth)}
    (h : splitPhase (ε := TransportErrorPayload) value (Config.params.phaseBase bank) = .ok writes) :
    DataAtom (atomWords Config.params writes) :=
  .inr ⟨bank, value, writes, h, rfl⟩

/-- A data atom has four words or two (R149). -/
theorem DataAtom.length {words : List CommandWord} (h : DataAtom words) : words.length = 4 ∨ words.length = 2 := by
  rcases h with ⟨bank, value, rfl⟩ | ⟨bank, value, writes, hs, rfl⟩
  · exact .inl rfl
  · obtain rfl := eq_of_splitPhase_ok hs
    exact .inr rfl

/-- What an accepted request does (R140 to R146, with `MIRROR_COMMIT = BEFORE`): it refuses its operand, sends a data
atom, or writes the mirror of its family and sends the mirror's word. -/
inductive State.Runs (s : State) (i : Instr) : State → Prop where
  | refused (e : OpError) : Runs s i (s.raise e)
  | data {words : List CommandWord} (hw : DataAtom words) : Runs s i (s.transmit words)
  | control {m : MirrorWrite} (hfamily : i.family? = some m.mirror)
      (hvalue : Config.params.MirrorValue m.mirror (s.mirror m.mirror) → Config.params.MirrorValue m.mirror m.value) :
      Runs s i ((s.commit m).transmit [encodeControlWord m.mirror m.value])

/-- The transfer of a control operation of the default table. -/
theorem State.Runs.controlTransfer {s : State} {i : Instr} {m : MirrorWrite} (hfamily : i.family? = some m.mirror)
    (hvalue : Config.params.MirrorValue m.mirror (s.mirror m.mirror) → Config.params.MirrorValue m.mirror m.value) :
    s.Runs i (controlTransfer Config.params m s) := by
  rw [controlTransfer_before params_mirrorCommit]
  exact .control hfamily hvalue

/-- An instruction that runs is one visit of the sequencer to the word in flight, or a request accepted by a block that
is idle and ready (R127, R128, R140). -/
theorem exec_cases {i : Instr} {s t : State} (h : exec i s = .next t) :
    ((∃ w, s.currentWord? = some w) ∧ t = s.sendWord)
    ∨ (s.Ready ∧ State.Runs { s with seqBusy := true, pendingCommit := none } i t) := by
  have hcontrol : ∀ {w : CommandWord}, sendCommand w s = .next t → (∃ w, s.currentWord? = some w) ∧ t = s.sendWord :=
    fun e => by obtain ⟨hw, rfl⟩ := sendCommand_next.mp e; exact ⟨⟨_, hw⟩, rfl⟩
  have hdata : ∀ {word : Option CommandWord}, sendDataCommand word s = .next t →
      (∃ w, s.currentWord? = some w) ∧ t = s.sendWord :=
    fun e => by obtain ⟨w, -, hw, rfl⟩ := sendDataCommand_next.mp e; exact ⟨⟨w, hw⟩, rfl⟩
  have hrequest : ∀ {op : State → State}, acceptRequest op s = .next t → (∀ s : State, s.Runs i (op s)) →
      s.Ready ∧ State.Runs { s with seqBusy := true, pendingCommit := none } i t :=
    fun e hop => by obtain ⟨hb, hl, rfl⟩ := acceptRequest_next.mp e; exact ⟨⟨hb, hl⟩, hop _⟩
  cases i with
  | setFrequency sel val =>
    refine .inr (hrequest h fun s => ?_)
    unfold setFrequencyOp
    split
    · exact .refused _
    · exact .data (dataAtom_frequency _ val)
  | setPhase sel val =>
    refine .inr (hrequest h fun s => ?_)
    unfold setPhaseOp
    split
    · exact .refused _
    · split
      · exact .refused _
      · exact .data (dataAtom_phase (by assumption))
  | setOutputEnabled sel _ =>
    refine .inr (hrequest h fun s => ?_)
    unfold setOutputEnabledOp
    split
    · exact .refused _
    · exact .controlTransfer rfl (.outputEnabled _)
  | selectActiveFrequencyBank sel _ =>
    refine .inr (hrequest h fun s => ?_)
    unfold selectActiveFrequencyBankOp
    split
    · exact .refused _
    · exact .controlTransfer rfl (.frequencyBank _)
  | selectActivePhaseBank sel _ =>
    refine .inr (hrequest h fun s => ?_)
    unfold selectActivePhaseBankOp
    split
    · exact .refused _
    · exact .controlTransfer rfl fun hv => .phaseBank _ hv (by assumption)
  | selectSyncSource sel _ =>
    refine .inr (hrequest h fun s => ?_)
    unfold selectSyncSourceOp
    split
    · exact .refused _
    · exact .controlTransfer rfl (.syncSource _)
  | phase16 addr data => exact .inl (hdata h)
  | phase8 addr data => exact .inl (hdata h)
  | frequency16 addr data => exact .inl (hdata h)
  | frequency8 addr data => exact .inl (hdata h)
  | bankSelect freq phase => exact .inl (hcontrol h)
  | syncSourceSelect selsrc => exact .inl (hcontrol h)
  | enableControl sleep reset clear => exact .inl (hcontrol h)

/-- What a step can do: while busy, one visit of the sequencer; while idle, the attach transfer, nothing, a request that
runs, one that names no operation, a detach, or the next attach (R24, R65, R127, R191, R193). -/
inductive State.Steps (s : State) : State → Prop where
  | visit (hb : s.seqBusy = true) : Steps s s.sendWord
  | attach (hb : s.seqBusy = false) (hl : s.lifecycle = .attaching) : Steps s (attachTransfer s)
  | idle (hb : s.seqBusy = false) (hi : s.inputs = []) : Steps s s
  | request {w : Nat} {rest : List HostEvent} {i : Instr} {t : State} (hb : s.seqBusy = false)
      (hl : s.lifecycle = .ready) (hi : s.inputs = .request w :: rest) (hd : decodeRequest w = .ok i)
      (hr : State.Runs { s with inputs := rest, seqBusy := true, pendingCommit := none } i t) : Steps s t
  | reserved {w : Nat} {rest : List HostEvent} {e : DecodeError} (hb : s.seqBusy = false) (hl : s.lifecycle = .ready)
      (hi : s.inputs = .request w :: rest) (hd : decodeRequest w = .error e) :
      Steps s (rejectRequest { s with inputs := rest })
  | detach {rest : List HostEvent} (hb : s.seqBusy = false) (hl : s.lifecycle = .ready)
      (hi : s.inputs = .detach :: rest) : Steps s (Machine.detach { s with inputs := rest })
  | reattach {rest : List HostEvent} (hb : s.seqBusy = false) (hl : s.lifecycle = .detached)
      (hi : s.inputs = .attach :: rest) : Steps s (Machine.reattach { s with inputs := rest })

/-- A step of a busy block is a visit to the word in flight, whatever that word decodes to. -/
theorem step_busy {s t : State} (hb : s.seqBusy = true) (h : step s = .next t) : t = s.sendWord := by
  rw [step_eq, fetch_busy hb, fetchWord] at h
  cases hw : s.currentWord? with
  | none => rw [hw] at h; cases h
  | some w =>
    rw [hw] at h
    cases hd : decodeCommand w with
    | error e => simp only [hd] at h; cases h
    | ok i =>
      simp only [hd] at h
      rcases exec_cases h with ⟨-, rfl⟩ | ⟨⟨hb', -⟩, -⟩
      · rfl
      · cases hb.symm.trans hb'

/-- A step of an idle, ready block. -/
theorem steps_of_fetchEvent {s t : State} (hb : s.seqBusy = false) (hl : s.lifecycle = .ready)
    (h : step s = .next t) : s.Steps t := by
  rw [step_eq, fetch_ready hb hl, fetchEvent] at h
  match hi : s.inputs with
  | [] => simp only [hi] at h; cases h; exact .idle hb hi
  | .request w :: rest =>
    simp only [hi] at h
    cases hd : decodeRequest w with
    | error e => simp only [hd] at h; cases h; exact .reserved hb hl hi hd
    | ok i =>
      simp only [hd] at h
      rcases exec_cases h with ⟨⟨w, hw⟩, -⟩ | ⟨-, hr⟩
      · cases hb.symm.trans (State.seqBusy_of_currentWord? hw)
      · exact .request hb hl hi hd hr
  | .detach :: rest => simp only [hi] at h; cases h; exact .detach hb hl hi
  | .attach :: rest => simp only [hi] at h; cases h

/-- A step of an idle, detached device. -/
theorem steps_of_fetchDetached {s t : State} (hb : s.seqBusy = false) (hl : s.lifecycle = .detached)
    (h : step s = .next t) : s.Steps t := by
  rw [step_eq, fetch_detached hb hl, fetchDetached] at h
  match hi : s.inputs with
  | [] => simp only [hi] at h; cases h; exact .idle hb hi
  | .attach :: rest => simp only [hi] at h; cases h; exact .reattach hb hl hi
  | .request w :: rest => simp only [hi] at h; cases h
  | .detach :: rest => simp only [hi] at h; cases h

/-- The inversion of a step, by whether the block is busy and where it is in its life. -/
theorem step_cases {s t : State} (h : step s = .next t) : s.Steps t := by
  cases hb : s.seqBusy with
  | true => rw [step_busy hb h]; exact .visit hb
  | false =>
    cases hl : s.lifecycle with
    | attaching =>
      rw [step_eq, fetch_attaching hb hl] at h
      cases h
      exact .attach hb hl
    | ready => exact steps_of_fetchEvent hb hl h
    | detached => exact steps_of_fetchDetached hb hl h

/-! ## The control merges (R17) -/

/-- Setting the bits of a mask is a read-modify-write under the mask. -/
theorem or_eq_readModifyWrite (r m : CommandWord) : r ||| m = (r &&& ~~~m) ||| (m &&& m) := by
  ext i
  simp only [BitVec.getElem_or, BitVec.getElem_and, BitVec.getElem_not]
  cases r[i] <;> cases m[i] <;> rfl

/-- So is clearing them. -/
theorem andNot_eq_readModifyWrite (r m : CommandWord) : r &&& ~~~m = (r &&& ~~~m) ||| (0 &&& m) := by simp

/-- A bank number lies under the mask of the phase field, wherever the table puts the field. -/
theorem phaseField_masked (p : Params) (b : Fin 4) :
    (BitVec.ofNat 16 b.val <<< p.bsPhaseShift) &&& p.bsPhaseMask = BitVec.ofNat 16 b.val <<< p.bsPhaseShift := by
  have hb : BitVec.ofNat 16 b.val &&& 3#16 = BitVec.ofNat 16 b.val := by revert b; decide
  rw [Params.bsPhaseMask, ← BitVec.shiftLeft_and_distrib, hb]

/-- Settles O15: each merge sets the bits of its mask, clears them, or puts a bank number there. -/
theorem mergesPreserveUnownedBits : Obligations.MergesPreserveUnownedBits := by
  intro p r
  refine ⟨⟨0, andNot_eq_readModifyWrite r p.ocMask⟩, ⟨p.ocReset, or_eq_readModifyWrite r p.ocReset⟩, ?_, ?_, ?_⟩
  · rintro (_ | _)
    · exact ⟨0, andNot_eq_readModifyWrite r p.bsFreq⟩
    · exact ⟨p.bsFreq, or_eq_readModifyWrite r p.bsFreq⟩
  · intro bank r' h
    unfold mergePhaseBank at h
    split at h
    · cases h
    · rename_i b _
      obtain rfl := Except.ok.inj h
      exact ⟨_, by rw [phaseField_masked]⟩
  · rintro (_ | _)
    · exact ⟨p.ssSelsrc, or_eq_readModifyWrite r p.ssSelsrc⟩
    · exact ⟨0, andNot_eq_readModifyWrite r p.ssSelsrc⟩

/-! ## `seq_idx` (R12) -/

/-- One more than a `seq_idx` that is not at the last word does not wrap (R19). -/
theorem seqIdx_succ_toNat {idx len : BitVec 3} (h : idx.toNat + 1 < len.toNat) : (idx + 1).toNat = idx.toNat + 1 := by
  bv_omega

/-- A transition leaves the buffer, and moves on by at most one word if the operation stays in flight (R128). -/
theorem State.Move.advances {s t : State ε} {p : Params} (hm : s.Move p t) (ht : t.seqBusy = true) :
    t.seqLen = s.seqLen ∧ t.seqBuf = s.seqBuf
      ∧ (t.seqIdx = s.seqIdx ∨ (t.seqIdx.toNat = s.seqIdx.toNat + 1 ∧ t.seqIdx.toNat < s.seqLen.toNat)) := by
  cases hm with
  | present hw ha => exact ⟨rfl, rfl, .inl rfl⟩
  | next hw ha hans hlt =>
    have hidx := seqIdx_succ_toNat hlt
    exact ⟨rfl, rfl, .inr ⟨hidx, hidx.trans_lt hlt⟩⟩
  | complete hw => cases ht
  | abort hw => cases ht

/-- Settles O24: the answer `ok` to a word before the last moves `seq_idx` by one, every other outcome of a visit leaves
it or ends the operation. -/
theorem seqIdxAdvancesByOne : Obligations.SeqIdxAdvancesByOne := by
  intro s t hb h ht
  obtain rfl := step_busy hb h
  cases hw : s.currentWord? with
  | none => rw [State.sendWord_none hw]; exact ⟨rfl, rfl, .inl rfl⟩
  | some w =>
    obtain ⟨u, hu, huw, hua, e⟩ := State.sendWord_cases hw Config.params
    have hidx : u.seqLen = s.seqLen ∧ u.seqBuf = s.seqBuf ∧ u.seqIdx = s.seqIdx := by
      rcases hu with rfl | ⟨-, rfl⟩
      · exact ⟨rfl, rfl, rfl⟩
      · exact ⟨rfl, rfl, rfl⟩
    obtain ⟨hlen, hbuf, hidx⟩ := hidx
    rw [← hlen, ← hbuf, ← hidx]
    rw [e] at ht ⊢
    rcases State.takeAnswer_move huw hua with e' | hm
    · rw [e']; exact ⟨rfl, rfl, .inl rfl⟩
    · exact hm.advances ht

/-! ## The mirrors' families (R16) -/

/-- Nothing waits to be committed, and the mirrors are those of an earlier state. -/
def State.MirrorsOf (s t : State) : Prop :=
  t.pendingCommit = none ∧ ∀ which, t.mirror which = s.mirror which

/-- The sequencer writes no mirror but for a commit kept for it (R131, R147). -/
theorem State.MirrorsOf.move {s t u : State} {p : Params} (h : s.MirrorsOf t) (hm : t.Move p u) : s.MirrorsOf u := by
  obtain ⟨hp, hmirror⟩ := h
  cases hm with
  | present hw => exact ⟨hp, hmirror⟩
  | next hw ha hans hlt => exact ⟨hp, hmirror⟩
  | @complete w rest hw ha hans hlast =>
    rw [State.commitPending_none { t with answers := rest } hp]
    exact ⟨rfl, hmirror⟩
  | abort hw => exact ⟨rfl, hmirror⟩

theorem State.MirrorsOf.sendWord {s : State} (hp : s.pendingCommit = none) (p : Params) : s.MirrorsOf (s.sendWord p) :=
  State.sendWord_keeps (fun _ _ => State.MirrorsOf.move) s ⟨hp, fun _ => rfl⟩

theorem State.MirrorsOf.transmit {s : State} (hp : s.pendingCommit = none) (p : Params) {words : List CommandWord}
    (hne : words ≠ []) : s.MirrorsOf (s.transmit words p) :=
  State.transmit_keeps (fun _ _ => State.MirrorsOf.move) hne ⟨hp, fun _ => rfl⟩

theorem DataAtom.ne_nil {words : List CommandWord} (h : DataAtom words) : words ≠ [] := by
  rintro rfl
  simpa using h.length

/-- An instruction leaves the mirrors of the other families as they are (R16). -/
theorem exec_mirror {i : Instr} {s t : State} {which : ControlMirror} (hp : s.pendingCommit = none)
    (h : exec i s = .next t) (hi : i.family? ≠ some which) : t.mirror which = s.mirror which := by
  rcases exec_cases h with ⟨-, rfl⟩ | ⟨-, hr⟩
  · exact (State.MirrorsOf.sendWord hp _).2 which
  · cases hr with
    | refused e => cases which <;> rfl
    | data hw =>
      rw [(State.MirrorsOf.transmit (s := { s with seqBusy := true, pendingCommit := none }) rfl _ hw.ne_nil).2]
      cases which <;> rfl
    | @control m hfamily _ =>
      rw [(State.MirrorsOf.transmit (by simp) _ (by simp)).2, State.commit_mirror,
        if_neg fun e : which = m.mirror => hi (hfamily.trans (congrArg some e.symm))]
      cases which <;> rfl

/-- Settles O42: for each mirror, the instructions of its family are the ones the statement excepts. -/
theorem mirrorsBelongToTheirFamilies : Obligations.MirrorsBelongToTheirFamilies := by
  intro i s t hp h
  refine ⟨fun hi => exec_mirror (which := .outputControl) hp h fun hf => ?_,
    fun hi => exec_mirror (which := .bankSelect) hp h fun hf => ?_,
    fun hi => exec_mirror (which := .syncSource) hp h fun hf => ?_⟩
  · obtain ⟨sel, val, e⟩ := Instr.family?_cases hf
    exact hi sel val e
  · obtain ⟨sel, val, e | e⟩ := Instr.family?_cases hf
    · exact (hi sel val).1 e
    · exact (hi sel val).2 e
  · obtain ⟨sel, val, e⟩ := Instr.family?_cases hf
    exact hi sel val e

/-! ## The result register (R20) -/

/-- Only the results and the result register matter. -/
theorem State.ResultIsLast.congr {s t : State} (h : s.ResultIsLast) (hr : t.results = s.results)
    (hk : t.resKind = s.resKind) (hp : t.resPayload = s.resPayload) : t.ResultIsLast := by
  unfold State.ResultIsLast at h ⊢
  rw [hr, hk, hp]
  exact h

/-- The end of an operation writes the register from the result it reports (R175). -/
theorem State.finish_resultIsLast (s : State) (r : OpResult) : (s.finish r).ResultIsLast := by
  unfold State.ResultIsLast
  rw [State.finish_results, List.getLast?_concat]
  exact ⟨rfl, by rintro e rfl; rfl⟩

theorem State.ResultIsLast.move {s t : State} {p : Params} (h : s.ResultIsLast) (hm : s.Move p t) :
    t.ResultIsLast := by
  cases hm with
  | present hw => exact h.congr rfl rfl rfl
  | next hw ha hans hlt => exact h.congr rfl rfl rfl
  | complete hw => exact State.finish_resultIsLast _ _
  | abort hw => exact State.finish_resultIsLast _ _

theorem State.ResultIsLast.transmit {s : State} (h : s.ResultIsLast) (p : Params) {words : List CommandWord}
    (hne : words ≠ []) : (s.transmit words p).ResultIsLast :=
  State.transmit_keeps (fun _ _ => State.ResultIsLast.move) hne (h.congr rfl rfl rfl)

theorem State.ResultIsLast.runs {s t : State} {i : Instr} (h : s.ResultIsLast) (hr : s.Runs i t) : t.ResultIsLast := by
  cases hr with
  | refused e => exact State.finish_resultIsLast _ _
  | data hw => exact h.transmit _ hw.ne_nil
  | control => exact State.ResultIsLast.transmit (h.congr (by simp) (by simp) (by simp)) _ (by simp)

/-- Settles O50: the end of an operation writes result and register together, and but for reset nothing else writes
either. -/
theorem stepKeepsResultIsLast : Obligations.StepKeepsResultIsLast := by
  intro s t hs h
  cases step_cases h with
  | visit hb => exact State.sendWord_keeps (fun _ _ => State.ResultIsLast.move) s hs
  | attach hb hl => refine State.ResultIsLast.transmit ?_ _ (List.cons_ne_nil _ _); exact hs.congr rfl rfl rfl
  | idle hb hi => exact hs
  | request hb hl hi hd hr => refine State.ResultIsLast.runs ?_ hr; exact hs.congr rfl rfl rfl
  | reserved hb => exact State.finish_resultIsLast _ _
  | detach hb => exact hs.congr rfl rfl rfl
  | reattach hb hl => exact (rfl : ResKind.ok = .ok)

/-! ## The wire trace (R21) -/

/-- The wire trace of a later state is that of an earlier one with at most `n` words after it. -/
def State.Extends (n : Nat) (s t : State ε) : Prop := ∃ sent, t.trace = s.trace ++ sent ∧ sent.length ≤ n

theorem State.Extends.of_eq {n : Nat} {s t : State ε} (h : t.trace = s.trace) : s.Extends n t :=
  ⟨[], by rw [h, List.append_nil], Nat.zero_le n⟩

theorem State.Extends.trans {m n : Nat} {s t u : State ε} (h : s.Extends m t) (h' : t.Extends n u) :
    s.Extends (m + n) u := by
  obtain ⟨a, ha, hm⟩ := h
  obtain ⟨b, hb, hn⟩ := h'
  exact ⟨a ++ b, by rw [hb, ha, List.append_assoc], by rw [List.length_append]; omega⟩

theorem State.Extends.mono {m n : Nat} {s t : State ε} (h : s.Extends m t) (hmn : m ≤ n) : s.Extends n t := by
  obtain ⟨a, ha, hm⟩ := h
  exact ⟨a, ha, hm.trans hmn⟩

/-- A transition out of a state where the word stands presented puts nothing on the wire. -/
theorem State.Move.trace {s t : State ε} {p : Params} (hm : s.Move p t) (ha : s.awaiting = true) :
    t.trace = s.trace := by
  cases hm with
  | present hw ha' => cases ha.symm.trans ha'
  | next hw => rfl
  | complete hw => rw [State.finish_trace, State.commitPending_trace]
  | abort hw => rfl

/-- A visit of the sequencer puts at most one word on the wire. -/
theorem State.sendWord_extends (s : State ε) (p : Params) : s.Extends 1 (s.sendWord p) := by
  cases hw : s.currentWord? with
  | none => rw [State.sendWord_none hw]; exact .of_eq rfl
  | some w =>
    obtain ⟨u, hu, huw, hua, e⟩ := State.sendWord_cases hw p
    have htrace : (u.takeAnswer p).trace = u.trace := by
      rcases State.takeAnswer_move huw hua with e' | hm
      · rw [e']
      · exact hm.trace hua
    rw [e]
    rcases hu with rfl | ⟨-, rfl⟩
    · exact .of_eq htrace
    · exact ⟨_, htrace, le_rfl⟩

theorem State.sendWords_extends (p : Params) (n : Nat) (s : State ε) : s.Extends n (s.sendWords n p) := by
  induction n generalizing s with
  | zero => exact .of_eq rfl
  | succ n ih =>
    rw [State.sendWords_succ, Nat.add_comm]
    split
    · exact (s.sendWord_extends p).trans (ih _)
    · exact (s.sendWord_extends p).mono (by omega)

/-- A transmission puts at most the words of its atom on the wire. -/
theorem State.transmit_extends (s : State ε) (words : List CommandWord) (p : Params) :
    s.Extends words.length (s.transmit words p) := by
  cases words with
  | nil => exact .of_eq rfl
  | cons w rest => exact State.sendWords_extends p _ (s.loadAtom (w :: rest))

theorem State.Runs.extends {s t : State} {i : Instr} (h : s.Runs i t) : s.Extends 4 t := by
  cases h with
  | refused e => exact .of_eq rfl
  | @data words hw => exact (s.transmit_extends words _).mono (by have := hw.length; omega)
  | @control m hfamily hvalue =>
    have hcommit : s.Extends 0 (s.commit m) := .of_eq (s.commit_trace m)
    exact (hcommit.trans ((s.commit m).transmit_extends [encodeControlWord m.mirror m.value] _)).mono (by simp)

/-- Settles O51: a visit presents at most one word, a transmission at most its atom. -/
theorem stepOnlyExtendsTheTrace : Obligations.StepOnlyExtendsTheTrace := by
  intro s t h
  cases step_cases h with
  | visit hb => exact .inl ((s.sendWord_extends _).mono (by omega))
  | attach hb hl => exact .inl ((State.transmit_extends _ _ _).mono (by simp))
  | idle hb hi => exact .inl (State.Extends.of_eq rfl)
  | request hb hl hi hd hr => exact .inl hr.extends
  | reserved hb => exact .inl (State.Extends.of_eq rfl)
  | detach hb => exact .inl (State.Extends.of_eq rfl)
  | reattach hb hl => exact .inr ⟨hl, rfl⟩

/-! ## The atom in the buffer -/

/-- An atom of at most four words stands in the buffer once it is loaded (R128). -/
theorem State.loadAtom_atom (s : State ε) {words : List CommandWord} (h : words.length ≤ 4) :
    (s.loadAtom words).atom = words := by
  match words, h with
  | [], _ | [_], _ | [_, _], _ | [_, _, _], _ | [_, _, _, _], _ => rfl

theorem State.loadAtom_seqLen_toNat (s : State ε) {words : List CommandWord} (h : words.length ≤ 4) :
    (s.loadAtom words).seqLen.toNat = words.length := by
  rw [State.loadAtom_seqLen, BitVec.toNat_ofNat]
  omega

/-- The word the sequencer is at is the atom's word at `seq_idx`. -/
theorem State.atom_getElem?_of_currentWord? {s : State ε} {w : CommandWord} (h : s.currentWord? = some w) :
    s.atom[s.seqIdx.toNat]? = some w := by
  obtain ⟨-, hlt, hword⟩ := State.currentWord?_eq_some.mp h
  rw [State.atom, SeqBuf.words, List.getElem?_take, if_pos hlt, ← hword]
  match s.seqIdx.toNat with
  | 0 | 1 | 2 | 3 | n + 4 => rfl

/-- The pairs of an atom: each word with hold 1, but the last with hold 0 (R121). -/
theorem wire_getElem? (words : List CommandWord) (k : Nat) :
    (wire words)[k]? = words[k]?.map fun w => ⟨w, decide (k < words.length - 1)⟩ := by
  induction words generalizing k with
  | nil => rfl
  | cons w rest ih =>
    cases rest with
    | nil => cases k <;> rfl
    | cons w' rest =>
      cases k with
      | zero => rfl
      | succ k =>
        rw [wire, List.getElem?_cons_succ, ih, List.getElem?_cons_succ]
        · simp
        · simp

/-- What the sequencer presents is the pair of the atom at `seq_idx` (R121, R128). -/
theorem State.presented_mem_wire {s : State ε} {w : CommandWord} (h : s.currentWord? = some w)
    (hlen : s.atom.length = s.seqLen.toNat) : ⟨w, s.hold⟩ ∈ wire s.atom := by
  refine List.mem_of_getElem? (i := s.seqIdx.toNat) ?_
  rw [wire_getElem?, State.atom_getElem?_of_currentWord? h, hlen]
  rfl

/-! ## Legal atoms on the wire (R53 to R59, R62) -/

/-- The four words of a frequency, with their hold flags, are what R53 and R54 list. -/
theorem wire_frequency_legal (bank : Fin 2) (value : Value) :
    ∀ e ∈ wire (atomWords Config.params (splitFrequency value (Config.params.freqBase bank))), legalEvent e = true := by
  simp only [atomWords_splitFrequency, wire, List.forall_mem_cons, legalEvent, decodeCommand_frequency8,
    decodeCommand_frequency16, below_val]
  match bank with
  | 0 | 1 => simp

/-- The two words of a phase, with their hold flags, are what R55 and R56 list. -/
theorem wire_phase_legal {bank : Fin 4} {value : Value} {writes : List (RegisterWrite Config.params.addrWidth)}
    (hs : splitPhase (ε := TransportErrorPayload) value (Config.params.phaseBase bank) = .ok writes) :
    ∀ e ∈ wire (atomWords Config.params writes), legalEvent e = true := by
  obtain rfl := eq_of_splitPhase_ok hs
  simp only [atomWords_cons, atomWords_nil, RegisterWrite.word, wire, List.forall_mem_cons, legalEvent,
    decodeCommand_phase8 _ _ (phaseHighByte_of_nibble _), decodeCommand_phase16, below_val]
  match bank with
  | 0 | 1 | 2 | 3 => simp

/-- The control word of a legal mirror, with hold 0, is what R57 to R59 list. -/
theorem wire_control_legal {which : ControlMirror} {v : CommandWord} (h : legalMirror which v) :
    ∀ e ∈ wire [encodeControlWord which v], legalEvent e = true := by
  simp only [wire, List.forall_mem_singleton]
  cases which with
  | outputControl => rcases h with rfl | rfl | rfl <;> decide
  | bankSelect =>
    obtain ⟨f, b, rfl⟩ := bankSelect_cases v h
    rw [legalEvent, decodeCommand_bankSelect]
    rfl
  | syncSource =>
    obtain ⟨x, rfl⟩ := syncSource_cases v h
    rw [legalEvent, decodeCommand_syncSourceSelect]
    rfl

theorem State.LegalAtom.wire_legal {s : State} {words : List CommandWord} (h : s.LegalAtom words)
    (hm : ∀ which, legalMirror which (s.mirror which)) : ∀ e ∈ wire words, legalEvent e = true := by
  rcases h with ⟨bank, value, rfl⟩ | ⟨bank, value, writes, hs, rfl⟩ | ⟨which, rfl⟩
  · exact wire_frequency_legal bank value
  · exact wire_phase_legal hs
  · exact wire_control_legal (hm which)

/-- A legal atom has one to four words (R149). -/
theorem State.LegalAtom.length {s : State} {words : List CommandWord} (h : s.LegalAtom words) :
    0 < words.length ∧ words.length ≤ 4 := by
  rcases State.legalAtom_iff.mp h with hd | ⟨which, rfl⟩
  · have := hd.length
    omega
  · simp

/-! ## The invariant of the block (R13 to R15, R18, R19, R62, R128) -/

/-- The part of the invariant that does not depend on where the sequencer stands. -/
structure State.Sound (s : State) : Prop where
  mirrors : ∀ which : ControlMirror, legalMirror which (s.mirror which)
  wireLegal : ∀ e ∈ s.trace, legalEvent e = true
  slots : Memory.wf s.chip.slots = true

theorem State.Inv.sound {s : State} (h : s.Inv) : s.Sound := ⟨h.mirrors, h.wireLegal, h.slots⟩

/-- In an idle block the invariant is its sequencer-free part. -/
theorem State.Sound.inv {s : State} (h : s.Sound) (hb : s.seqBusy = false) (ha : s.awaiting = false)
    (hp : s.pendingCommit = none) : s.Inv where
  mirrors := h.mirrors
  sending hb' := by cases hb.symm.trans hb'
  idle _ := ha
  noPending := hp
  wireLegal := h.wireLegal
  slots := h.slots

theorem State.Sound.finish {s : State} (h : s.Sound) (r : OpResult) : (s.finish r).Inv :=
  State.Sound.inv ⟨h.mirrors, h.wireLegal, h.slots⟩ rfl rfl rfl

theorem State.Sound.commit {s : State} (h : s.Sound) {m : MirrorWrite} (hm : legalMirror m.mirror m.value) :
    (s.commit m).Sound where
  mirrors which := by
    rw [State.commit_mirror]
    split
    · rename_i e; rw [e]; exact hm
    · exact h.mirrors which
  wireLegal := by rw [State.commit_trace]; exact h.wireLegal
  slots := by rw [State.commit_chip]; exact h.slots

/-- An operation starts with its whole atom in the buffer (R19, R128). -/
theorem State.Sound.loadAtom {s : State} (h : s.Sound) (hp : s.pendingCommit = none) {words : List CommandWord}
    (hw : s.LegalAtom words) : (s.loadAtom words).Inv where
  mirrors := h.mirrors
  sending _ := by
    obtain ⟨hpos, hlen⟩ := hw.length
    rw [State.loadAtom_atom s hlen, State.loadAtom_seqLen_toNat s hlen]
    exact ⟨hw, rfl, hpos⟩
  idle hb := by cases hb
  noPending := hp
  wireLegal := h.wireLegal
  slots := h.slots

/-- Every transition of R128 keeps the invariant. -/
theorem State.Inv.move {s t : State} (h : s.Inv) (hm : s.Move Config.params t) : t.Inv := by
  have hb := hm.seqBusy
  cases hm with
  | @present w hw =>
    obtain ⟨hatom, hlen, hlt⟩ := h.sending hb
    exact {
      mirrors := h.mirrors
      sending := fun _ => ⟨hatom, hlen, hlt⟩
      idle := fun hi => by cases hb.symm.trans hi
      noPending := h.noPending
      wireLegal := List.forall_mem_append.mpr ⟨h.wireLegal,
        List.forall_mem_singleton.mpr (hatom.wire_legal h.mirrors _ (State.presented_mem_wire hw hlen))⟩
      slots := h.slots }
  | next hw ha hans hlt =>
    obtain ⟨hatom, hlen, -⟩ := h.sending hb
    exact {
      mirrors := h.mirrors
      sending := fun _ => ⟨hatom, hlen, (seqIdx_succ_toNat hlt).trans_lt hlt⟩
      idle := fun _ => rfl
      noPending := h.noPending
      wireLegal := h.wireLegal
      slots := h.slots }
  | @complete w rest hw ha hans hlast =>
    rw [State.commitPending_none { s with answers := rest } h.noPending]
    refine State.Sound.finish ?_ _
    exact ⟨h.mirrors, h.wireLegal, ChipShadow.wf_takeAtom _ _ _ h.slots⟩
  | abort hw =>
    refine State.Sound.finish ?_ _
    exact ⟨h.mirrors, h.wireLegal, ChipShadow.wf_loseAtom _ _ _ h.slots⟩

theorem State.LegalAtom.ne_nil {s : State} {words : List CommandWord} (h : s.LegalAtom words) : words ≠ [] :=
  List.length_pos_iff.mp h.length.1

theorem State.Sound.transmit {s : State} (h : s.Sound) (hp : s.pendingCommit = none) {words : List CommandWord}
    (hw : s.LegalAtom words) : (s.transmit words).Inv :=
  State.transmit_keeps (fun _ _ => State.Inv.move) hw.ne_nil (h.loadAtom hp hw)

/-- The control word a commit is followed by carries the mirror as it then stands (R147). -/
theorem State.commit_legalAtom (s : State) (m : MirrorWrite) :
    (s.commit m).LegalAtom [encodeControlWord m.mirror m.value] := by
  have h := (s.commit m).controlWord_legal m.mirror
  rwa [State.commit_mirror, if_pos rfl] at h

theorem State.Sound.runs {s t : State} {i : Instr} (h : s.Sound) (hp : s.pendingCommit = none) (hr : s.Runs i t) :
    t.Inv := by
  cases hr with
  | refused e => exact h.finish _
  | data hw => exact h.transmit hp (hw.legal s)
  | @control m hfamily hvalue =>
    have hlegal := mirrorValue_iff_legal.mp (hvalue (mirrorValue_iff_legal.mpr (h.mirrors m.mirror)))
    exact (h.commit hlegal).transmit (by rwa [State.commit_pendingCommit]) (s.commit_legalAtom m)

/-- The state after reset has the invariant, whatever stands in `res_payload`. -/
theorem resetWith_inv (payload : TransportErrorPayload) : (State.resetWith Config.params payload).Inv :=
  State.Sound.inv
    { mirrors := fun which => by
        cases which
        · exact (Params.MirrorValue.reset .outputControl).legal
        · exact (Params.MirrorValue.reset .bankSelect).legal
        · exact (Params.MirrorValue.reset .syncSource).legal
      wireLegal := fun _ he => by cases he
      slots := rfl } rfl rfl rfl

/-- Settles O52: the transitions of the sequencer keep the invariant, and an operation starts with legal mirrors and a
whole atom. -/
theorem stepKeepsTheInvariant : Obligations.StepKeepsTheInvariant := by
  intro s t hs h
  obtain ⟨hmirrors, hwire, hslots⟩ := hs.sound
  cases step_cases h with
  | visit hb => exact State.sendWord_keeps (fun _ _ => State.Inv.move) s hs
  | attach hb hl =>
    refine State.Sound.transmit ?_ ?_ (State.controlWord_legal _ .outputControl)
    · exact ⟨hmirrors, hwire, hslots⟩
    · rfl
  | idle hb hi => exact hs
  | request hb hl hi hd hr =>
    refine State.Sound.runs ?_ ?_ hr
    · exact ⟨hmirrors, hwire, hslots⟩
    · rfl
  | reserved hb =>
    refine State.Sound.finish ?_ _
    exact ⟨hmirrors, hwire, hslots⟩
  | detach hb => exact State.Sound.inv ⟨hmirrors, hwire, hslots⟩ hb (hs.idle hb) hs.noPending
  | reattach hb hl =>
    obtain ⟨hmirrors, hwire, hslots⟩ := (resetWith_inv s.resPayload).sound
    exact State.Sound.inv ⟨hmirrors, hwire, hslots⟩ rfl rfl rfl

/-! ## The shadow's control registers (R22, R199) -/

theorem ChipShadow.register_setRegister (c : ChipShadow) (r which : ControlMirror) (v : Option CommandWord) :
    (c.setRegister r v).register which = if which = r then v else c.register which := by
  cases r <;> cases which <;> rfl

section OtherTarget

variable {which : ControlMirror}

/-- A word that does not go to a control register leaves the chip's copy of it when it is taken. -/
theorem ChipShadow.register_take {w : CommandWord} (h : ∀ v, chipTarget w ≠ some (.register which v))
    (c : ChipShadow) : (c.take w).register which = c.register which := by
  unfold ChipShadow.take
  split
  · cases which <;> rfl
  · rename_i r v ht
    rw [ChipShadow.register_setRegister, if_neg]
    rintro rfl
    exact h v ht
  · rfl

/-- A word that does not go to a control register leaves the chip's copy of it when it is lost. -/
theorem ChipShadow.register_lose {w : CommandWord} (h : ∀ v, chipTarget w ≠ some (.register which v))
    (c : ChipShadow) : (c.lose w).register which = c.register which := by
  unfold ChipShadow.lose
  split
  · cases which <;> rfl
  · rename_i r v ht
    rw [ChipShadow.register_setRegister, if_neg]
    rintro rfl
    exact h v ht
  · rfl

theorem ChipShadow.register_takeAtom {words : List CommandWord}
    (h : ∀ w ∈ words, ∀ v, chipTarget w ≠ some (.register which v)) (c : ChipShadow) :
    (c.takeAtom words).register which = c.register which := by
  induction words generalizing c with
  | nil => rfl
  | cons w rest ih =>
    obtain ⟨hw, hrest⟩ := List.forall_mem_cons.mp h
    rw [ChipShadow.takeAtom_cons, ih hrest, ChipShadow.register_take hw]

theorem ChipShadow.register_loseAtom {words : List CommandWord}
    (h : ∀ w ∈ words, ∀ v, chipTarget w ≠ some (.register which v)) (c : ChipShadow) :
    (c.loseAtom words).register which = c.register which := by
  induction words generalizing c with
  | nil => rfl
  | cons w rest ih =>
    obtain ⟨hw, hrest⟩ := List.forall_mem_cons.mp h
    rw [ChipShadow.loseAtom_cons, ih hrest, ChipShadow.register_lose hw]

end OtherTarget

/-- The control word of a legal mirror goes to the chip's copy of it and carries its value. -/
theorem legalMirror.chipTarget {which : ControlMirror} {v : CommandWord} (h : legalMirror which v) :
    chipTarget (encodeControlWord which v) = some (.register which v) :=
  chipTarget_control which v ((mirrorValue_iff_legal.mpr h).unowned.trans (params_unownedBits which))

/-- A control word taken is known. -/
theorem ChipShadow.register_takeAtom_control {which : ControlMirror} {v : CommandWord} (h : legalMirror which v)
    (c : ChipShadow) : (c.takeAtom [encodeControlWord which v]).register which = some v := by
  rw [ChipShadow.takeAtom_cons, ChipShadow.takeAtom_nil, ChipShadow.take, h.chipTarget]
  exact (c.register_setRegister which which _).trans (if_pos rfl)

/-- A control word lost leaves its register unknown (R198). -/
theorem ChipShadow.register_loseAtom_control {which : ControlMirror} {v : CommandWord} (h : legalMirror which v)
    (c : ChipShadow) : (c.loseAtom [encodeControlWord which v]).register which = none := by
  rw [ChipShadow.loseAtom_cons, ChipShadow.loseAtom_nil, ChipShadow.lose, h.chipTarget]
  exact (c.register_setRegister which which _).trans (if_pos rfl)

/-- The word of a split element goes to its slot. -/
theorem RegisterWrite.chipTarget_word (t : RegisterWrite Config.params.addrWidth)
    (h : t.code = .frequency8 ∨ t.code = .frequency16 ∨ (t.code = .phase8 ∧ phaseHighByte t.byte = true)
      ∨ t.code = .phase16) : chipTarget (t.word Config.params) = some (.slot t.address.val t.byte) := by
  obtain ⟨code, a, b⟩ := t
  rcases h with rfl | rfl | ⟨rfl, hb⟩ | rfl
  · exact chipTarget_frequency8 a b
  · exact chipTarget_frequency16 a b
  · exact chipTarget_phase8 a b hb
  · exact chipTarget_phase16 a b

/-- Every word of a data atom goes to a slot of the register space (R30). -/
theorem DataAtom.chipTarget {words : List CommandWord} (h : DataAtom words) :
    ∀ w ∈ words, ∃ a b, chipTarget w = some (.slot a b) := by
  intro w hw
  rcases h with ⟨bank, value, rfl⟩ | ⟨bank, value, writes, hs, rfl⟩
  · obtain ⟨t, ht, rfl⟩ := List.mem_map.mp hw
    exact ⟨_, _, t.chipTarget_word ((code_of_mem_splitFrequency ht).imp_right .inl)⟩
  · obtain ⟨t, ht, rfl⟩ := List.mem_map.mp hw
    exact ⟨_, _, t.chipTarget_word (.inr (.inr (code_of_mem_splitPhase hs ht)))⟩

/-- A legal atom goes to a control register only if it is the control word of that mirror. -/
theorem State.LegalAtom.chipTarget_ne {s : State} {words : List CommandWord} {which : ControlMirror}
    (h : s.LegalAtom words) (hm : ∀ which, legalMirror which (s.mirror which))
    (hne : words ≠ [encodeControlWord which (s.mirror which)]) :
    ∀ w ∈ words, ∀ v, chipTarget w ≠ some (.register which v) := by
  intro w hw v hv
  rcases State.legalAtom_iff.mp h with hd | ⟨r, rfl⟩
  · obtain ⟨a, b, hslot⟩ := hd.chipTarget w hw
    cases hslot.symm.trans hv
  · obtain rfl := List.mem_singleton.mp hw
    cases (hm r).chipTarget.symm.trans hv
    exact hne rfl

/-! ## Agreement of shadow and mirrors (R199) -/

/-- What is known of a control register is what the mirror holds, with no word in flight to make an exception for. -/
def State.ShadowSettled (s : State) : Prop :=
  ∀ which : ControlMirror, s.chip.register which = none ∨ s.chip.register which = some (s.mirror which)

theorem State.ShadowSettled.agrees {s : State} (h : s.ShadowSettled) : s.ShadowAgrees :=
  fun which => (h which).imp_right .inl

theorem State.ShadowAgrees.settled {s : State} (h : s.ShadowAgrees) (hb : s.seqBusy = false) : s.ShadowSettled := by
  intro which
  rcases h which with hnone | hsome | ⟨hbusy, -⟩
  · exact .inl hnone
  · exact .inr hsome
  · cases hb.symm.trans hbusy

/-- Once the atom in flight has been taken or lost, the exception for its register is gone. -/
theorem State.ShadowAgrees.settled_after {s t : State} (h : s.ShadowAgrees)
    (hmirror : ∀ which, t.mirror which = s.mirror which)
    (hsent : ∀ which, s.atom = [encodeControlWord which (s.mirror which)] →
      t.chip.register which = none ∨ t.chip.register which = some (s.mirror which))
    (hother : ∀ which, s.atom ≠ [encodeControlWord which (s.mirror which)] →
      t.chip.register which = s.chip.register which) : t.ShadowSettled := by
  intro which
  rw [hmirror]
  by_cases hatom : s.atom = [encodeControlWord which (s.mirror which)]
  · exact hsent which hatom
  · rw [hother which hatom]
    rcases h which with hnone | hsome | ⟨-, hatom'⟩
    · exact .inl hnone
    · exact .inr hsome
    · exact absurd hatom' hatom

/-- Every transition of R128 keeps the agreement. -/
theorem State.ShadowAgrees.move {s t : State} (h : s.ShadowAgrees) (hs : s.Inv) (hm : s.Move Config.params t) :
    t.ShadowAgrees := by
  obtain ⟨hatom, -, -⟩ := hs.sending hm.seqBusy
  cases hm with
  | present hw => exact h
  | next hw => exact h
  | @complete w rest hw ha hans hlast =>
    rw [State.commitPending_none { s with answers := rest } hs.noPending]
    refine State.ShadowSettled.agrees (h.settled_after (fun _ => rfl) (fun which hsent => .inr ?_) fun which hne => ?_)
    · rw [State.finish_chip, hsent]
      exact ChipShadow.register_takeAtom_control (hs.mirrors which) _
    · exact ChipShadow.register_takeAtom (hatom.chipTarget_ne hs.mirrors hne) _
  | abort hw =>
    refine State.ShadowSettled.agrees (h.settled_after (fun _ => rfl) (fun which hsent => .inl ?_) fun which hne => ?_)
    · rw [State.raise_chip, hsent]
      exact ChipShadow.register_loseAtom_control (hs.mirrors which) _
    · exact ChipShadow.register_loseAtom (hatom.chipTarget_ne hs.mirrors hne) _

/-- The agreement rests on the invariant, so the transitions keep the two together. -/
theorem State.Inv.move_agrees {s t : State} (h : s.Inv ∧ s.ShadowAgrees) (hm : s.Move Config.params t) :
    t.Inv ∧ t.ShadowAgrees := by
  obtain ⟨hs, ha⟩ := h
  exact ⟨hs.move hm, ha.move hs hm⟩

/-- A transmission of a legal atom keeps the agreement from the load of the atom on. -/
theorem State.ShadowAgrees.transmit {s : State} {words : List CommandWord} (h : (s.loadAtom words).ShadowAgrees)
    (hs : s.Sound) (hp : s.pendingCommit = none) (hw : s.LegalAtom words) : (s.transmit words).ShadowAgrees :=
  (State.transmit_keeps (fun _ _ => State.Inv.move_agrees) hw.ne_nil ⟨hs.loadAtom hp hw, h⟩).2

theorem State.loadAtom_mirror (s : State ε) (words : List CommandWord) (which : ControlMirror) :
    (s.loadAtom words).mirror which = s.mirror which := rfl

/-- A mirror just written is the one whose word is in flight. -/
theorem State.ShadowSettled.commit_loadAtom {s : State} (h : s.ShadowSettled) (m : MirrorWrite) :
    ((s.commit m).loadAtom [encodeControlWord m.mirror m.value]).ShadowAgrees := by
  intro which
  rw [State.loadAtom_atom _ (by simp), State.loadAtom_chip, State.commit_chip, State.loadAtom_mirror,
    State.commit_mirror]
  split
  · rename_i hwhich
    exact .inr (.inr ⟨rfl, by rw [hwhich]⟩)
  · exact (h which).imp_right .inl

theorem State.ShadowSettled.runs {s t : State} {i : Instr} (h : s.ShadowSettled) (hs : s.Sound)
    (hp : s.pendingCommit = none) (hr : s.Runs i t) : t.ShadowAgrees := by
  cases hr with
  | refused e => exact State.ShadowSettled.agrees h
  | data hw =>
    refine State.ShadowAgrees.transmit ?_ hs hp (hw.legal s)
    exact State.ShadowSettled.agrees h
  | @control m hfamily hvalue =>
    have hlegal := mirrorValue_iff_legal.mp (hvalue (mirrorValue_iff_legal.mpr (hs.mirrors m.mirror)))
    exact (h.commit_loadAtom m).transmit (hs.commit hlegal) (by rwa [State.commit_pendingCommit])
      (s.commit_legalAtom m)

/-- Settles O56: an idle state has no exception to the agreement, a commit makes one, and the end of its transfer
removes it. -/
theorem stepKeepsTheShadowInAgreement : Obligations.StepKeepsTheShadowInAgreement := by
  intro s t hs ha h
  obtain ⟨hmirrors, hwire, hslots⟩ := hs.sound
  cases step_cases h with
  | visit hb =>
    exact (State.sendWord_keeps (fun _ _ => State.Inv.move_agrees) s ⟨hs, ha⟩).2
  | attach hb hl =>
    refine State.ShadowAgrees.transmit ?_ ?_ ?_ (State.controlWord_legal _ .outputControl)
    · exact State.ShadowSettled.agrees (ha.settled hb)
    · exact ⟨hmirrors, hwire, hslots⟩
    · rfl
  | idle hb hi => exact ha
  | request hb hl hi hd hr =>
    refine State.ShadowSettled.runs ?_ ?_ ?_ hr
    · exact ha.settled hb
    · exact ⟨hmirrors, hwire, hslots⟩
    · rfl
  | reserved hb => exact State.ShadowSettled.agrees (ha.settled hb)
  | detach hb => exact State.ShadowSettled.agrees (ha.settled hb)
  | reattach hb hl =>
    refine State.ShadowSettled.agrees fun which => .inl ?_
    cases which <;> rfl

/-! ## The slots of an atom (R22, R33) -/

section Slots

variable {writes : List (RegisterWrite Config.params.addrWidth)}

/-- What the slots hold after a data word has been taken. -/
theorem ChipShadow.read_take {w : CommandWord} {a : Nat} {v : Byte} (h : chipTarget w = some (.slot a v))
    (c : ChipShadow) (b : Nat) :
    Memory.read (c.take w).slots b = if b = a then some v else Memory.read c.slots b := by
  rw [ChipShadow.take, h]
  exact Memory.read_write c.slots a b v

/-- What the slots hold after a data word has been lost (R198). -/
theorem ChipShadow.read_lose {w : CommandWord} {a : Nat} {v : Byte} (h : chipTarget w = some (.slot a v))
    (c : ChipShadow) (b : Nat) :
    Memory.read (c.lose w).slots b = if b = a then none else Memory.read c.slots b := by
  rw [ChipShadow.lose, h]
  exact Memory.read_forget c.slots a b

/-- Every element of a split has a word that goes to its slot. -/
def ToSlots (writes : List (RegisterWrite Config.params.addrWidth)) : Prop :=
  ∀ t ∈ writes, chipTarget (t.word Config.params) = some (.slot t.address.val t.byte)

theorem splitFrequency_toSlots (value : Value) (base : { a : Config.params.Address // 3 ≤ a.val }) :
    ToSlots (splitFrequency value base) :=
  fun t ht => t.chipTarget_word ((code_of_mem_splitFrequency ht).imp_right .inl)

theorem splitPhase_toSlots {value : Value} {base : { a : Config.params.Address // 1 ≤ a.val }}
    (hs : splitPhase (ε := TransportErrorPayload) value base = .ok writes) : ToSlots writes :=
  fun t ht => t.chipTarget_word (.inr (.inr (code_of_mem_splitPhase hs ht)))

/-- An atom taken leaves every slot it does not go to. -/
theorem read_takeAtom_of_ne (hslot : ToSlots writes) {a : Nat} (ha : ∀ t ∈ writes, t.address.val ≠ a)
    (c : ChipShadow) : Memory.read (c.takeAtom (atomWords Config.params writes)).slots a = Memory.read c.slots a := by
  induction writes generalizing c with
  | nil => rfl
  | cons t rest ih =>
    obtain ⟨ht, hrest⟩ := List.forall_mem_cons.mp hslot
    obtain ⟨hta, hresta⟩ := List.forall_mem_cons.mp ha
    rw [atomWords_cons, ChipShadow.takeAtom_cons, ih hrest hresta, ChipShadow.read_take ht, if_neg (Ne.symm hta)]

/-- An atom taken writes each of its bytes, where no later word goes to the same slot. -/
theorem read_takeAtom_of_mem (hslot : ToSlots writes) (hne : writes.Pairwise fun t u => u.address.val ≠ t.address.val)
    {t : RegisterWrite Config.params.addrWidth} (ht : t ∈ writes) (c : ChipShadow) :
    Memory.read (c.takeAtom (atomWords Config.params writes)).slots t.address.val = some t.byte := by
  induction writes generalizing c with
  | nil => cases ht
  | cons u rest ih =>
    obtain ⟨hu, hrest⟩ := List.forall_mem_cons.mp hslot
    obtain ⟨hune, hrestne⟩ := List.pairwise_cons.mp hne
    rw [atomWords_cons, ChipShadow.takeAtom_cons]
    rcases List.mem_cons.mp ht with rfl | ht
    · rw [read_takeAtom_of_ne hrest hune, ChipShadow.read_take hu, if_pos rfl]
    · exact ih hrest hrestne ht _

/-- An atom lost leaves every slot it does not go to. -/
theorem read_loseAtom_of_ne (hslot : ToSlots writes) {a : Nat} (ha : ∀ t ∈ writes, t.address.val ≠ a)
    (c : ChipShadow) : Memory.read (c.loseAtom (atomWords Config.params writes)).slots a = Memory.read c.slots a := by
  induction writes generalizing c with
  | nil => rfl
  | cons t rest ih =>
    obtain ⟨ht, hrest⟩ := List.forall_mem_cons.mp hslot
    obtain ⟨hta, hresta⟩ := List.forall_mem_cons.mp ha
    rw [atomWords_cons, ChipShadow.loseAtom_cons, ih hrest hresta, ChipShadow.read_lose ht, if_neg (Ne.symm hta)]

/-- What is unknown stays unknown when an atom is lost. -/
theorem read_loseAtom_of_none (hslot : ToSlots writes) {a : Nat} {c : ChipShadow} (h : Memory.read c.slots a = none) :
    Memory.read (c.loseAtom (atomWords Config.params writes)).slots a = none := by
  induction writes generalizing c with
  | nil => exact h
  | cons t rest ih =>
    obtain ⟨ht, hrest⟩ := List.forall_mem_cons.mp hslot
    rw [atomWords_cons, ChipShadow.loseAtom_cons]
    exact ih hrest (by rw [ChipShadow.read_lose ht, h, ite_self])

/-- The slot of the first word of an atom lost is unknown (R198). -/
theorem read_loseAtom_head {t : RegisterWrite Config.params.addrWidth} (hslot : ToSlots (t :: writes))
    (c : ChipShadow) :
    Memory.read (c.loseAtom (atomWords Config.params (t :: writes))).slots t.address.val = none := by
  obtain ⟨ht, hrest⟩ := List.forall_mem_cons.mp hslot
  rw [atomWords_cons, ChipShadow.loseAtom_cons]
  exact read_loseAtom_of_none hrest (by rw [ChipShadow.read_lose ht, if_pos rfl])

end Slots

/-! ## The banks (R32, R33) -/

/-- The two frequency bases stand four apart from 0x3 on. -/
theorem params_freqBase (b : Fin 2) : (Config.params.freqBase b).1.val = 3 + 4 * b.val := by
  revert b; decide

/-- The addresses of a frequency bank: four down from its base. -/
def InFrequencyBank (bank : Fin 2) (a : Nat) : Prop :=
  a ≤ (Config.params.freqBase bank).1.val ∧ (Config.params.freqBase bank).1.val ≤ a + 3

/-- The addresses of a phase bank: two down from its base. -/
def InPhaseBank (bank : Fin 4) (a : Nat) : Prop :=
  a ≤ (Config.params.phaseBase bank).1.val ∧ (Config.params.phaseBase bank).1.val ≤ a + 1

/-! No address belongs to two banks (R7 item 3). -/

theorem InFrequencyBank.unique {bank other : Fin 2} {a : Nat} (h : InFrequencyBank bank a)
    (h' : InFrequencyBank other a) : other = bank := by
  simp only [InFrequencyBank, params_freqBase] at h h'
  omega

theorem InPhaseBank.unique {bank other : Fin 4} {a : Nat} (h : InPhaseBank bank a) (h' : InPhaseBank other a) :
    other = bank := by
  simp only [InPhaseBank, params_phaseBase] at h h'
  omega

theorem InFrequencyBank.not_inPhaseBank {bank : Fin 2} {other : Fin 4} {a : Nat} (h : InFrequencyBank bank a) :
    ¬ InPhaseBank other a := by
  intro h'
  simp only [InFrequencyBank, InPhaseBank, params_freqBase, params_phaseBase] at h h'
  omega

/-- The addresses of a split frequency are those of its bank (R84). -/
theorem inFrequencyBank_of_mem_split {bank : Fin 2} {value : Value} {t : RegisterWrite Config.params.addrWidth}
    (h : t ∈ splitFrequency value (Config.params.freqBase bank)) : InFrequencyBank bank t.address.val := by
  simp only [splitFrequency, List.mem_cons, List.not_mem_nil, or_false] at h
  rcases h with rfl | rfl | rfl | rfl <;> simp only [InFrequencyBank, below_val] <;> omega

/-- The addresses of a split phase are those of its bank (R84). -/
theorem inPhaseBank_of_mem_split {bank : Fin 4} {value : Value}
    {writes : List (RegisterWrite Config.params.addrWidth)} {t : RegisterWrite Config.params.addrWidth}
    (hs : splitPhase (ε := TransportErrorPayload) value (Config.params.phaseBase bank) = .ok writes) (h : t ∈ writes) :
    InPhaseBank bank t.address.val := by
  obtain rfl := eq_of_splitPhase_ok hs
  simp only [List.mem_cons, List.not_mem_nil, or_false] at h
  rcases h with rfl | rfl <;> simp only [InPhaseBank, below_val] <;> omega

/-- A frequency bank is what its four slots hold. -/
theorem ChipShadow.frequency_congr {c c' : ChipShadow} {bank : Fin 2}
    (h : ∀ a, InFrequencyBank bank a → Memory.read c'.slots a = Memory.read c.slots a) :
    c'.frequency bank = c.frequency bank := by
  have hin : ∀ k, k ≤ 3 → InFrequencyBank bank ((Config.params.freqBase bank).1.val - k) := fun k hk => by
    unfold InFrequencyBank
    omega
  have h0 := h _ (hin 0 (by omega))
  rw [Nat.sub_zero] at h0
  simp only [ChipShadow.frequency]
  rw [h0, h _ (hin 1 (by omega)), h _ (hin 2 (by omega)), h _ (hin 3 (by omega))]

/-- A phase bank is what its two slots hold. -/
theorem ChipShadow.phase_congr {c c' : ChipShadow} {bank : Fin 4}
    (h : ∀ a, InPhaseBank bank a → Memory.read c'.slots a = Memory.read c.slots a) :
    c'.phase bank = c.phase bank := by
  have hin : ∀ k, k ≤ 1 → InPhaseBank bank ((Config.params.phaseBase bank).1.val - k) := fun k hk => by
    unfold InPhaseBank
    omega
  have h0 := h _ (hin 0 (by omega))
  rw [Nat.sub_zero] at h0
  simp only [ChipShadow.phase]
  rw [h0, h _ (hin 1 (by omega))]

/-- The four bytes of a frequency, most significant first, make it up again (R83). -/
theorem frequencyBytes_append (value : Value) :
    value.extractLsb' 24 8 ++ value.extractLsb' 16 8 ++ value.extractLsb' 8 8 ++ value.extractLsb' 0 8 = value := by
  simp only [BitVec.extractLsb'_append_extractLsb'_eq_extractLsb', BitVec.extractLsb'_eq_self]

/-- The two bytes of a phase make it up again (R83). -/
theorem phaseBytes_append (value : Value) :
    ((value.extractLsb' 8 4).setWidth 8).extractLsb' 0 4 ++ value.extractLsb' 0 8 = value.setWidth 12 := by
  rw [BitVec.extractLsb'_setWidth_of_le (by decide), BitVec.extractLsb'_eq_self,
    BitVec.setWidth_eq_extractLsb' (by decide)]
  simp only [BitVec.extractLsb'_append_extractLsb'_eq_extractLsb']

/-- A frequency bank is known after its atom has been taken (R22). -/
theorem ChipShadow.frequency_takeAtom (c : ChipShadow) (bank : Fin 2) (value : Value) :
    (c.takeAtom (atomWords Config.params (splitFrequency value (Config.params.freqBase bank)))).frequency bank
      = some value := by
  have hread := fun {t} ht => read_takeAtom_of_mem (t := t) (splitFrequency_toSlots value (Config.params.freqBase bank))
    (by have := (Config.params.freqBase bank).2; simp [splitFrequency]; omega) ht c
  have h0 := hread (.head _)
  have h1 := hread (.tail _ (.head _))
  have h2 := hread (.tail _ (.tail _ (.head _)))
  have h3 := hread (.tail _ (.tail _ (.tail _ (.head _))))
  simp only [below_val] at h0 h1 h2 h3
  simp only [ChipShadow.frequency, h0, h1, h2, h3, frequencyBytes_append]

/-- A frequency bank is unknown after its atom has been lost (R198). -/
theorem ChipShadow.frequency_loseAtom (c : ChipShadow) (bank : Fin 2) (value : Value) :
    (c.loseAtom (atomWords Config.params (splitFrequency value (Config.params.freqBase bank)))).frequency bank
      = none := by
  have h := read_loseAtom_head (splitFrequency_toSlots value (Config.params.freqBase bank)) c
  simp only at h
  simp only [ChipShadow.frequency]
  rw [splitFrequency, h]

/-- A phase bank is known after its atom has been taken (R22). -/
theorem ChipShadow.phase_takeAtom (c : ChipShadow) {bank : Fin 4} {value : Value}
    {writes : List (RegisterWrite Config.params.addrWidth)}
    (hs : splitPhase (ε := TransportErrorPayload) value (Config.params.phaseBase bank) = .ok writes) :
    (c.takeAtom (atomWords Config.params writes)).phase bank = some (value.setWidth 12) := by
  have hslot := splitPhase_toSlots hs
  obtain rfl := eq_of_splitPhase_ok hs
  have hread := fun {t} ht => read_takeAtom_of_mem (t := t) hslot
    (by have := (Config.params.phaseBase bank).2; simp; omega) ht c
  have h0 := hread (.head _)
  have h1 := hread (.tail _ (.head _))
  simp only [below_val] at h0 h1
  simp only [ChipShadow.phase, h0, h1, phaseBytes_append]

/-- A phase bank is unknown after its atom has been lost (R198). -/
theorem ChipShadow.phase_loseAtom (c : ChipShadow) {bank : Fin 4} {value : Value}
    {writes : List (RegisterWrite Config.params.addrWidth)}
    (hs : splitPhase (ε := TransportErrorPayload) value (Config.params.phaseBase bank) = .ok writes) :
    (c.loseAtom (atomWords Config.params writes)).phase bank = none := by
  have hslot := splitPhase_toSlots hs
  obtain rfl := eq_of_splitPhase_ok hs
  have h := read_loseAtom_head hslot c
  simp only at h
  simp only [ChipShadow.phase, h]

/-! ## The end of a transfer (R22, R198) -/

/-- A state on the way of an atom, or at its end: while it is in flight the chip is as it was before; at the end the
chip has taken the whole atom if the result is `OK` and has lost it otherwise. -/
structure State.Carries (c : ChipShadow) (words : List CommandWord) (s : State) : Prop where
  inFlight : s.seqBusy = true → s.atom = words ∧ s.chip = c
  ended : s.seqBusy = false →
    (s.resKind = .ok ∧ s.chip = c.takeAtom words) ∨ (s.resKind ≠ .ok ∧ s.chip = c.loseAtom words)

theorem State.Carries.move {c : ChipShadow} {words : List CommandWord} {s t : State} (h : s.Carries c words)
    (hm : s.Move Config.params t) : t.Carries c words := by
  cases hm with
  | present hw => exact ⟨h.inFlight, h.ended⟩
  | next hw => exact ⟨h.inFlight, h.ended⟩
  | complete hw =>
    obtain ⟨rfl, rfl⟩ := h.inFlight (State.seqBusy_of_currentWord? hw)
    exact ⟨Bool.noConfusion, fun _ => .inl ⟨rfl, rfl⟩⟩
  | abort hw =>
    obtain ⟨rfl, rfl⟩ := h.inFlight (State.seqBusy_of_currentWord? hw)
    exact ⟨Bool.noConfusion, fun _ => .inr ⟨ResKind.noConfusion, rfl⟩⟩

theorem State.transmit_carries (s : State) {words : List CommandWord} (hw : DataAtom words) :
    (s.transmit words).Carries s.chip words := by
  refine State.transmit_keeps (fun _ _ => State.Carries.move) hw.ne_nil
    ⟨fun _ => ⟨s.loadAtom_atom ?_, rfl⟩, Bool.noConfusion⟩
  have := hw.length
  omega

section Ended

variable {c : ChipShadow} {s : State}

theorem State.Carries.chip_of_ok {words : List CommandWord} (h : s.Carries c words) (hb : s.seqBusy = false)
    (hok : s.resKind = .ok) : s.chip = c.takeAtom words := by
  rcases h.ended hb with ⟨-, e⟩ | ⟨hne, -⟩
  · exact e
  · exact absurd hok hne

theorem State.Carries.chip_of_not_ok {words : List CommandWord} (h : s.Carries c words) (hb : s.seqBusy = false)
    (hne : s.resKind ≠ .ok) : s.chip = c.loseAtom words := by
  rcases h.ended hb with ⟨hok, -⟩ | ⟨-, e⟩
  · exact absurd hok hne
  · exact e

/-- Taken or lost, an atom leaves every slot it does not go to. -/
theorem State.Carries.read_of_ne {writes : List (RegisterWrite Config.params.addrWidth)}
    (h : s.Carries c (atomWords Config.params writes)) (hb : s.seqBusy = false) (hslot : ToSlots writes) {a : Nat}
    (ha : ∀ t ∈ writes, t.address.val ≠ a) : Memory.read s.chip.slots a = Memory.read c.slots a := by
  rcases h.ended hb with ⟨-, e⟩ | ⟨-, e⟩
  · rw [e, read_takeAtom_of_ne hslot ha]
  · rw [e, read_loseAtom_of_ne hslot ha]

end Ended

/-- A `setFrequency` to a bank is the transfer of its four words (R141). -/
theorem exec_setFrequency_next {s t : State} {bank : Fin 2} {value : Value}
    (h : exec (.setFrequency bank.val value) s = .next t) :
    t = State.transmit { s with seqBusy := true, pendingCommit := none }
      (atomWords Config.params (splitFrequency value (Config.params.freqBase bank))) := by
  obtain ⟨-, -, rfl⟩ := acceptRequest_next.mp h
  rw [setFrequencyOp, frequencyBankOperand, dif_pos bank.isLt]
  rfl

/-- A `setPhase` of a legal value to a bank is the transfer of its two words (R142). -/
theorem exec_setPhase_next {s t : State} {bank : Fin 4} {value : Value} (hv : value.toNat ≤ 4095)
    (h : exec (.setPhase bank.val value) s = .next t) :
    ∃ writes, splitPhase (ε := TransportErrorPayload) value (Config.params.phaseBase bank) = .ok writes
      ∧ t = State.transmit { s with seqBusy := true, pendingCommit := none } (atomWords Config.params writes) := by
  obtain ⟨-, -, rfl⟩ := acceptRequest_next.mp h
  rcases splitPhase_cases (ε := TransportErrorPayload) Config.params value (Config.params.phaseBase bank) with
    ⟨hge, -⟩ | ⟨-, writes, hs, -⟩
  · omega
  · refine ⟨writes, hs, ?_⟩
    rw [setPhaseOp, phaseBankOperand, dif_pos bank.isLt]
    simp only [Fin.eta, hs]
    rfl

/-- Settles O30: at its end the atom of a frequency has been taken or lost as a whole, and it goes to the slots of its
own bank only. -/
theorem shadowKnowsTheFrequencySent : Obligations.ShadowKnowsTheFrequencySent := by
  intro s t bank val h hb
  have hcarries := State.transmit_carries { s with seqBusy := true, pendingCommit := none }
    (dataAtom_frequency bank val)
  rw [← exec_setFrequency_next h] at hcarries
  have hframe : ∀ a, ¬ InFrequencyBank bank a → Memory.read t.chip.slots a = Memory.read s.chip.slots a := fun a ha =>
    hcarries.read_of_ne hb (splitFrequency_toSlots _ _) fun u hu e => ha (e ▸ inFrequencyBank_of_mem_split hu)
  refine ⟨fun hok => ?_, fun hne => ?_, fun other hother => ?_, fun other => ?_⟩
  · rw [hcarries.chip_of_ok hb hok]
    exact ChipShadow.frequency_takeAtom _ bank val
  · rw [hcarries.chip_of_not_ok hb hne]
    exact ChipShadow.frequency_loseAtom _ bank val
  · exact ChipShadow.frequency_congr fun a ha => hframe a fun ha' => hother (ha'.unique ha)
  · exact ChipShadow.phase_congr fun a ha => hframe a fun ha' => ha'.not_inPhaseBank ha

/-- Settles O31: the same of the atom of a phase. -/
theorem shadowKnowsThePhaseSent : Obligations.ShadowKnowsThePhaseSent := by
  intro s t bank val hv h hb
  obtain ⟨writes, hs, ht⟩ := exec_setPhase_next hv h
  have hcarries := State.transmit_carries { s with seqBusy := true, pendingCommit := none } (dataAtom_phase hs)
  rw [← ht] at hcarries
  have hframe : ∀ a, ¬ InPhaseBank bank a → Memory.read t.chip.slots a = Memory.read s.chip.slots a := fun a ha =>
    hcarries.read_of_ne hb (splitPhase_toSlots hs) fun u hu e => ha (e ▸ inPhaseBank_of_mem_split hs hu)
  refine ⟨fun hok => ?_, fun hne => ?_, fun other hother => ?_, fun other => ?_⟩
  · rw [hcarries.chip_of_ok hb hok]
    exact ChipShadow.phase_takeAtom _ hs
  · rw [hcarries.chip_of_not_ok hb hne]
    exact ChipShadow.phase_loseAtom _ hs
  · exact ChipShadow.phase_congr fun a ha => hframe a fun ha' => hother (ha'.unique ha)
  · exact ChipShadow.frequency_congr fun a ha => hframe a fun ha' => ha.not_inPhaseBank ha'

/-! ## Reset (R25) -/

/-- Settles O47: the fields one by one; the shadow and the slots for every register and every address. -/
theorem resetLeavesTheSpecsValues : Obligations.ResetLeavesTheSpecsValues := by
  refine ⟨rfl, rfl, rfl, rfl, rfl, rfl, rfl, rfl, rfl, ?_, ?_⟩
  · intro which
    cases which <;> rfl
  · intro a
    exact Memory.read_nil a

/-- Settles O54: nothing is on the wire, nothing in flight, nothing known and no result yet. -/
theorem resetMeetsTheInvariant : Obligations.ResetMeetsTheInvariant := by
  refine ⟨resetWith_inv _, fun hb => ?_, fun which => .inl ?_, ?_⟩
  · cases hb
  · cases which <;> rfl
  · exact (rfl : ResKind.ok = .ok)

end Machine

end Sys2Proof
end

section
/-! PROOFS, spec/30_encoding.md. The words of the two ports. A word is the OR of shifted fields, and `field` reads such an
OR field by field (`fields_of_or`): from that come the data word (R50, R80) and the request word (R63), in every table.
Decoding and encoding are then the two directions of one correspondence, `decode_of_encode` on the one hand,
`encode_of_decodeRequest` and `encode_of_decodeCommand` on the other, and what has a word is what is well formed
(`encode_isSome`). The last parts are what the block does with a request that names no operation, and how it serves one
that does (R65, R66, R140, R172). -/

namespace Sys2Proof

/-! ## Fields of a word (R50, R63) -/

/-- The field of an OR is the OR of the fields. -/
theorem field_or (v w shift width : Nat) : field (v ||| w) shift width = field v shift width ||| field w shift width := by
  apply Nat.eq_of_testBit_eq
  intro i
  simp only [field_testBit, Nat.testBit_or, Bool.and_or_distrib_left]

theorem field_and (v w shift width : Nat) : field (v &&& w) shift width = field v shift width &&& field w shift width := by
  apply Nat.eq_of_testBit_eq
  intro i
  simp only [field_testBit, Nat.testBit_and]
  cases decide (i < width) <;> rfl

/-- A number that fits a field and is shifted to its place is the field. -/
theorem field_shiftLeft {v width : Nat} (hv : v < 2 ^ width) (shift : Nat) : field (v <<< shift) shift width = v :=
  field_eq hv fun i _ => by simp [Nat.testBit_shiftLeft]

/-- It has no bit in a field apart from its own. -/
theorem field_shiftLeft_apart {v shift width shift' width' : Nat} (hv : v < 2 ^ width)
    (h : apart shift width shift' width') : field (v <<< shift) shift' width' = 0 := by
  refine field_eq (Nat.two_pow_pos _) fun i hi => ?_
  rw [Nat.testBit_shiftLeft, Nat.zero_testBit]
  rcases h with h | h
  · rw [Nat.testBit_lt_two_pow (lt_of_lt_of_le hv (Nat.pow_le_pow_right (by decide) (by omega))), Bool.and_false]
  · rw [decide_eq_false (by omega), Bool.false_and]

/-- A number that fits a field lies within the word in which the field lies. -/
theorem shiftLeft_lt {v shift width bound : Nat} (hv : v < 2 ^ width) (h : shift + width ≤ bound) :
    v <<< shift < 2 ^ bound := by
  rw [Nat.shiftLeft_eq]
  calc v * 2 ^ shift < 2 ^ width * 2 ^ shift := Nat.mul_lt_mul_of_pos_right hv (Nat.two_pow_pos _)
    _ = 2 ^ (shift + width) := by rw [← pow_add, Nat.add_comm]
    _ ≤ 2 ^ bound := Nat.pow_le_pow_right (by decide) h

/-- Where three numbers are each shifted to a field of their own, the fields of their OR are the numbers. -/
theorem fields_of_or {n u v w shiftU widthU shiftV widthV shiftW widthW : Nat}
    (hn : n = u <<< shiftU ||| v <<< shiftV ||| w <<< shiftW)
    (hu : u < 2 ^ widthU) (hv : v < 2 ^ widthV) (hw : w < 2 ^ widthW)
    (huv : apart shiftU widthU shiftV widthV) (huw : apart shiftU widthU shiftW widthW)
    (hvw : apart shiftV widthV shiftW widthW) :
    field n shiftU widthU = u ∧ field n shiftV widthV = v ∧ field n shiftW widthW = w := by
  subst hn
  simp only [field_or]
  refine ⟨?_, ?_, ?_⟩
  · rw [field_shiftLeft hu, field_shiftLeft_apart hv huv.symm, field_shiftLeft_apart hw huw.symm, Nat.or_zero,
      Nat.or_zero]
  · rw [field_shiftLeft_apart hu huv, field_shiftLeft hv, field_shiftLeft_apart hw hvw.symm, Nat.zero_or, Nat.or_zero]
  · rw [field_shiftLeft_apart hu huw, field_shiftLeft_apart hv hvw, field_shiftLeft hw, Nat.zero_or, Nat.zero_or]

/-- A word of three adjacent fields is the OR of them, each at its place: no bit lies outside. -/
theorem eq_or_fields {w a b c : Nat} (hw : w < 2 ^ (a + b + c)) :
    field w (a + b) c <<< (a + b) ||| field w a b <<< a ||| field w 0 a <<< 0 = w := by
  apply Nat.eq_of_testBit_eq
  intro i
  simp only [Nat.testBit_or, Nat.testBit_shiftLeft, field_testBit, Nat.sub_zero, Nat.zero_add, Nat.zero_le, decide_true,
    Bool.true_and]
  by_cases ha : i < a
  · simp [ha, show ¬ a + b ≤ i by omega, show ¬ a ≤ i by omega]
  · by_cases hb : i < a + b
    · simp [ha, show ¬ a + b ≤ i by omega, show a ≤ i by omega, show i - a < b by omega]
    · by_cases hc : i < a + b + c
      · simp [ha, show a + b ≤ i by omega, show ¬ i - a < b by omega, show i - (a + b) < c by omega]
      · have hout : w.testBit i = false :=
          Nat.testBit_lt_two_pow (lt_of_lt_of_le hw (Nat.pow_le_pow_right (by decide) (by omega)))
        simp [ha, show ¬ i - a < b by omega, show ¬ i - (a + b) < c by omega, hout]

/-- Slicing a word is reading its field. -/
theorem toNat_extractLsb'_eq_field {n : Nat} (w : BitVec n) (shift width : Nat) :
    (w.extractLsb' shift width).toNat = field w.toNat shift width := by
  rw [BitVec.extractLsb'_toNat, Nat.shiftRight_eq_div_pow, field]

/-- A word with the bits `m` under a mask has the field of `m`, where the mask covers the field. -/
theorem field_of_masked {w mask m : CommandWord} (h : w &&& mask = m) (shift width : Nat)
    (hmask : field mask.toNat shift width = 2 ^ width - 1) :
    field w.toNat shift width = field m.toNat shift width := by
  rw [← h, BitVec.toNat_and, field_and, hmask, Nat.and_two_pow_sub_one_of_lt_two_pow (field_lt _ _ _)]

/-! ## The data word (R50, R80) -/

/-- A field shifted to its place in a command word loses no bit. -/
theorem toNat_ofNat_shiftLeft {v shift width : Nat} (hv : v < 2 ^ width) (h : shift + width ≤ Config.wordWidth) :
    (BitVec.ofNat 16 v <<< shift).toNat = v <<< shift := by
  have hv16 : v < 2 ^ 16 := lt_of_lt_of_le hv (Nat.pow_le_pow_right (by decide) (Nat.le_of_add_left_le h))
  rw [BitVec.toNat_shiftLeft, BitVec.toNat_ofNat, Nat.mod_eq_of_lt hv16, Nat.mod_eq_of_lt (shiftLeft_lt hv h)]

/-- The data word, as the number it is: nothing is cut off, in any table (R7 items 1 and 2, R80). -/
theorem encodeWord_toNat (p : Params) (c : CommandCode) (a : p.Address) (b : Byte) :
    (encodeWord p c a b).toNat = (p.code c).val <<< p.cmdShift ||| a.val <<< p.addrShift ||| b.toNat <<< p.dataShift := by
  obtain ⟨hcmd, haddr, hdata⟩ := p.fieldsFit
  rw [encodeWord, shiftedCode, ← BitVec.ofNat_toNat, BitVec.toNat_or, BitVec.toNat_or,
    toNat_ofNat_shiftLeft (p.code c).isLt hcmd, toNat_ofNat_shiftLeft a.isLt haddr, toNat_ofNat_shiftLeft b.isLt hdata]

/-- Settles O59: the three fields of the OR do not meet. -/
theorem dataWordFieldsInEveryTable : Obligations.DataWordFieldsInEveryTable := by
  intro p c a b
  obtain ⟨hca, hcd, had⟩ := p.fieldsApart
  obtain ⟨hcmd, haddr, hdata⟩ := fields_of_or (encodeWord_toNat p c a b) (p.code c).isLt a.isLt b.isLt hca hcd had
  exact ⟨hcmd, haddr, BitVec.eq_of_toNat_eq ((toNat_extractLsb'_eq_field _ _ _).trans hdata)⟩

/-- Settles O1: the fields are those of every table, at the default positions. -/
theorem dataWordIsItsThreeFields : Obligations.DataWordIsItsThreeFields := by
  intro c a b
  obtain ⟨hcmd, haddr, hdata⟩ := dataWordFieldsInEveryTable Config.params c a b
  refine ⟨?_, ?_, ?_, hdata⟩
  · rw [encodeWord, shiftedCode, params_dataShift, BitVec.shiftLeft_zero]
    rfl
  · rw [toNat_extractLsb'_eq_field]
    exact hcmd
  · rw [toNat_extractLsb'_eq_field]
    exact haddr

/-- A word is the data word of the code that stands in its `cmd` field (R50). -/
theorem eq_encodeWord_of_cmd {w : CommandWord} {c : CommandCode}
    (h : field w.toNat 12 4 = (Config.params.code c).val) :
    encodeWord Config.params c ⟨field w.toNat 8 4, field_lt _ _ _⟩ (w.extractLsb' 0 8) = w := by
  apply BitVec.eq_of_toNat_eq
  rw [encodeWord_toNat, toNat_extractLsb'_eq_field, ← h]
  exact eq_or_fields (a := 8) (b := 4) (c := 4) w.isLt

/-! ## What has a word (R55, R63, U3) -/

/-- In every table the terms with a word are the well-formed ones: nothing is cut off to make a word. -/
theorem encode_isSome (i : Instr) (p : Params) : (encode i p).isSome = i.wellFormed p := by
  cases i with
  | setFrequency sel | setPhase sel | setOutputEnabled sel | selectActiveFrequencyBank sel | selectActivePhaseBank sel
  | selectSyncSource sel => exact Option.isSome_map
  | phase16 addr | frequency16 addr | frequency8 addr => exact Option.isSome_map.trans Option.isSome_map
  | phase8 addr data =>
    simp only [encode, phase8Word, Instr.wellFormed]
    cases phaseHighByte data <;> simp [dataWord]
  | bankSelect | syncSourceSelect | enableControl => rfl

theorem wellFormed_of_encode {i : Instr} {w : PortWord} (h : encode i = some w) : i.wellFormed = true :=
  (encode_isSome i Config.params).symm.trans (Option.isSome_iff_exists.mpr ⟨w, h⟩)

/-- A PHASE_8 word is a data word whose byte is the high byte of a phase value (R55). -/
theorem phase8Word_eq_some {p : Params} {addr : Nat} {data : Byte} {w : CommandWord} :
    phase8Word p addr data = some w ↔ phaseHighByte data = true ∧ dataWord p .phase8 addr data = some w := by
  unfold phase8Word
  split <;> simp_all

/-! ## The request word (R63, R64) -/

/-- The request that names an operation (R64). -/
def Operation.instr (op : Operation) (sel : Nat) (val : Value) : Instr :=
  match op with
  | .setFrequency => .setFrequency sel val
  | .setPhase => .setPhase sel val
  | .setOutputEnabled => .setOutputEnabled sel val
  | .selectActiveFrequencyBank => .selectActiveFrequencyBank sel val
  | .selectActivePhaseBank => .selectActivePhaseBank sel val
  | .selectSyncSource => .selectSyncSource sel val

theorem exists_operation_of_isRequest {i : Instr} (h : Machine.isRequest i = true) :
    ∃ (op : Operation) (sel : Nat) (val : Value), i = op.instr sel val := by
  cases i with
  | setFrequency sel val => exact ⟨.setFrequency, sel, val, rfl⟩
  | setPhase sel val => exact ⟨.setPhase, sel, val, rfl⟩
  | setOutputEnabled sel val => exact ⟨.setOutputEnabled, sel, val, rfl⟩
  | selectActiveFrequencyBank sel val => exact ⟨.selectActiveFrequencyBank, sel, val, rfl⟩
  | selectActivePhaseBank sel val => exact ⟨.selectActivePhaseBank, sel, val, rfl⟩
  | selectSyncSource sel val => exact ⟨.selectSyncSource, sel, val, rfl⟩
  | phase16 | phase8 | frequency16 | frequency8 | bankSelect | syncSourceSelect | enableControl => cases h

@[simp] theorem encode_instr (op : Operation) (sel : Nat) (val : Value) (p : Params) :
    encode (op.instr sel val) p = requestWord p op sel val := by
  cases op <;> rfl

/-- A request word fits its port, in every layout. -/
theorem packRequest_lt (p : Params) (op : Operation) (sel : p.Selector) (val : Value) :
    packRequest p op sel val < 2 ^ p.request.width := by
  obtain ⟨hop, hsel, hval⟩ := p.request.fieldsFit
  exact Nat.or_lt_two_pow (Nat.or_lt_two_pow (shiftLeft_lt (p.request.op op).isLt hop) (shiftLeft_lt sel.isLt hsel))
    (shiftLeft_lt val.isLt hval)

/-- In every layout the three fields of a request word are the number of the operation, the selector and the value. -/
theorem packRequest_fields (p : Params) (op : Operation) (sel : p.Selector) (val : Value) :
    field (packRequest p op sel val) p.request.opShift p.request.opWidth = (p.request.op op).val
    ∧ field (packRequest p op sel val) p.request.selShift p.request.selWidth = sel.val
    ∧ field (packRequest p op sel val) p.request.valShift Config.freqBits = val.toNat := by
  obtain ⟨hos, hov, hsv⟩ := p.request.fieldsApart
  exact fields_of_or rfl (p.request.op op).isLt sel.isLt val.isLt hos hov hsv

/-- The request decoder, where the field `op` holds the number of an operation. -/
theorem decodeRequest_of_op {p : Params} (hc : p.request.Consistent) {w : Nat} {op : Operation}
    (h : field w p.request.opShift p.request.opWidth = (p.request.op op).val) :
    decodeRequest w p = .ok (op.instr (field w p.request.selShift p.request.selWidth)
      (BitVec.ofNat 32 (field w p.request.valShift Config.freqBits))) := by
  have hnumber : ∀ a b : Operation, (p.request.op a).val = (p.request.op b).val ↔ a = b := fun a b =>
    ⟨fun e => hc.opsDistinct a b (Fin.ext e), fun e => by rw [e]⟩
  simp only [decodeRequest, h, hnumber]
  cases op <;> rfl

/-- A request word that decodes holds the number of the operation it names. -/
theorem op_of_decodeRequest {p : Params} {w : Nat} {i : Instr} (h : decodeRequest w p = .ok i) :
    ∃ op : Operation, field w p.request.opShift p.request.opWidth = (p.request.op op).val
      ∧ i = op.instr (field w p.request.selShift p.request.selWidth)
        (BitVec.ofNat 32 (field w p.request.valShift Config.freqBits)) := by
  unfold decodeRequest at h
  dsimp only at h
  split at h
  next hop => cases h; exact ⟨.setFrequency, hop, rfl⟩
  split at h
  next hop => cases h; exact ⟨.setPhase, hop, rfl⟩
  split at h
  next hop => cases h; exact ⟨.setOutputEnabled, hop, rfl⟩
  split at h
  next hop => cases h; exact ⟨.selectActiveFrequencyBank, hop, rfl⟩
  split at h
  next hop => cases h; exact ⟨.selectActivePhaseBank, hop, rfl⟩
  split at h
  next hop => cases h; exact ⟨.selectSyncSource, hop, rfl⟩
  cases h

/-- In a consistent layout the word of a request is one the port can carry, and it decodes to that request. -/
theorem decode_of_requestWord {p : Params} (hc : p.request.Consistent) {op : Operation} {sel : Nat} {val : Value}
    {w : PortWord} (h : requestWord p op sel val = some w) :
    w.wellFormed p = true ∧ decode w p = .ok (op.instr sel val) := by
  obtain ⟨s, rfl, rfl⟩ := requestWord_eq_some.mp h
  obtain ⟨hop, hsel, hval⟩ := packRequest_fields p op s val
  refine ⟨decide_eq_true (packRequest_lt p op s val), (decodeRequest_of_op hc hop).trans ?_⟩
  rw [hsel, hval, BitVec.ofNat_toNat, BitVec.setWidth_eq]

theorem params_request_consistent : Config.params.request.Consistent where
  opsDistinct a b h := by revert h; cases a <;> cases b <;> decide
  selectorsSuffice := by decide

theorem params_result_consistent : Config.params.result.Consistent := by
  intro a b h
  revert h; cases a <;> cases b <;> decide

/-- Settles O60: the fields of a request word are recovered in every layout, and distinct numbers name one operation. -/
theorem portEncodingsRoundTripInEveryTable : Obligations.PortEncodingsRoundTripInEveryTable := by
  refine ⟨params_request_consistent, params_result_consistent, fun p i hc hi hw => ?_, fun p a b hc h => ?_⟩
  · obtain ⟨op, sel, val, rfl⟩ := exists_operation_of_isRequest hi
    obtain ⟨w, he⟩ := Option.isSome_iff_exists.mp ((encode_isSome _ p).trans hw)
    exact ⟨w, he, decode_of_requestWord hc ((encode_instr op sel val p).symm.trans he)⟩
  · exact hc a b (BitVec.ofFin.inj h)

/-- Settles O6: the numbers stand in the table. -/
theorem resultKindsHaveTheirNumbers : Obligations.ResultKindsHaveTheirNumbers := ⟨rfl, rfl, rfl, rfl⟩

/-- A request word of 40 bits that decodes is the word of the request it decodes to: the three fields make it up. -/
theorem encode_of_decodeRequest {w : Nat} {i : Instr} (hw : w < 2 ^ 40) (h : decodeRequest w = .ok i) :
    encode i = some (.request w) := by
  obtain ⟨op, hop, rfl⟩ := op_of_decodeRequest h
  rw [encode_instr]
  refine requestWord_eq_some.mpr ⟨⟨field w 32 4, field_lt _ _ _⟩, rfl, congrArg PortWord.request ?_⟩
  have hval : (BitVec.ofNat 32 (field w 0 32)).toNat = field w 0 32 := Nat.mod_eq_of_lt (field_lt _ _ _)
  rw [packRequest, ← hop]
  change _ ||| _ ||| (BitVec.ofNat 32 (field w 0 32)).toNat <<< 0 = w
  rw [hval]
  exact eq_or_fields (a := 32) (b := 4) (c := 4) hw

/-! ## Decoding and encoding at both ports (R50, R60, R61) -/

/-- A data command word of a number that fits, at the bus port. -/
theorem command_dataWord_eq_some {c : CommandCode} {addr : Nat} {data : Byte} {w : PortWord} :
    (dataWord Config.params c addr data).map .command = some w ↔
      ∃ a : Config.params.Address, a.val = addr ∧ w = .command (encodeWord Config.params c a data) := by
  simp only [Option.map_eq_some_iff, dataWord_eq_some]
  constructor
  · rintro ⟨x, ⟨a, ha, rfl⟩, rfl⟩
    exact ⟨a, ha, rfl⟩
  · rintro ⟨a, ha, rfl⟩
    exact ⟨_, ⟨a, ha, rfl⟩, rfl⟩

/-- The word of an instruction is one its port can carry, and decodes to that instruction. -/
theorem decode_of_encode {i : Instr} {w : PortWord} (h : encode i = some w) :
    w.wellFormed = true ∧ decode w = .ok i := by
  have hrequest : ∀ {op : Operation} {sel : Nat} {val : Value}, requestWord Config.params op sel val = some w →
      w.wellFormed = true ∧ decode w = .ok (op.instr sel val) := decode_of_requestWord params_request_consistent
  cases i with
  | setFrequency sel val | setPhase sel val | setOutputEnabled sel val | selectActiveFrequencyBank sel val
  | selectActivePhaseBank sel val | selectSyncSource sel val => exact hrequest h
  | phase16 addr data =>
    obtain ⟨a, rfl, rfl⟩ := command_dataWord_eq_some.mp h
    exact ⟨rfl, decodeCommand_phase16 a data⟩
  | phase8 addr data =>
    obtain ⟨x, hx, rfl⟩ := Option.map_eq_some_iff.mp h
    obtain ⟨hbyte, hx⟩ := phase8Word_eq_some.mp hx
    obtain ⟨a, rfl, rfl⟩ := dataWord_eq_some.mp hx
    exact ⟨rfl, decodeCommand_phase8 a data hbyte⟩
  | frequency16 addr data =>
    obtain ⟨a, rfl, rfl⟩ := command_dataWord_eq_some.mp h
    exact ⟨rfl, decodeCommand_frequency16 a data⟩
  | frequency8 addr data =>
    obtain ⟨a, rfl, rfl⟩ := command_dataWord_eq_some.mp h
    exact ⟨rfl, decodeCommand_frequency8 a data⟩
  | bankSelect freq phase => cases h; exact ⟨rfl, decodeCommand_bankSelect freq phase⟩
  | syncSourceSelect selsrc => cases h; exact ⟨rfl, decodeCommand_syncSourceSelect selsrc⟩
  | enableControl sleep reset clear => cases h; exact ⟨rfl, decodeCommand_enableControl sleep reset clear⟩

/-- Settles O7: a well-formed term has a word, any other has none, and a word decodes to its term. -/
theorem decodeInvertsEncode : Obligations.DecodeInvertsEncode := by
  intro i
  have hsome := encode_isSome i Config.params
  refine ⟨fun hi => ?_, fun hi => Option.not_isSome_iff_eq_none.mp ?_⟩
  · obtain ⟨w, hw⟩ := Option.isSome_iff_exists.mp (hsome.trans hi)
    exact ⟨w, hw, decode_of_encode hw⟩
  · rw [hsome, hi]
    exact Bool.false_ne_true

/-- Settles O10: each word is the word of its instruction. -/
theorem writtenWordsDecode : Obligations.WrittenWordsDecode :=
  have hdecode : ∀ {i : Instr} {w : PortWord}, encode i = some w → decode w = .ok i := fun h => (decode_of_encode h).2
  ⟨hdecode (by decide), hdecode (by decide), hdecode (by decide), hdecode (by decide), hdecode (by decide),
    hdecode (by decide)⟩

/-- A word with a control code outside the owned mask of its mirror is a control word of that mirror (R60, R61). -/
theorem exists_encode_of_control {w : CommandWord} (which : ControlMirror)
    (h : w &&& ~~~Config.params.ownedMask which = shiftedCode (Config.controlCode which)) :
    ∃ i, encode i = some (.command w) := by
  have howned : (w &&& Config.params.ownedMask which) &&& ~~~Config.params.ownedMask which = 0 := by
    rw [BitVec.and_assoc, BitVec.and_not_self]
    exact BitVec.and_zero
  have hword : encodeControlWord which (w &&& Config.params.ownedMask which) = w := by
    rw [encodeControlWord, ← h, ← BitVec.and_or_distrib_left, BitVec.not_or_self, BitVec.and_allOnes]
  rw [← hword]
  cases which with
  | outputControl =>
    obtain ⟨s, r, c, e⟩ := outputControl_cases _ howned
    exact ⟨.enableControl s r c, by rw [e]; rfl⟩
  | bankSelect =>
    obtain ⟨f, b, e⟩ := bankSelect_cases _ howned
    exact ⟨.bankSelect f b, by rw [e]; rfl⟩
  | syncSource =>
    obtain ⟨x, e⟩ := syncSource_cases _ howned
    exact ⟨.syncSourceSelect x, by rw [e]; rfl⟩

/-- The data word of the fields of a word is that word. -/
theorem dataWord_of_cmd {w : CommandWord} {c : CommandCode} (h : field w.toNat 12 4 = (Config.params.code c).val) :
    dataWord Config.params c (field w.toNat 8 4) (w.extractLsb' 0 8) = some w :=
  dataWord_eq_some.mpr ⟨_, rfl, eq_encodeWord_of_cmd h⟩

/-- The same at the bus port, for the rows of all data words but PHASE_8. -/
theorem command_dataWord_of_cmd {w : CommandWord} (c : CommandCode)
    (h : field w.toNat 12 4 = (Config.params.code c).val) :
    (dataWord Config.params c (field w.toNat 8 4) (w.extractLsb' 0 8)).map PortWord.command = some (.command w) :=
  congrArg (Option.map PortWord.command) (dataWord_of_cmd h)

/-- And for the row of PHASE_8, whose byte has no high nibble. -/
theorem command_phase8Word_of_cmd {w : CommandWord} (h : field w.toNat 12 4 = (Config.params.code .phase8).val)
    (hbyte : phaseHighByte (w.extractLsb' 0 8) = true) :
    (phase8Word Config.params (field w.toNat 8 4) (w.extractLsb' 0 8)).map PortWord.command = some (.command w) :=
  congrArg (Option.map PortWord.command) (phase8Word_eq_some.mpr ⟨hbyte, dataWord_of_cmd h⟩)

/-- A command word that decodes is the word of the instruction it decodes to, row by row. -/
theorem encode_of_decodeCommand {w : CommandWord} {i : Instr} (h : decodeCommand w = .ok i) :
    encode i = some (.command w) := by
  have hcontrol : (∃ j, encode j = some (.command w)) → encode i = some (.command w) := fun ⟨j, hj⟩ => by
    obtain rfl : j = i := Except.ok.inj ((decode_of_encode hj).2.symm.trans h)
    exact hj
  have hd := h
  rw [decodeCommand_eq] at hd
  split at hd
  next hw => exact hcontrol (exists_encode_of_control .outputControl hw)
  split at hd
  next hw => exact hcontrol (exists_encode_of_control .syncSource hw)
  split at hd
  next hw => exact hcontrol (exists_encode_of_control .bankSelect hw)
  split at hd
  next hcmd => cases hd; exact command_dataWord_of_cmd .frequency8 hcmd
  split at hd
  next hcmd => cases hd; exact command_dataWord_of_cmd .frequency16 hcmd
  split at hd
  next hcmd =>
    split at hd
    next hbyte => cases hd; exact command_phase8Word_of_cmd hcmd hbyte
    next => cases hd
  split at hd
  next hcmd => cases hd; exact command_dataWord_of_cmd .phase16 hcmd
  next => cases hd

/-- Settles O8, port by port. -/
theorem encodeInvertsDecode : Obligations.EncodeInvertsDecode := by
  intro w i hw h
  have he : encode i = some w := by
    cases w with
    | request w => exact encode_of_decodeRequest (of_decide_eq_true hw) h
    | command w => exact encode_of_decodeCommand h
  exact ⟨wellFormed_of_encode he, he⟩

/-- The word of an instruction is one of its row of the opcode table. -/
theorem inRow_of_encode {i : Instr} {w : PortWord} (h : encode i = some w) : Laws.TableRow.inRow i w := by
  have hrow : Laws.TableRow.Statement i := by
    cases i with
    | setFrequency sel val => exact Laws.TableRow.setFrequency sel val
    | setPhase sel val => exact Laws.TableRow.setPhase sel val
    | setOutputEnabled sel val => exact Laws.TableRow.setOutputEnabled sel val
    | selectActiveFrequencyBank sel val => exact Laws.TableRow.selectActiveFrequencyBank sel val
    | selectActivePhaseBank sel val => exact Laws.TableRow.selectActivePhaseBank sel val
    | selectSyncSource sel val => exact Laws.TableRow.selectSyncSource sel val
    | phase16 addr data => exact Laws.TableRow.phase16 addr data
    | phase8 addr data => exact Laws.TableRow.phase8 addr data
    | frequency16 addr data => exact Laws.TableRow.frequency16 addr data
    | frequency8 addr data => exact Laws.TableRow.frequency8 addr data
    | bankSelect freq phase => exact Laws.TableRow.bankSelect freq phase
    | syncSourceSelect selsrc => exact Laws.TableRow.syncSourceSelect selsrc
    | enableControl sleep reset clear => exact Laws.TableRow.enableControl sleep reset clear
  obtain ⟨w', he, hin⟩ := hrow (wellFormed_of_encode h)
  obtain rfl : w = w' := Option.some.inj (h.symm.trans he)
  exact hin

/-- The byte of a word whose bits 7:4 are zero is the high byte of a phase value (R55). -/
theorem phaseHighByte_of_field {w : CommandWord} (h : field w.toNat 4 4 = 0) :
    phaseHighByte (w.extractLsb' 0 8) = true := by
  refine decide_eq_true ?_
  rw [toNat_extractLsb'_eq_field]
  simp only [field] at h ⊢
  simp only [Config.phaseBits_eq, Config.dataWidth_eq]
  omega

/-- Settles O9: a word that decodes is the word of an instruction, and so one of its row; a word of a row has the row's
code and its fixed bits, and so is the word of the instruction of its own fields. -/
theorem commandWordsDecodeByTheirRows : Obligations.CommandWordsDecodeByTheirRows := by
  intro w
  constructor
  · rintro ⟨i, h⟩
    have hrow := inRow_of_encode (encode_of_decodeCommand h)
    cases i with
    | setFrequency | setPhase | setOutputEnabled | selectActiveFrequencyBank | selectActivePhaseBank
    | selectSyncSource => exact hrow.elim
    | enableControl => exact .inl hrow
    | syncSourceSelect => exact .inr (.inl hrow)
    | bankSelect => exact .inr (.inr (.inl hrow))
    | frequency8 => exact .inr (.inr (.inr (.inl hrow)))
    | frequency16 => exact .inr (.inr (.inr (.inr (.inl hrow))))
    | phase8 => exact .inr (.inr (.inr (.inr (.inr (.inl hrow)))))
    | phase16 => exact .inr (.inr (.inr (.inr (.inr (.inr hrow)))))
  · intro hrow
    have hdecode : (∃ i, encode i = some (.command w)) → ∃ i, decodeCommand w = .ok i := fun ⟨i, hi⟩ =>
      ⟨i, (decode_of_encode hi).2⟩
    apply hdecode
    rcases hrow with h | h | h | h | h | h | h
    · exact exists_encode_of_control .outputControl h
    · exact exists_encode_of_control .syncSource h
    · exact exists_encode_of_control .bankSelect h
    · exact ⟨.frequency8 _ _, command_dataWord_of_cmd .frequency8 (field_of_masked h 12 4 rfl)⟩
    · exact ⟨.frequency16 _ _, command_dataWord_of_cmd .frequency16 (field_of_masked h 12 4 rfl)⟩
    · exact ⟨.phase8 _ _, command_phase8Word_of_cmd (field_of_masked h 12 4 rfl)
        (phaseHighByte_of_field (field_of_masked h 4 4 rfl))⟩
    · exact ⟨.phase16 _ _, command_dataWord_of_cmd .phase16 (field_of_masked h 12 4 rfl)⟩

namespace Machine

/-! ## The step and the decoded instruction (R61, R63, R65, R140) -/

variable {ε : Type}

/-- The request first in line, where it names an operation (R140). -/
theorem fetchEvent_request {s : State ε} {p : Params} {w : Nat} {rest : List HostEvent} {i : Instr}
    (hi : s.inputs = .request w :: rest) (hd : decodeRequest w p = .ok i) :
    fetchEvent s p = .run i { s with inputs := rest } := by
  simp only [fetchEvent, hi, hd]

/-- The request first in line, where it names none (R65). -/
theorem fetchEvent_reserved {s : State ε} {p : Params} {w : Nat} {rest : List HostEvent} {e : DecodeError}
    (hi : s.inputs = .request w :: rest) (hd : decodeRequest w p = .error e) :
    fetchEvent s p = .done (rejectRequest { s with inputs := rest }) := by
  simp only [fetchEvent, hi, hd]

/-- The word in flight (R128). -/
theorem fetchWord_run {s : State ε} {p : Params} {w : CommandWord} {i : Instr} (hw : s.currentWord? = some w)
    (hd : decodeCommand w p = .ok i) : fetchWord s p = .run i s := by
  simp only [fetchWord, hw, hd]

/-- Settles O45: what is fetched is the instruction the word decodes to. -/
theorem stepRunsTheDecodedInstruction : Obligations.StepRunsTheDecodedInstruction := by
  refine ⟨fun s w rest i ⟨hb, hl⟩ hi hd => ?_, fun s w i hw hd => ?_⟩
  · rw [step_eq, fetch_ready hb hl, fetchEvent_request hi hd]
  · rw [step_eq, fetch_busy (State.seqBusy_of_currentWord? hw), fetchWord_run hw hd]

/-- An `InvalidInputError` that ends nothing but the request itself: only the result changes (R175). -/
theorem State.raise_invalidInput_of_idle {s : State ε} (hb : s.seqBusy = false) :
    s.raise .invalidInput = { s with
      awaiting := false, pendingCommit := none, resKind := .invalidInputError,
      results := s.results ++ [.error .invalidInput] } := by
  cases s
  cases hb
  rfl

/-- The numbers of the operations are 1 to 6 (R64). -/
theorem params_op_bounds (op : Operation) :
    1 ≤ (Config.params.request.op op).val ∧ (Config.params.request.op op).val ≤ 6 := by
  cases op <;> decide

/-- A request whose `op` is reserved names no operation (R65). -/
theorem decodeRequest_reserved {w : Nat} (h : w / 2 ^ 36 % 16 = 0 ∨ 7 ≤ w / 2 ^ 36 % 16) :
    ∃ e, decodeRequest w = .error e := by
  cases hd : decodeRequest w with
  | error e => exact ⟨e, rfl⟩
  | ok i =>
    obtain ⟨op, hop, -⟩ := op_of_decodeRequest hd
    have hbounds := params_op_bounds op
    rw [← hop] at hbounds
    change 1 ≤ w / 2 ^ 36 % 2 ^ 4 ∧ w / 2 ^ 36 % 2 ^ 4 ≤ 6 at hbounds
    omega

/-- Settles O46: what names no operation is answered without one. -/
theorem reservedRequestsAreInvalidInput : Obligations.ReservedRequestsAreInvalidInput := by
  intro s w rest ⟨hb, hl⟩ hi hop
  obtain ⟨e, hd⟩ := decodeRequest_reserved hop
  rw [step_eq, fetch_ready hb hl, fetchEvent_reserved hi hd]
  exact congrArg Host.Outcome.next (State.raise_invalidInput_of_idle hb)

/-! ## Operands outside their valid sets (R66, R172) -/

theorem booleanOperand_cases (sel : Nat) :
    (1 < sel ∧ booleanOperand (ε := ε) sel = .error .invalidInput)
    ∨ (¬ 1 < sel ∧ ∃ b, booleanOperand (ε := ε) sel = .ok b) := by
  match sel with
  | 0 => exact .inr ⟨by omega, false, rfl⟩
  | 1 => exact .inr ⟨by omega, true, rfl⟩
  | sel + 2 => exact .inl ⟨by omega, rfl⟩

theorem frequencyBankOperand_cases (sel : Nat) :
    (1 < sel ∧ frequencyBankOperand (ε := ε) sel = .error .outOfRange)
    ∨ (¬ 1 < sel ∧ ∃ b, frequencyBankOperand (ε := ε) sel = .ok b) := by
  by_cases h : sel < Config.nFreqBanks
  · exact .inr ⟨Nat.not_lt.mpr (Nat.le_of_lt_succ h), ⟨sel, h⟩, dif_pos h⟩
  · exact .inl ⟨Nat.not_lt.mp h, dif_neg h⟩

theorem phaseBankOperand_cases (sel : Nat) :
    (3 < sel ∧ phaseBankOperand (ε := ε) sel = .error .outOfRange)
    ∨ (¬ 3 < sel ∧ ∃ b, phaseBankOperand (ε := ε) sel = .ok b) := by
  by_cases h : sel < Config.nPhaseBanks
  · exact .inr ⟨Nat.not_lt.mpr (Nat.le_of_lt_succ h), ⟨sel, h⟩, dif_pos h⟩
  · exact .inl ⟨Nat.not_lt.mp h, dif_neg h⟩

/-- While a transmission is in flight it has reported nothing; when it has ended it has reported `OK` or the transport's
own error (R122, R123). -/
def State.Reported (before : List (OpResult ε)) (s : State ε) : Prop :=
  (s.seqBusy = true ∧ s.results = before)
  ∨ (s.seqBusy = false ∧ ∃ r, s.results = before ++ [r] ∧ (r = .ok ∨ ∃ e, r = .error (.transport e)))

theorem State.Reported.move {before : List (OpResult ε)} {s t : State ε} {p : Params} (h : s.Reported before)
    (hm : s.Move p t) : t.Reported before := by
  rcases h with ⟨hb, hr⟩ | ⟨hb, -⟩
  · cases hm with
    | present hw => exact .inl ⟨hb, hr⟩
    | next hw => exact .inl ⟨hb, hr⟩
    | complete hw => exact .inr ⟨rfl, .ok, by rw [State.finish_results, State.commitPending_results, hr], .inl rfl⟩
    | @abort _ e _ hw => exact .inr ⟨rfl, .error (.transport e), by rw [State.raise_results, hr], .inr ⟨e, rfl⟩⟩
  · cases hm.seqBusy.symm.trans hb

theorem State.transmit_reported (s : State ε) (p : Params) {words : List CommandWord} (hne : words ≠ []) :
    (s.transmit words p).Reported s.results :=
  State.transmit_keeps (fun _ _ => State.Reported.move) hne (.inl ⟨rfl, rfl⟩)

/-- No transmission reports an operand (R170, R172). -/
theorem State.Reported.ne {before : List (OpResult ε)} {s : State ε} (h : s.Reported before) {e : OpError ε}
    (he : e = .invalidInput ∨ e = .outOfRange) : s.results ≠ before ++ [.error e] := by
  intro hr
  rcases h with ⟨-, hr'⟩ | ⟨-, r, hr', hkind⟩
  · rw [hr'] at hr
    exact List.cons_ne_nil _ _ (List.self_eq_append_right.mp hr)
  · obtain rfl : r = .error e := List.singleton_inj.mp (List.append_cancel_left (hr'.symm.trans hr))
    rcases hkind with h | ⟨e', h⟩
    · cases h
    · obtain rfl := OpResult.error.inj h
      exact he.elim nofun nofun

/-- How an accepted request is served, by its operands (R66, R140, R172): a malformed boolean and a number outside its
valid set end it at once, and any other goes on to its transfer. -/
inductive State.Serves (s : State) (i : Instr) : State → Prop where
  | malformed (hm : malformedBoolean i = true) : Serves s i (s.raise .invalidInput)
  | outOfRange (hm : malformedBoolean i = false) (ho : outOfRangeOperand i = true) : Serves s i (s.raise .outOfRange)
  | transfer {u : State} {words : List CommandWord} (hm : malformedBoolean i = false) (ho : outOfRangeOperand i = false)
      (hne : words ≠ []) (hu : u.results = s.results) : Serves s i (u.transmit words)

/-- A control operation reaches its transfer with nothing reported. -/
theorem State.Serves.controlTransfer {s : State} {i : Instr} (hm : malformedBoolean i = false)
    (ho : outOfRangeOperand i = false) (m : MirrorWrite) : s.Serves i (controlTransfer Config.params m s) := by
  rw [controlTransfer_before params_mirrorCommit]
  exact .transfer hm ho (List.cons_ne_nil _ _) (s.commit_results m)

theorem setFrequencyOp_serves (s : State) (sel : Nat) (val : Value) :
    s.Serves (.setFrequency sel val) (setFrequencyOp Config.params sel val s) := by
  unfold setFrequencyOp
  rcases frequencyBankOperand_cases (ε := TransportErrorPayload) sel with ⟨hsel, e⟩ | ⟨hsel, b, e⟩ <;> rw [e]
  · exact .outOfRange rfl (decide_eq_true hsel)
  · exact .transfer rfl (decide_eq_false hsel) (List.cons_ne_nil _ _) rfl

theorem setPhaseOp_serves (s : State) (sel : Nat) (val : Value) :
    s.Serves (.setPhase sel val) (setPhaseOp Config.params sel val s) := by
  unfold setPhaseOp
  rcases phaseBankOperand_cases (ε := TransportErrorPayload) sel with ⟨hsel, e⟩ | ⟨hsel, b, e⟩ <;> rw [e]
  · exact .outOfRange rfl (by simp [outOfRangeOperand, hsel])
  · rcases splitPhase_cases (ε := TransportErrorPayload) Config.params val (Config.params.phaseBase b) with
      ⟨hval, e⟩ | ⟨hval, writes, e, hwords⟩ <;> simp only [e]
    · exact .outOfRange rfl (by simp [outOfRangeOperand, hval])
    · refine .transfer rfl ?_ (by rw [hwords]; exact List.cons_ne_nil _ _) rfl
      simp only [outOfRangeOperand, Bool.or_eq_false_iff, decide_eq_false_iff_not]
      omega

theorem setOutputEnabledOp_serves (s : State) (sel : Nat) (val : Value) :
    s.Serves (.setOutputEnabled sel val) (setOutputEnabledOp Config.params sel s) := by
  unfold setOutputEnabledOp
  rcases booleanOperand_cases (ε := TransportErrorPayload) sel with ⟨hsel, e⟩ | ⟨hsel, b, e⟩ <;> rw [e]
  · exact .malformed (decide_eq_true hsel)
  · exact .controlTransfer (i := .setOutputEnabled sel val) (decide_eq_false hsel) rfl _

theorem selectActiveFrequencyBankOp_serves (s : State) (sel : Nat) (val : Value) :
    s.Serves (.selectActiveFrequencyBank sel val) (selectActiveFrequencyBankOp Config.params sel s) := by
  unfold selectActiveFrequencyBankOp
  rcases booleanOperand_cases (ε := TransportErrorPayload) sel with ⟨hsel, e⟩ | ⟨hsel, b, e⟩ <;> rw [e]
  · exact .malformed (decide_eq_true hsel)
  · exact .controlTransfer (i := .selectActiveFrequencyBank sel val) (decide_eq_false hsel) rfl _

theorem selectActivePhaseBankOp_serves (s : State) (sel : Nat) (val : Value) :
    s.Serves (.selectActivePhaseBank sel val) (selectActivePhaseBankOp Config.params sel s) := by
  unfold selectActivePhaseBankOp mergePhaseBank
  rcases phaseBankOperand_cases (ε := TransportErrorPayload) sel with ⟨hsel, e⟩ | ⟨hsel, b, e⟩ <;> rw [e]
  · exact .outOfRange rfl (decide_eq_true hsel)
  · exact .controlTransfer (i := .selectActivePhaseBank sel val) rfl (decide_eq_false hsel) _

theorem selectSyncSourceOp_serves (s : State) (sel : Nat) (val : Value) :
    s.Serves (.selectSyncSource sel val) (selectSyncSourceOp Config.params sel s) := by
  unfold selectSyncSourceOp
  rcases booleanOperand_cases (ε := TransportErrorPayload) sel with ⟨hsel, e⟩ | ⟨hsel, b, e⟩ <;> rw [e]
  · exact .malformed (decide_eq_true hsel)
  · exact .controlTransfer (i := .selectSyncSource sel val) (decide_eq_false hsel) rfl _

/-- A request at a ready block is accepted and served (R140). -/
theorem exec_serves {i : Instr} {s : State} (hi : isRequest i = true) (hs : s.Ready) :
    ∃ t, exec i s = .next t ∧ State.Serves { s with seqBusy := true, pendingCommit := none } i t := by
  obtain ⟨hb, hl⟩ := hs
  have haccept : ∀ op : State → State,
      acceptRequest op s = .next (op { s with seqBusy := true, pendingCommit := none }) := fun op =>
    acceptRequest_next.mpr ⟨hb, hl, rfl⟩
  cases i with
  | setFrequency sel val => exact ⟨_, haccept _, setFrequencyOp_serves _ sel val⟩
  | setPhase sel val => exact ⟨_, haccept _, setPhaseOp_serves _ sel val⟩
  | setOutputEnabled sel val => exact ⟨_, haccept _, setOutputEnabledOp_serves _ sel val⟩
  | selectActiveFrequencyBank sel val => exact ⟨_, haccept _, selectActiveFrequencyBankOp_serves _ sel val⟩
  | selectActivePhaseBank sel val => exact ⟨_, haccept _, selectActivePhaseBankOp_serves _ sel val⟩
  | selectSyncSource sel val => exact ⟨_, haccept _, selectSyncSourceOp_serves _ sel val⟩
  | phase16 | phase8 | frequency16 | frequency8 | bankSelect | syncSourceSelect | enableControl => cases hi

/-- Settles O38: of the three ways to serve a request one is for malformed booleans, and it alone reports
`InvalidInputError`. -/
theorem malformedBooleansAreRefused : Obligations.MalformedBooleansAreRefused := by
  intro i s hi hs
  obtain ⟨t, ht, hserves⟩ := exec_serves hi hs
  rw [ht]
  refine ⟨fun hm => congrArg Host.Outcome.next ?_, fun t' e hr => ?_⟩
  · cases hserves with
    | malformed => exact State.raise_invalidInput_of_idle hs.1
    | outOfRange hm' => cases hm.symm.trans hm'
    | transfer hm' => cases hm.symm.trans hm'
  · obtain rfl := Host.Outcome.next.inj e
    cases hserves with
    | malformed hm => exact hm
    | outOfRange => cases List.singleton_inj.mp (List.append_cancel_left hr)
    | @transfer u words hm ho hne hu =>
      have hreported := u.transmit_reported Config.params hne
      rw [hu] at hreported
      exact absurd hr (hreported.ne (.inl rfl))

end Machine

end Sys2Proof
end

section
/-! PROOFS, spec/40_codec.md. What the codec takes apart and puts together: a split frequency is the four bytes of its
value (R81, R83), a split phase the high and the low byte of a value below 4096 (R82, R83), and a control word is a code
and a whole mirror (R86), which comes back under the mask of its owned bits in every table that meets R7 item 4. -/

namespace Sys2Proof

namespace Machine

/-! ## The split of a phase (R82) -/

section

variable {ε : Type} {n : Nat}

theorem splitPhase_of_ge {v : Value} (h : 4096 ≤ v.toNat) (base : { a : Fin (2 ^ n) // 1 ≤ a.val }) :
    splitPhase (ε := ε) v base = .error .outOfRange :=
  if_pos h

theorem splitPhase_of_lt {v : Value} (h : v.toNat < 4096) (base : { a : Fin (2 ^ n) // 1 ≤ a.val }) :
    splitPhase (ε := ε) v base = .ok [⟨.phase8, base.1, (v.extractLsb' 8 4).setWidth 8⟩,
      ⟨.phase16, below base.1 1 base.2, v.extractLsb' 0 8⟩] :=
  if_neg (Nat.not_le.mpr h)

theorem splitPhase_eq_outOfRange {v : Value} {base : { a : Fin (2 ^ n) // 1 ≤ a.val }} :
    splitPhase (ε := ε) v base = .error .outOfRange ↔ 4096 ≤ v.toNat := by
  refine ⟨fun herror => Nat.not_lt.mp fun h => ?_, fun h => splitPhase_of_ge h base⟩
  cases (splitPhase_of_lt h base).symm.trans herror

end

theorem below_add {bound : Nat} (a : Fin bound) {k : Nat} (h : k ≤ a.val) : (below a k h).val + k = a.val :=
  Nat.sub_add_cancel h

/-! ## The two bytes of a phase (R82, R83, decision D13) -/

/-- Below 4096 the four bits that the split puts into the high byte are all that stands above the low byte. -/
theorem toNat_phaseHigh {v : Value} (h : v.toNat < 4096) :
    ((v.extractLsb' 8 4).setWidth 8).toNat = v.toNat / 256 := by
  rw [BitVec.toNat_setWidth_of_le (by decide), toNat_extractLsb'_eq_field, field]
  omega

theorem phaseHigh_eq_shift {v : Value} (h : v.toNat < 4096) :
    (v.extractLsb' 8 4).setWidth 8 = (v >>> 8).setWidth 8 := by
  apply BitVec.eq_of_toNat_eq
  rw [toNat_phaseHigh h, BitVec.toNat_setWidth, BitVec.toNat_ushiftRight, Nat.shiftRight_eq_div_pow]
  omega

/-- A nibble widened to a byte has no bit in the upper half. -/
theorem extractLsb'_high_of_nibble (x : BitVec 4) : (x.setWidth 8).extractLsb' 4 4 = 0 := by
  revert x; decide

/-- The two bytes of a phase make it up again, as numbers (R83). -/
theorem phaseBytes_toNat {v : Value} (h : v.toNat < 4096) :
    ((v.extractLsb' 8 4).setWidth 8).toNat * 256 + (v.extractLsb' 0 8).toNat = v.toNat := by
  have hlow : (v.extractLsb' 0 8).toNat = v.toNat % 256 := by
    rw [BitVec.extractLsb'_toNat, Nat.shiftRight_zero]
  rw [toNat_phaseHigh h, hlow]
  omega

/-- Settles O2: a frequency is the concatenation of its four slices, a phase its high byte above its low byte. -/
theorem splitsReconstructTheirValue : Obligations.SplitsReconstructTheirValue := by
  refine ⟨fun n v base => ?_, fun n v base hv => ?_⟩
  · exact ⟨_, _, _, _, _, _, _, _, _, _, _, rfl, frequencyBytes_append v, below_add _ _, below_add _ _, below_add _ _⟩
  · have hlt : v.toNat < 4096 := Nat.lt_succ_of_le hv
    exact ⟨_, _, _, _, _, splitPhase_of_lt hlt base, phaseBytes_toNat hlt, extractLsb'_high_of_nibble _, below_add _ _⟩

/-- Settles O3: the split has these two outcomes, and below 4096 its bytes are the shifted and the cut value. -/
theorem splitPhaseFailsExactlyFrom4096 : Obligations.SplitPhaseFailsExactlyFrom4096 := by
  refine fun n v base => ⟨splitPhase_eq_outOfRange, fun h => ⟨below base.1 1 base.2, below_add _ _, ?_⟩⟩
  rw [splitPhase_of_lt h, phaseHigh_eq_shift h, ← BitVec.setWidth_eq_extractLsb' (x := v) (by decide)]

end Machine

/-! ## The control word (R57 to R60, R86) -/

/-- In every table that meets R7 item 4 a control word gives its mirror back under the mask of the owned bits. -/
theorem Params.MeetsConstraints.controlWord_and_ownedMask {p : Params} (hp : p.MeetsConstraints)
    {which : ControlMirror} {v : CommandWord} (h : v &&& ~~~p.ownedMask which = 0) :
    encodeControlWord which v p &&& p.ownedMask which = v := by
  have hv : v &&& p.ownedMask which = v := by
    calc v &&& p.ownedMask which
        = v &&& p.ownedMask which ||| v &&& ~~~p.ownedMask which := by rw [h]; exact BitVec.or_zero.symm
      _ = v := by rw [← BitVec.and_or_distrib_left, BitVec.or_not_self, BitVec.and_allOnes]
  rw [encodeControlWord, BitVec.and_or_distrib_right, hp.codesClearOfMasks, hv]
  exact BitVec.zero_or

/-- A mirror with owned bits only is made of the bits it has: the fields that `outputControl_cases`, `bankSelect_cases`
and `syncSource_cases` find are read off it. -/
theorem outputControlOf_bits {v : CommandWord} (h : v &&& ~~~Config.params.ocMask = 0) :
    outputControlOf v[13] v[12] v[11] = v := by
  obtain ⟨s, r, c, rfl⟩ := outputControl_cases v h
  clear h
  revert s r c; decide

theorem bankSelectOf_bits {v : CommandWord} (h : v &&& ~~~Config.params.bsMask = 0) :
    bankSelectOf v[11] (v.extractLsb' 9 2) = v := by
  obtain ⟨f, b, rfl⟩ := bankSelect_cases v h
  clear h
  revert f b; decide

theorem syncSourceOf_bits {v : CommandWord} (h : v &&& ~~~Config.params.ssMask = 0) : syncSourceOf v[12] = v := by
  obtain ⟨x, rfl⟩ := syncSource_cases v h
  clear h
  revert x; decide

/-- The instruction that carries a mirror, with the mirror's bits as its operands (R57 to R59). -/
def ControlMirror.instr (which : ControlMirror) (v : CommandWord) : Instr :=
  match which with
  | .outputControl => .enableControl v[13] v[12] v[11]
  | .bankSelect => .bankSelect v[11] (v.extractLsb' 9 2)
  | .syncSource => .syncSourceSelect v[12]

/-- The control word of a mirror with owned bits only is the word of that instruction (R60). -/
theorem encode_controlMirror_instr {which : ControlMirror} {v : CommandWord}
    (h : v &&& ~~~Config.params.ownedMask which = 0) :
    encode (which.instr v) = some (.command (encodeControlWord which v)) := by
  cases which with
  | outputControl => rw [ControlMirror.instr, encode, outputControlOf_bits h]
  | bankSelect => rw [ControlMirror.instr, encode, bankSelectOf_bits h]
  | syncSource => rw [ControlMirror.instr, encode, syncSourceOf_bits h]

/-- With owned bits only, the mirror is what stands under the mask, and its bits are what the word decodes to. -/
theorem controlWord_carries_mirror {which : ControlMirror} {mask v : CommandWord}
    (hmask : Config.params.ownedMask which = mask) (h : v &&& ~~~mask = 0) :
    encodeControlWord which v &&& mask = v ∧ decodeCommand (encodeControlWord which v) = .ok (which.instr v) := by
  subst hmask
  exact ⟨parametersMeetTheirConstraints.controlWord_and_ownedMask h,
    (decode_of_encode (encode_controlMirror_instr h)).2⟩

/-- Settles O4: the codes by their shifted values, the mirrors by what the word of any mirror carries. -/
theorem controlWordCarriesItsMirror : Obligations.ControlWordCarriesItsMirror :=
  ⟨fun v => ⟨congrArg (· ||| v) shiftedCode_enableControl, congrArg (· ||| v) shiftedCode_bankSelect,
      congrArg (· ||| v) shiftedCode_syncSourceSelect⟩,
    fun _ h => controlWord_carries_mirror (which := .outputControl) params_ocMask h,
    fun _ h => controlWord_carries_mirror (which := .bankSelect) params_bsMask h,
    fun _ h => controlWord_carries_mirror (which := .syncSource) params_ssMask h⟩

end Sys2Proof
end

section
/-! PROOFS, spec/41_control_merge.md. What the four merges do to each bit of their mirror. Every owned mask of the
default table is made of single bits (decision D4), so that a merge sets bits (`getLsbD_or_twoPow`), clears bits
(`getLsbD_andNot_twoPow`), or puts a bank number into a cleared field (`getLsbD_phaseField`). That the two bank merges
do not interfere (R106) is read off the bits that each of them leaves. The state machine of `outputControl` (R107) needs no
positions: what enable and disable lead to holds of every value. -/

namespace Sys2Proof

/-! ## Setting and clearing one bit -/

theorem getLsbD_or_twoPow (v : CommandWord) {k : Nat} (hk : k < 16) (n : Nat) :
    (v ||| BitVec.twoPow 16 k).getLsbD n = if n = k then true else v.getLsbD n := by
  rw [BitVec.getLsbD_or, BitVec.getLsbD_twoPow]
  by_cases h : n = k
  · simp [h, hk]
  · simp [h, Ne.symm h]

theorem getLsbD_andNot_twoPow (v : CommandWord) {k : Nat} (hk : k < 16) (n : Nat) :
    (v &&& ~~~BitVec.twoPow 16 k).getLsbD n = if n = k then false else v.getLsbD n := by
  rw [BitVec.getLsbD_and, BitVec.getLsbD_not, BitVec.getLsbD_twoPow]
  by_cases h : n = k
  · simp [h, hk]
  · simpa [h, Ne.symm h] using BitVec.lt_of_getLsbD

/-! ## The owned bits by their positions (decision D4) -/

theorem params_ocSleep_twoPow : Config.params.ocSleep = BitVec.twoPow 16 13 := rfl
theorem params_ocReset_twoPow : Config.params.ocReset = BitVec.twoPow 16 12 := rfl
theorem params_ocClear_twoPow : Config.params.ocClear = BitVec.twoPow 16 11 := rfl
theorem params_bsFreq_twoPow : Config.params.bsFreq = BitVec.twoPow 16 11 := rfl
theorem params_ssSelsrc_twoPow : Config.params.ssSelsrc = BitVec.twoPow 16 12 := rfl
theorem params_bsPhaseMask_twoPow : Config.params.bsPhaseMask = BitVec.twoPow 16 10 ||| BitVec.twoPow 16 9 := rfl

namespace Machine

/-! ## The output-enable merge (R101) -/

/-- Settles O11: enable clears three bits one after the other, disable sets one. -/
theorem mergeOutputEnabledBits : Obligations.MergeOutputEnabledBits := by
  intro oc n
  constructor
  · have hclear : mergeOutputEnabled oc true
        = oc &&& ~~~BitVec.twoPow 16 13 &&& ~~~BitVec.twoPow 16 12 &&& ~~~BitVec.twoPow 16 11 := by
      rw [mergeOutputEnabled, if_pos rfl, BitVec.not_or, BitVec.not_or, ← BitVec.and_assoc, ← BitVec.and_assoc,
        params_ocSleep_twoPow, params_ocReset_twoPow, params_ocClear_twoPow]
    simp only [hclear, getLsbD_andNot_twoPow, Nat.reduceLT]
    grind
  · rw [mergeOutputEnabled, if_neg Bool.false_ne_true, params_ocReset_twoPow, getLsbD_or_twoPow _ (by decide)]

/-! ## The frequency-bank merge (R102) -/

/-- Settles O12: `true` sets the FREQ bit, `false` clears it. -/
theorem mergeFrequencyBankBits : Obligations.MergeFrequencyBankBits := by
  intro bs select n
  cases select with
  | true => rw [mergeFrequencyBank, if_pos rfl, params_bsFreq_twoPow, getLsbD_or_twoPow _ (by decide)]
  | false =>
    rw [mergeFrequencyBank, if_neg Bool.false_ne_true, params_bsFreq_twoPow, getLsbD_andNot_twoPow _ (by decide)]

/-! ## The phase-bank merge (R103) -/

theorem mergePhaseBank_of_gt {ε : Type} {bank : Nat} (h : 3 < bank) (bs : CommandWord) (p : Params) :
    mergePhaseBank (ε := ε) bs bank p = .error .outOfRange := by
  rw [mergePhaseBank, phaseBankOperand, dif_neg (Nat.not_lt.mpr h)]

theorem mergePhaseBank_of_le {ε : Type} {bank : Nat} (h : bank ≤ 3) (bs : CommandWord) (p : Params) :
    mergePhaseBank (ε := ε) bs bank p
      = .ok ((bs &&& ~~~p.bsPhaseMask) ||| (BitVec.ofNat 16 bank <<< p.bsPhaseShift)) := by
  rw [mergePhaseBank, phaseBankOperand, dif_pos (show bank < Config.nPhaseBanks from Nat.lt_succ_of_le h)]

/-- A bank number in its place has bits at 9 and 10 only (decision D22). -/
theorem getLsbD_phaseField {bank : Nat} (h : bank ≤ 3) (n : Nat) :
    (BitVec.ofNat 16 bank <<< 9).getLsbD n
      = if n = 9 then bank.testBit 0 else if n = 10 then bank.testBit 1 else false := by
  rw [BitVec.getLsbD_shiftLeft, BitVec.getLsbD_ofNat]
  by_cases h9 : n = 9
  · simp [h9]
  by_cases h10 : n = 10
  · simp [h10]
  by_cases hlt : n < 9
  · simp [h9, h10, hlt]
  · have hout : bank.testBit (n - 9) = false := by
      refine Nat.testBit_lt_two_pow (lt_of_lt_of_le (Nat.lt_succ_of_le h) ?_)
      exact Nat.pow_le_pow_right (n := 2) (i := 2) (by decide) (by omega)
    simp [h9, h10, hout]

/-- The cleared PHASE field takes the bits of the bank. -/
theorem mergePhaseBank_bits {ε : Type} {bank : Nat} (h : bank ≤ 3) (bs : CommandWord) :
    ∃ bs', mergePhaseBank (ε := ε) bs bank = .ok bs'
      ∧ ∀ n, bs'.getLsbD n
          = (if n = 9 then bank.testBit 0 else if n = 10 then bank.testBit 1 else bs.getLsbD n) := by
  refine ⟨_, mergePhaseBank_of_le h bs _, fun n => ?_⟩
  rw [params_bsPhaseMask_twoPow, params_bsPhaseShift, BitVec.getLsbD_or, getLsbD_phaseField h, BitVec.not_or,
    ← BitVec.and_assoc, getLsbD_andNot_twoPow _ (by decide), getLsbD_andNot_twoPow _ (by decide)]
  grind

/-- Settles O13: the range check comes before the merge, and a bank in range replaces the field. -/
theorem mergePhaseBankBits : Obligations.MergePhaseBankBits :=
  fun bs _ => ⟨fun h => mergePhaseBank_of_gt h bs _, fun h => mergePhaseBank_bits h bs⟩

/-! ## The sync-source merge (R104) -/

/-- Settles O14: `true` clears the SELSRC bit, `false` sets it. -/
theorem mergeSyncSourceIsInverted : Obligations.MergeSyncSourceIsInverted := by
  intro ss useExternal n
  cases useExternal with
  | true => rw [mergeSyncSource, if_pos rfl, params_ssSelsrc_twoPow, getLsbD_andNot_twoPow _ (by decide), Bool.not_true]
  | false =>
    rw [mergeSyncSource, if_neg Bool.false_ne_true, params_ssSelsrc_twoPow, getLsbD_or_twoPow _ (by decide),
      Bool.not_false]

/-! ## Non-interference of the two bank merges (R106) -/

/-- The PHASE field of a word is what its bits 9 and 10 say. -/
theorem and_phaseMask_eq {v : CommandWord} {bank : Nat} (h : bank ≤ 3) (h9 : v.getLsbD 9 = bank.testBit 0)
    (h10 : v.getLsbD 10 = bank.testBit 1) : v &&& 0x0600#16 = BitVec.ofNat 16 bank <<< 9 := by
  have hmask : 0x0600#16 = BitVec.twoPow 16 10 ||| BitVec.twoPow 16 9 := rfl
  apply BitVec.eq_of_getLsbD_eq
  intro n hn
  rw [getLsbD_phaseField h, hmask, BitVec.getLsbD_and, getLsbD_or_twoPow _ (by decide), BitVec.getLsbD_twoPow]
  grind

/-- Settles O16: the phase-bank merge copies bit 11, and the frequency-bank merge copies bits 9 and 10. -/
theorem bankMergesDoNotInterfere : Obligations.BankMergesDoNotInterfere := by
  intro bs select bank h
  constructor
  · obtain ⟨bs', hok, hbits⟩ := mergePhaseBank_bits (ε := TransportErrorPayload) h (mergeFrequencyBank bs select)
    have hfreq : bs'.getLsbD 11 = select := (hbits 11).trans (mergeFrequencyBankBits bs select 11)
    exact ⟨bs', hok, (BitVec.and_twoPow bs' 11).trans (by rw [hfreq]; rfl)⟩
  · obtain ⟨bs', hok, hbits⟩ := mergePhaseBank_bits (ε := TransportErrorPayload) h bs
    exact ⟨bs', hok, and_phaseMask_eq h ((mergeFrequencyBankBits bs' select 9).trans (hbits 9))
      ((mergeFrequencyBankBits bs' select 10).trans (hbits 10))⟩

/-! ## The state machine of `outputControl` (R107) -/

/-- A value with RESET set has an owned bit set, and so is not ENABLED. -/
theorem outputState_of_reset {oc : CommandWord} {p : Params} (h : oc &&& p.ocReset ≠ 0) :
    outputState oc p = some .resetSleepClear := by
  have howned : oc &&& p.ocMask ≠ 0 := fun hzero => h <| by
    have hsub : p.ocMask &&& p.ocReset = p.ocReset := by
      ext i; simp only [Params.ocMask, BitVec.getElem_and, BitVec.getElem_or]; cases p.ocReset[i] <;> simp
    calc oc &&& p.ocReset
        = oc &&& p.ocMask &&& p.ocReset := by rw [BitVec.and_assoc, hsub]
      _ = 0 := by rw [hzero]; exact BitVec.zero_and
  rw [outputState, if_neg howned, if_pos h]

/-- Enable leads to ENABLED from every value, in every table. -/
theorem outputState_enable (oc : CommandWord) (p : Params) :
    outputState (mergeOutputEnabled oc true p) p = some .enabled := by
  refine if_pos ?_
  calc oc &&& ~~~p.ocMask &&& p.ocMask
      = oc &&& (p.ocMask &&& ~~~p.ocMask) := by rw [BitVec.and_assoc, BitVec.and_comm (~~~p.ocMask)]
    _ = 0 := by rw [BitVec.and_not_self]; exact BitVec.and_zero

/-- Disable leads to RESET_SLEEP_CLEAR from every value, in every table that has a RESET bit. -/
theorem outputState_disable (oc : CommandWord) {p : Params} (h : p.ocReset ≠ 0) :
    outputState (mergeOutputEnabled oc false p) p = some .resetSleepClear := by
  have hset : (oc ||| p.ocReset) &&& p.ocReset = p.ocReset := by
    ext i; simp only [BitVec.getElem_and, BitVec.getElem_or]; cases p.ocReset[i] <;> simp
  exact outputState_of_reset (hset.trans_ne h)

/-- A merge of a reachable value is reachable (R13). -/
theorem legalMirror.outputEnabled {oc : CommandWord} (h : legalMirror .outputControl oc) (enabled : Bool) :
    legalMirror .outputControl (mergeOutputEnabled oc enabled) :=
  mirrorValue_iff_legal.mp (.outputEnabled enabled (mirrorValue_iff_legal.mpr h))

/-- The reachable values stand for the two states: 0x3800 and 0x1000 have RESET set, 0 is ENABLED (R13). -/
theorem legalMirror.outputState_ne_none {oc : CommandWord} (h : legalMirror .outputControl oc) :
    outputState oc ≠ none := by
  rcases h with rfl | rfl | rfl <;> decide

/-- Settles O17: the initial value 0x3800 has RESET set, enable clears the mask, disable sets RESET. -/
theorem outputControlHasTwoStates : Obligations.OutputControlHasTwoStates :=
  ⟨outputState_of_reset (by decide), fun oc h =>
    ⟨h.outputState_ne_none, outputState_enable oc _, outputState_disable oc (by decide), h.outputEnabled true,
      h.outputEnabled false⟩⟩

end Machine

end Sys2Proof
end

section
/-! PROOFS, spec/42_sequencer.md. What the sequencer does. A command row is one visit to the word at `seq_idx`
(`exec_of_encode`), and the loop of `transmit` is described by two states: `State.atWord` before word `k` of its atom is
presented, and `State.waitingAt` after it. From them come the three ways a transmission can end (`transmit_waits`,
`transmit_fails`, `transmit_completes`), and from these the exchange of R129, the order of the words, and the data
operations that the transport stops. The transitions of R128 keep what has been sent of an atom in flight, and steps of
one word each reach what the loop reaches. Last, every function of the machine commutes with a change of the transport's
payload (U7). -/

namespace Sys2Proof

/-! ## The words of the command rows (R50 to R59, R128) -/

/-- The command word of an instruction that is none of the requester's: a term with an operand outside the contract of
the codec has none (U3). -/
def Instr.commandWord? (i : Instr) (p : Params := Config.params) : Option CommandWord :=
  match i with
  | .phase16 addr data => dataWord p .phase16 addr data
  | .phase8 addr data => phase8Word p addr data
  | .frequency16 addr data => dataWord p .frequency16 addr data
  | .frequency8 addr data => dataWord p .frequency8 addr data
  | .bankSelect freq phase => some (encodeControlWord .bankSelect (bankSelectOf freq phase p) p)
  | .syncSourceSelect selsrc => some (encodeControlWord .syncSource (syncSourceOf selsrc p) p)
  | .enableControl sleep reset clear =>
      some (encodeControlWord .outputControl (outputControlOf sleep reset clear p) p)
  | .setFrequency _ _ | .setPhase _ _ | .setOutputEnabled _ _ | .selectActiveFrequencyBank _ _
  | .selectActivePhaseBank _ _ | .selectSyncSource _ _ => none

/-- The two kinds of rows have words at the two ports (R61, R63). -/
theorem encode_of_not_isRequest {i : Instr} {p : Params} (h : Machine.isRequest i = false) :
    encode i p = (i.commandWord? p).map .command := by
  cases i with
  | setFrequency | setPhase | setOutputEnabled | selectActiveFrequencyBank | selectActivePhaseBank
  | selectSyncSource => cases h
  | phase16 | phase8 | frequency16 | frequency8 | bankSelect | syncSourceSelect | enableControl => rfl

theorem requestWord_ne_command {p : Params} {op : Operation} {sel : Nat} {val : Value} {w : CommandWord} :
    requestWord p op sel val ≠ some (.command w) := by
  rw [Ne, requestWord_eq_some]
  rintro ⟨s, -, h⟩
  cases h

/-- Only a command row has a command word. -/
theorem not_isRequest_of_encode {i : Instr} {p : Params} {w : CommandWord} (h : encode i p = some (.command w)) :
    Machine.isRequest i = false := by
  cases i with
  | setFrequency | setPhase | setOutputEnabled | selectActiveFrequencyBank | selectActivePhaseBank
  | selectSyncSource => exact absurd h requestWord_ne_command
  | phase16 | phase8 | frequency16 | frequency8 | bankSelect | syncSourceSelect | enableControl => rfl

theorem commandWord?_of_encode {i : Instr} {p : Params} {w : CommandWord} (h : encode i p = some (.command w)) :
    i.commandWord? p = some w := by
  rw [encode_of_not_isRequest (not_isRequest_of_encode h), Option.map_eq_some_iff] at h
  obtain ⟨w', hw', h⟩ := h
  rwa [← PortWord.command.inj h]

namespace Machine

variable {ε : Type}

/-- The meaning of a command row, in any table: its word is sent (R128). -/
theorem execWith_command {i : Instr} {p : Params} (h : isRequest i = false) (s : State ε) :
    execWith p i s = sendDataCommand (i.commandWord? p) s p := by
  cases i with
  | setFrequency | setPhase | setOutputEnabled | selectActiveFrequencyBank | selectActivePhaseBank
  | selectSyncSource => cases h
  | phase16 | phase8 | frequency16 | frequency8 | bankSelect | syncSourceSelect | enableControl => rfl

theorem exec_of_encode {i : Instr} {w : CommandWord} (h : encode i = some (.command w)) (s : State) :
    exec i s = sendCommand w s := by
  rw [exec_eq_execWith, execWith_command (not_isRequest_of_encode h), commandWord?_of_encode h]
  rfl

theorem sendCommand_of_ne {w : CommandWord} {s : State ε} {p : Params} (h : s.currentWord? ≠ some w) :
    sendCommand w s p = .refused .wordNotInFlight :=
  if_neg h

/-- Settles O23: a command row with a word sends it only where it is the one at `seq_idx`, and what is not well formed
has no word. -/
theorem otherCommandWordsAreNotPresented : Obligations.OtherCommandWordsAreNotPresented := by
  refine ⟨fun i w s he hw => ?_, fun i s hi hwf => ?_⟩
  · rw [exec_of_encode he, sendCommand_of_ne hw]
  · have hnone : encode i = none := by
      rw [← Option.not_isSome_iff_eq_none, encode_isSome, hwf]
      exact Bool.false_ne_true
    rw [encode_of_not_isRequest hi, Option.map_eq_none_iff] at hnone
    rw [exec_eq_execWith, execWith_command hi, hnone]
    rfl

/-! ## One visit of the sequencer (R128) -/

/-- The hold flag, counted from below (R121). -/
theorem State.hold_eq (s : State ε) : s.hold = decide (s.seqIdx.toNat + 1 < s.seqLen.toNat) :=
  decide_eq_decide.mpr (by omega)

/-- In either sub-state of SEND a visit takes the answer to a word that stands presented exactly once (R128). -/
theorem State.presented_eq (s : State ε) (w : CommandWord) :
    (if s.awaiting then s else s.present w)
      = { s with trace := if s.awaiting then s.trace else s.trace ++ [⟨w, s.hold⟩], awaiting := true } := by
  cases ha : s.awaiting with
  | true => rw [if_pos rfl, if_pos rfl, ← ha]
  | false => rfl

/-- Settles O22: a command row is one visit to the word at `seq_idx`, which ends by the transport's answer. -/
theorem commandWordsRunOneVisit : Obligations.CommandWordsRunOneVisit := by
  intro i w s he hw hp shown
  have hexec : exec i s = .next (State.takeAnswer { s with trace := shown, awaiting := true }) := by
    rw [exec_of_encode he, sendCommand_next.mpr ⟨hw, rfl⟩, State.sendWord_some hw, State.presented_eq, State.hold_eq]
  rw [hexec]
  refine ⟨fun hans => ?_, fun rest hans hlt => ?_, fun rest hans hlast => ?_, fun e rest hans => ?_⟩
  · rw [State.takeAnswer_nil (by exact hans)]
  · rw [State.takeAnswer_ok (by exact hans), State.acknowledge_next (by exact hlt)]
  · rw [State.takeAnswer_ok (by exact hans), State.acknowledge_last (by exact hlast.not_lt),
      State.commitPending_none _ (by exact hp)]
    cases s
    cases hp
    rfl
  · rw [State.takeAnswer_err (by exact hans)]
    cases s
    cases hp
    rfl

end Machine
end Sys2Proof

namespace Sys2Proof.Machine
variable {ε : Type}

/-! ## The loop of `transmit` (R120) -/

/-- What the loop of `transmit` leaves at word `k` of its atom: the words before it are on the wire and have been
answered `ok`, and these answers are still there. -/
def State.atWord (s : State ε) (words : List CommandWord) (k : Nat) (answers : List (Ack ε)) : State ε :=
  { s.loadAtom words with
    seqIdx := BitVec.ofNat 3 k, answers := answers, trace := s.trace ++ (wire words).take k }

/-- The same with word `k` presented (R128, second row). -/
def State.waitingAt (s : State ε) (words : List CommandWord) (k : Nat) (answers : List (Ack ε)) : State ε :=
  { s.atWord words k answers with trace := s.trace ++ (wire words).take (k + 1), awaiting := true }

/-- A position in the buffer is a 3-bit number (R19). -/
theorem seq_toNat {n : Nat} (h : n ≤ 4) : (BitVec.ofNat 3 n).toNat = n :=
  Nat.mod_eq_of_lt (by omega)

/-- The buffer holds the words loaded into it. -/
theorem SeqBuf.word?_load (b : SeqBuf) {words : List CommandWord} {k : Nat} (hlen : words.length ≤ 4)
    (hk : k < words.length) : (b.load words).word? k = some words[k] := by
  have hk4 : k < 4 := hk.trans_le hlen
  match k, hk4 with
  | 0, _ | 1, _ | 2, _ | 3, _ => simp [SeqBuf.word?, SeqBuf.load, hk]

section Transmit

variable {s : State ε} {words : List CommandWord} {k : Nat} {answers rest : List (Ack ε)} {e : ε} {p : Params}

theorem State.atWord_zero : s.atWord words 0 s.answers = s.loadAtom words := by
  simp only [State.atWord, List.take_zero, List.append_nil]
  rfl

@[simp] theorem State.atWord_seqIdx : (s.atWord words k answers).seqIdx = BitVec.ofNat 3 k := rfl
@[simp] theorem State.atWord_seqLen : (s.atWord words k answers).seqLen = BitVec.ofNat 3 words.length := rfl

@[simp] theorem State.waitingAt_seqBusy : (s.waitingAt words k answers).seqBusy = true := rfl
@[simp] theorem State.waitingAt_awaiting : (s.waitingAt words k answers).awaiting = true := rfl
@[simp] theorem State.waitingAt_seqIdx : (s.waitingAt words k answers).seqIdx = BitVec.ofNat 3 k := rfl
@[simp] theorem State.waitingAt_seqLen : (s.waitingAt words k answers).seqLen = BitVec.ofNat 3 words.length := rfl
@[simp] theorem State.waitingAt_answers : (s.waitingAt words k answers).answers = answers := rfl
@[simp] theorem State.waitingAt_trace :
    (s.waitingAt words k answers).trace = s.trace ++ (wire words).take (k + 1) := rfl
@[simp] theorem State.waitingAt_results : (s.waitingAt words k answers).results = s.results := rfl
@[simp] theorem State.waitingAt_chip : (s.waitingAt words k answers).chip = s.chip := rfl

theorem State.waitingAt_atom (hlen : words.length ≤ 4) : (s.waitingAt words k answers).atom = words :=
  s.loadAtom_atom hlen

theorem State.atWord_currentWord? (hlen : words.length ≤ 4) (hk : k < words.length) :
    (s.atWord words k answers).currentWord? = some words[k] := by
  rw [State.currentWord?_eq_some, State.atWord_seqIdx, State.atWord_seqLen, seq_toNat (by omega), seq_toNat hlen]
  exact ⟨rfl, hk, s.seqBuf.word?_load hlen hk⟩

/-- A visit to word `k` presents the pair of the atom that stands there (R121). -/
theorem State.present_atWord (hlen : words.length ≤ 4) (hk : k < words.length) :
    (s.atWord words k answers).present words[k] = s.waitingAt words k answers := by
  have hpair : (wire words)[k]? = some ⟨words[k], (s.atWord words k answers).hold⟩ := by
    rw [wire_getElem?, List.getElem?_eq_getElem hk, State.hold, State.atWord_seqIdx, State.atWord_seqLen,
      seq_toNat (by omega), seq_toNat hlen]
    rfl
  rw [State.waitingAt, List.take_add_one, hpair, ← List.append_assoc]
  rfl

theorem State.sendWord_atWord (hlen : words.length ≤ 4) (hk : k < words.length) :
    (s.atWord words k answers).sendWord p = (s.waitingAt words k answers).takeAnswer p := by
  rw [State.sendWord_some (State.atWord_currentWord? hlen hk), ← State.present_atWord hlen hk]
  rfl

/-- The answer `ok` before the last word takes the loop to the next word. -/
theorem State.takeAnswer_waitingAt_next (hlen : words.length ≤ 4) (hk : k + 1 < words.length) :
    (s.waitingAt words k (.ok :: rest)).takeAnswer p = s.atWord words (k + 1) rest := by
  change (s.waitingAt words k rest).acknowledge p = _
  rw [State.acknowledge_next, State.atWord, BitVec.ofNat_add]
  · rfl
  · rwa [State.waitingAt_seqIdx, State.waitingAt_seqLen, seq_toNat (by omega), seq_toNat hlen]

/-- The answer `ok` to the last word ends the operation, and a commit kept for this is made (R147). -/
theorem State.takeAnswer_waitingAt_last (hlen : words.length ≤ 4) (hk : k + 1 = words.length) :
    (s.waitingAt words k (.ok :: rest)).takeAnswer p = State.finish
      { (s.waitingAt words k rest).commitPending with
        seqIdx := BitVec.ofNat 3 words.length, chip := s.chip.takeAtom words p } .ok := by
  change (s.waitingAt words k rest).acknowledge p = _
  rw [State.acknowledge_last, State.waitingAt_atom hlen]
  · rfl
  · rw [State.waitingAt_seqIdx, State.waitingAt_seqLen, seq_toNat (by omega), seq_toNat hlen]
    exact hk.not_lt

/-- The answer `err(e)` ends the operation where it stands (R123). -/
theorem State.takeAnswer_waitingAt_err (hlen : words.length ≤ 4) :
    (s.waitingAt words k (.err e :: rest)).takeAnswer p
      = State.raise { s.waitingAt words k rest with chip := s.chip.loseAtom words p } (.transport e) := by
  change (s.waitingAt words k rest).abort e p = _
  rw [State.abort, State.waitingAt_atom hlen]
  rfl

/-- Each answer `ok` before the last word is one round of the loop. -/
theorem State.sendWords_atWord (hlen : words.length ≤ 4) (n j : Nat) (hk : j + k < words.length) :
    State.sendWords (k + n) (s.atWord words j (List.replicate k .ok ++ rest)) p
      = State.sendWords n (s.atWord words (j + k) rest) p := by
  induction k generalizing j with
  | zero => rw [Nat.zero_add]; rfl
  | succ k ih =>
    have hnext : (s.atWord words j (List.replicate (k + 1) .ok ++ rest)).sendWord p
        = s.atWord words (j + 1) (List.replicate k .ok ++ rest) := by
      rw [State.sendWord_atWord hlen (by omega), List.replicate_succ, List.cons_append,
        State.takeAnswer_waitingAt_next hlen (by omega)]
    rw [Nat.add_right_comm, State.sendWords_succ, hnext, if_pos ⟨rfl, rfl⟩, ih (j + 1) (by omega),
      Nat.add_right_comm, Nat.add_assoc]

/-- Where the answers are `ok` up to word `k`, and the visit to it ends the operation or waits, `transmit` is that
visit. -/
theorem State.transmit_eq_takeAnswer {t : State ε} (hlen : words.length ≤ 4) (hk : k < words.length)
    (hans : s.answers = List.replicate k .ok ++ rest) (ht : (s.waitingAt words k rest).takeAnswer p = t)
    (hstop : ¬ (t.seqBusy = true ∧ t.awaiting = false)) : s.transmit words p = t := by
  have htransmit : s.transmit words p = (s.loadAtom words).sendWords words.length p := by
    cases words with
    | nil => cases hk
    | cons w tail => rfl
  obtain ⟨n, hn⟩ : ∃ n, words.length = k + (n + 1) := ⟨words.length - k - 1, by omega⟩
  rw [htransmit, ← State.atWord_zero, hans, hn, State.sendWords_atWord hlen _ _ (by omega), Nat.zero_add,
    State.sendWords_succ, State.sendWord_atWord hlen hk, ht, if_neg hstop]

/-- With no answer to word `k`, `transmit` waits there (R128, R203). -/
theorem State.transmit_waits (hlen : words.length ≤ 4) (hk : k < words.length)
    (hans : s.answers = List.replicate k .ok) : s.transmit words p = s.waitingAt words k [] :=
  State.transmit_eq_takeAnswer hlen hk (by rw [hans, List.append_nil]) (State.takeAnswer_nil rfl) (by simp)

/-- With word `k` answered `err(e)`, `transmit` ends there with the transport's error (R123). -/
theorem State.transmit_fails (hlen : words.length ≤ 4) (hk : k < words.length)
    (hans : s.answers = List.replicate k .ok ++ .err e :: rest) :
    s.transmit words p
      = State.raise { s.waitingAt words k rest with chip := s.chip.loseAtom words p } (.transport e) :=
  State.transmit_eq_takeAnswer hlen hk hans (State.takeAnswer_waitingAt_err hlen) (by simp)

/-- With every word answered `ok`, `transmit` ends after the last one with `OK` (R122). -/
theorem State.transmit_completes (hlen : words.length ≤ 4) (hk : k + 1 = words.length)
    (hans : s.answers = List.replicate words.length .ok ++ rest) :
    s.transmit words p = State.finish
      { (s.waitingAt words k rest).commitPending with
        seqIdx := BitVec.ofNat 3 words.length, chip := s.chip.takeAtom words p } .ok := by
  rw [← hk, List.replicate_succ', List.append_assoc] at hans
  exact State.transmit_eq_takeAnswer hlen (by omega) hans (State.takeAnswer_waitingAt_last hlen hk) (by simp)

end Transmit

/-- The pairs of an atom are as many as its words. -/
theorem wire_length (words : List CommandWord) : (wire words).length = words.length := by
  fun_induction wire words with
  | case1 => rfl
  | case2 => rfl
  | case3 w rest _ ih => exact congrArg (· + 1) ih

theorem take_wire_of_last {words : List CommandWord} {k : Nat} (hk : k + 1 = words.length) :
    (wire words).take (k + 1) = wire words :=
  List.take_of_length_le ((wire_length words).trans hk.symm).le

/-- Settles O18: the loop goes on to the word that is answered otherwise, or to the last one. -/
theorem transmitFollowsTheAnswers : Obligations.TransmitFollowsTheAnswers := by
  intro s words hpos hlen hp
  refine ⟨fun rest hans => ?_, fun k e rest hk hans => ?_, fun k hk hans => ?_⟩
  · have hk : words.length - 1 + 1 = words.length := Nat.sub_add_cancel hpos
    rw [State.transmit_completes hlen hk hans, State.commitPending_none _ (by exact hp), State.waitingAt,
      take_wire_of_last hk]
    cases s
    cases hp
    rfl
  · rw [State.transmit_fails hlen hk hans]
    cases s
    cases hp
    rfl
  · rw [State.transmit_waits hlen hk hans]
    rfl

/-- The `holdSelectMask` of an exchange, 1 on every word but the last, is the hold flags of the atom (R129). -/
theorem wire_eq_zipIdx (words : List CommandWord) :
    (words.zipIdx.map fun p => (⟨p.1, decide (p.2 < words.length - 1)⟩ : WireEvent)) = wire words := by
  apply List.ext_getElem?
  intro k
  rw [wire_getElem?, List.getElem?_map, List.getElem?_zipIdx, Option.map_map, Nat.zero_add]
  rfl

/-- Settles O19: the answer to an exchange is the same answers word by word. -/
theorem transmitIsOneExchange : Obligations.TransmitIsOneExchange := by
  intro s words answer rest hpos hlen hbound hans pairs t
  have hpairs : pairs = wire words := wire_eq_zipIdx words
  rw [hpairs]
  match answer with
  | none =>
    have hk : words.length - 1 + 1 = words.length := Nat.sub_add_cancel hpos
    have ht : t = _ := State.transmit_completes hlen hk hans
    rw [ht]
    refine ⟨?_, rfl, fun _ => ⟨?_, ?_⟩, nofun⟩
    · exact State.commitPending_answers _
    · exact (State.commitPending_trace _).trans (congrArg (s.trace ++ ·) (take_wire_of_last hk))
    · exact congrArg (· ++ [.ok]) (State.commitPending_results _)
  | some (k, e) =>
    rw [exchangeAnswers, List.append_assoc, List.singleton_append] at hans
    have ht : t = _ := State.transmit_fails hlen (hbound k e rfl) hans
    rw [ht]
    refine ⟨rfl, rfl, nofun, ?_⟩
    rintro _ _ ⟨⟩
    exact ⟨rfl, rfl⟩

/-- Answers are `ok` for the first `n` words, or up to one that is answered with an error or not at all. -/
theorem answers_cases (answers : List (Ack ε)) (n : Nat) :
    (∃ rest, answers = List.replicate n .ok ++ rest)
    ∨ ∃ k, k < n ∧ (answers = List.replicate k .ok ∨ ∃ e rest, answers = List.replicate k .ok ++ .err e :: rest) := by
  induction n generalizing answers with
  | zero => exact .inl ⟨answers, rfl⟩
  | succ n ih =>
    match answers with
    | [] => exact .inr ⟨0, n.succ_pos, .inl rfl⟩
    | .err e :: rest => exact .inr ⟨0, n.succ_pos, .inr ⟨e, rest, rfl⟩⟩
    | .ok :: rest =>
      rcases ih rest with ⟨tail, rfl⟩ | ⟨k, hk, rfl | ⟨e, tail, rfl⟩⟩
      · exact .inl ⟨tail, rfl⟩
      · exact .inr ⟨k + 1, Nat.succ_lt_succ hk, .inl rfl⟩
      · exact .inr ⟨k + 1, Nat.succ_lt_succ hk, .inr ⟨e, tail, rfl⟩⟩

/-- Whatever the answers, a transmission puts the pairs of its atom on the wire up to some word. -/
theorem State.transmit_trace (s : State ε) (p : Params) {words : List CommandWord} (hpos : 0 < words.length)
    (hlen : words.length ≤ 4) :
    ∃ k, k < words.length ∧ (s.transmit words p).trace = s.trace ++ (wire words).take (k + 1) := by
  rcases answers_cases s.answers words.length with ⟨rest, hans⟩ | ⟨k, hk, hans | ⟨e, rest, hans⟩⟩
  · refine ⟨words.length - 1, by omega, ?_⟩
    rw [State.transmit_completes hlen (Nat.sub_add_cancel hpos) hans]
    exact State.commitPending_trace _
  · exact ⟨k, hk, by rw [State.transmit_waits hlen hk hans]; rfl⟩
  · exact ⟨k, hk, by rw [State.transmit_fails hlen hk hans]; rfl⟩

/-- Settles O20: a part of the pairs of the atom from its start has the words and hold flags of the atom. -/
theorem transmitPresentsItsWordsInOrder : Obligations.TransmitPresentsItsWordsInOrder := by
  intro s words hpos hlen
  obtain ⟨k, hk, htrace⟩ := s.transmit_trace Config.params hpos hlen
  have hsent : ((wire words).take (k + 1)).length = k + 1 := by
    rw [List.length_take, wire_length]
    omega
  refine ⟨_, htrace, by omega, by omega, fun i hi => ?_⟩
  rw [List.getElem?_take, if_pos (hsent ▸ hi), wire_getElem?]

/-- Settles O21: nothing is loaded and nothing presented. -/
theorem transmitOfNothing : Obligations.TransmitOfNothing := by
  intro s
  rw [State.transmit_nil]
  exact ⟨State.finish_trace s .ok, State.finish_resKind s .ok, State.finish_answers s .ok⟩

end Sys2Proof.Machine

namespace Sys2Proof

/-- A data word of the default table is its code, its address and its byte, one after the other (R50, decision D1). -/
theorem encodeWord_eq_append (c : CommandCode) (a : Config.params.Address) (b : Byte) :
    encodeWord Config.params c a b
      = BitVec.ofNat 4 (Config.params.code c).val ++ BitVec.ofNat 4 a.val ++ b := by
  apply BitVec.eq_of_getLsbD_eq
  intro i hi
  rw [encodeWord_getLsbD c a b i hi, BitVec.getLsbD_append, BitVec.getLsbD_append]
  have hbit : ∀ (x j : Nat), j < 4 → (BitVec.ofNat 4 x).getLsbD j = x.testBit j := fun x j hj => by
    rw [BitVec.getLsbD_ofNat, decide_eq_true hj, Bool.true_and]
  by_cases h8 : i < 8
  · rw [if_pos h8, if_pos h8]
  · rw [if_neg h8, if_neg h8]
    by_cases h12 : i < 12
    · rw [if_pos h12, if_pos (by omega), hbit _ _ (by omega)]
    · rw [if_neg h12, if_neg (by omega), Nat.sub_sub, hbit _ _ (by omega)]

namespace Machine

/-! ## A data operation that the transport stops (R123, R198, R203) -/

section DataTransfer

variable {writes : List (RegisterWrite Config.params.addrWidth)}

/-- A data atom lost leaves the chip's control registers (R22). -/
theorem loseAtom_eq_slots (hslot : ToSlots writes) (c : ChipShadow) :
    c.loseAtom (atomWords Config.params writes)
      = { c with slots := (c.loseAtom (atomWords Config.params writes)).slots } := by
  induction writes generalizing c with
  | nil => rfl
  | cons t rest ih =>
    obtain ⟨ht, hrest⟩ := List.forall_mem_cons.mp hslot
    have hlose : c.lose (t.word Config.params) = { c with slots := Memory.forget c.slots t.address.val } := by
      rw [ChipShadow.lose, ht]
    rw [atomWords_cons, ChipShadow.loseAtom_cons, hlose]
    exact ih hrest _

/-- A data atom lost makes the slots it goes to unknown, and no other (R198). -/
theorem read_loseAtom (hslot : ToSlots writes) (c : ChipShadow) (a : Nat) :
    Memory.read (c.loseAtom (atomWords Config.params writes)).slots a
      = if a ∈ writes.map fun t => t.address.val then none else Memory.read c.slots a := by
  induction writes generalizing c with
  | nil => rfl
  | cons t rest ih =>
    obtain ⟨ht, hrest⟩ := List.forall_mem_cons.mp hslot
    rw [atomWords_cons, ChipShadow.loseAtom_cons, ih hrest, ChipShadow.read_lose ht, ← ite_or]
    exact if_congr (by rw [List.map_cons, List.mem_cons, or_comm]) rfl rfl

variable {s : State} {k : Nat}

/-- The transfer of a data operation of a ready block, where word `k` is answered with an error. -/
theorem State.Ready.transfer_fails (hs : s.Ready) (hslot : ToSlots writes) (hlen : writes.length ≤ 4)
    (hk : k < writes.length) {e : TransportErrorPayload} {rest : List Ack}
    (hans : s.answers = List.replicate k .ok ++ .err e :: rest) :
    ∃ slots : Memory,
      State.transmit { s with seqBusy := true, pendingCommit := none } (atomWords Config.params writes) = { s with
        seqBuf := s.seqBuf.load (atomWords Config.params writes), seqLen := BitVec.ofNat 3 writes.length,
        seqIdx := BitVec.ofNat 3 k, awaiting := false, pendingCommit := none, resKind := .transportError,
        resPayload := e, results := s.results ++ [.error (.transport e)], answers := rest,
        trace := s.trace ++ (wire (atomWords Config.params writes)).take (k + 1),
        chip := { s.chip with slots := slots } }
      ∧ ∀ a : Nat, Memory.read slots a
          = if a ∈ writes.map fun t => t.address.val then none else Memory.read s.chip.slots a := by
  rw [← atomWords_length Config.params writes] at hlen hk ⊢
  refine ⟨(s.chip.loseAtom (atomWords Config.params writes)).slots, ?_, read_loseAtom hslot s.chip⟩
  rw [State.transmit_fails hlen hk (by exact hans), ← loseAtom_eq_slots hslot, hs.1]
  rfl

/-- The transfer of a data operation of a ready block, where word `k` is not answered. -/
theorem State.transfer_waits (hlen : writes.length ≤ 4) (hk : k < writes.length)
    (hans : s.answers = List.replicate k .ok) :
    State.transmit { s with seqBusy := true, pendingCommit := none } (atomWords Config.params writes) = { s with
      seqBusy := true, seqBuf := s.seqBuf.load (atomWords Config.params writes),
      seqLen := BitVec.ofNat 3 writes.length, seqIdx := BitVec.ofNat 3 k, awaiting := true, pendingCommit := none,
      answers := [], trace := s.trace ++ (wire (atomWords Config.params writes)).take (k + 1) } := by
  rw [← atomWords_length Config.params writes] at hlen hk ⊢
  rw [State.transmit_waits hlen hk (by exact hans)]
  rfl

end DataTransfer

/-- A `setFrequency` to a bank of a ready block is the transfer of its four words (R140, R141). -/
theorem State.Ready.exec_setFrequency {s : State} (hs : s.Ready) (bank : Fin 2) (value : Value) :
    exec (.setFrequency bank.val value) s = .next (State.transmit { s with seqBusy := true, pendingCommit := none }
      (atomWords Config.params (splitFrequency value (Config.params.freqBase bank)))) := by
  obtain ⟨t, ht, -⟩ := exec_serves (i := .setFrequency bank.val value) rfl hs
  rw [ht, exec_setFrequency_next ht]

/-- A `setPhase` of a legal value to a bank of a ready block is the transfer of its two words (R140, R142). -/
theorem State.Ready.exec_setPhase {s : State} (hs : s.Ready) (bank : Fin 4) {value : Value}
    (hv : value.toNat ≤ 4095) :
    ∃ writes, splitPhase (ε := TransportErrorPayload) value (Config.params.phaseBase bank) = .ok writes
      ∧ exec (.setPhase bank.val value) s = .next (State.transmit { s with seqBusy := true, pendingCommit := none }
        (atomWords Config.params writes)) := by
  obtain ⟨t, ht, -⟩ := exec_serves (i := .setPhase bank.val value) rfl hs
  obtain ⟨writes, hsplit, rfl⟩ := exec_setPhase_next hv ht
  exact ⟨writes, hsplit, ht⟩

/-- The four words of a frequency, written out (R53, R54). -/
theorem atomWords_splitFrequency_eq_append (value : Value) (bank : Fin 2) {base : Nat}
    (hbase : (Config.params.freqBase bank).1.val = base) :
    atomWords Config.params (splitFrequency value (Config.params.freqBase bank)) =
      [ 0x3#4 ++ BitVec.ofNat 4 base ++ value.extractLsb' 24 8,
        0x2#4 ++ BitVec.ofNat 4 (base - 1) ++ value.extractLsb' 16 8,
        0x3#4 ++ BitVec.ofNat 4 (base - 2) ++ value.extractLsb' 8 8,
        0x2#4 ++ BitVec.ofNat 4 (base - 3) ++ value.extractLsb' 0 8 ] := by
  subst hbase
  simp only [atomWords_splitFrequency, encodeWord_eq_append, below_val]
  rfl

/-- The two words of a phase, written out (R55, R56, decision D13). -/
theorem atomWords_splitPhase_eq_append {value : Value} {bank : Fin 4}
    {writes : List (RegisterWrite Config.params.addrWidth)}
    (hs : splitPhase (ε := TransportErrorPayload) value (Config.params.phaseBase bank) = .ok writes) {base : Nat}
    (hbase : (Config.params.phaseBase bank).1.val = base) :
    atomWords Config.params writes =
      [ 0x1#4 ++ BitVec.ofNat 4 base ++ (0x0#4 ++ value.extractLsb' 8 4),
        0x0#4 ++ BitVec.ofNat 4 (base - 1) ++ value.extractLsb' 0 8 ] := by
  have hnibble : ∀ x : BitVec 4, x.setWidth 8 = 0x0#4 ++ x := by decide
  obtain rfl := eq_of_splitPhase_ok hs
  subst hbase
  simp only [atomWords_cons, atomWords_nil, RegisterWrite.word, encodeWord_eq_append, below_val, hnibble]
  rfl

/-- Settles O27: the transfer of the four words stops at word `k`, and what has been lost is the bank. -/
theorem setFrequencyStopsWithTheTransport : Obligations.SetFrequencyStopsWithTheTransport := by
  intro s sel val k hs hsel hk base w0 w1 w2 w3 sent
  obtain ⟨bank, rfl⟩ : ∃ bank : Fin 2, bank.val = sel := ⟨⟨sel, by omega⟩, rfl⟩
  have hbase : (Config.params.freqBase bank).1.val = base := by
    revert bank; decide
  have hwords : _ = [w0, w1, w2, w3] := atomWords_splitFrequency_eq_append val bank hbase
  have hexec := hs.exec_setFrequency bank val
  have hlen : (splitFrequency val (Config.params.freqBase bank)).length = 4 := rfl
  rw [hexec]
  refine ⟨fun e rest hans => ?_, fun hans => ?_⟩
  · obtain ⟨slots, ht, hread⟩ := hs.transfer_fails (splitFrequency_toSlots val _) hlen.le hk hans
    rw [ht, hwords]
    refine ⟨slots, rfl, fun a => (hread a).trans (if_congr ?_ rfl rfl)⟩
    simp [splitFrequency, hbase]
  · rw [State.transfer_waits hlen.le hk hans, hwords]
    rfl

/-- Settles O29: the same of the two words of a phase. -/
theorem setPhaseStopsWithTheTransport : Obligations.SetPhaseStopsWithTheTransport := by
  intro s sel val k hs hsel hval hk base b0 w0 w1 sent
  obtain ⟨bank, rfl⟩ : ∃ bank : Fin 4, bank.val = sel := ⟨⟨sel, by omega⟩, rfl⟩
  have hbase : (Config.params.phaseBase bank).1.val = base := params_phaseBase bank
  obtain ⟨writes, hsplit, hexec⟩ := hs.exec_setPhase bank hval
  have hwords : _ = [w0, w1] := atomWords_splitPhase_eq_append hsplit hbase
  have hlen : writes.length = 2 := congrArg List.length (eq_of_splitPhase_ok hsplit)
  rw [← hlen] at hk
  rw [hexec]
  refine ⟨fun e rest hans => ?_, fun hans => ?_⟩
  · obtain ⟨slots, ht, hread⟩ := hs.transfer_fails (splitPhase_toSlots hsplit) (by omega) hk hans
    rw [ht, hwords, hlen]
    refine ⟨slots, rfl, fun a => (hread a).trans (if_congr ?_ rfl rfl)⟩
    rw [eq_of_splitPhase_ok hsplit]
    simp [hbase]
  · rw [State.transfer_waits (by omega) hk hans, hwords, hlen]
    rfl

end Machine
end Sys2Proof

namespace Sys2Proof.Machine

/-! ## The words of an atom in flight (R124, R128) -/

/-- With word `w` presented besides, one more pair of the atom is on the wire. -/
theorem State.take_wire_succ {ε : Type} {s : State ε} {w : CommandWord} (hw : s.currentWord? = some w)
    (hlen : s.atom.length = s.seqLen.toNat) :
    (wire s.atom).take (s.seqIdx.toNat + 1) = (wire s.atom).take s.seqIdx.toNat ++ [⟨w, s.hold⟩] := by
  rw [List.take_add_one, wire_getElem?, State.atom_getElem?_of_currentWord? hw, hlen]
  rfl

/-- Between operations there is nothing to have been sent. -/
theorem State.Sent.of_idle {s : State} (h : s.seqBusy = false) : s.Sent := fun hb => by cases h.symm.trans hb

/-- Nothing of an atom just loaded has been sent. -/
theorem State.loadAtom_sent (s : State) (words : List CommandWord) : (s.loadAtom words).Sent := fun _ =>
  ⟨s.trace, (List.append_nil _).symm⟩

/-- A transition presents the next pair of the atom, moves on past it, or ends the operation (R128). -/
theorem State.Sent.move {s t : State} (h : s.Sent) (hs : s.Inv) (hm : s.Move Config.params t) : t.Sent := by
  obtain ⟨before, hsent⟩ := h hm.seqBusy
  obtain ⟨-, hlen, -⟩ := hs.sending hm.seqBusy
  cases hm with
  | @present w hw ha =>
    refine fun _ => ⟨before, ?_⟩
    rw [ha] at hsent
    rw [State.present_trace, hsent, List.append_assoc]
    exact congrArg (before ++ ·) (State.take_wire_succ hw hlen).symm
  | next hw ha hans hlt =>
    refine fun _ => ⟨before, ?_⟩
    rw [ha] at hsent
    exact (seqIdx_succ_toNat hlt).symm ▸ hsent
  | complete => exact .of_idle rfl
  | abort => exact .of_idle rfl

/-- So the two invariants are kept together. -/
theorem State.Inv.move_sent {s t : State} (h : s.Inv ∧ s.Sent) (hm : s.Move Config.params t) : t.Inv ∧ t.Sent :=
  ⟨h.1.move hm, h.2.move h.1 hm⟩

theorem State.Sound.transmit_sent {s : State} (h : s.Sound) (hp : s.pendingCommit = none) {words : List CommandWord}
    (hw : s.LegalAtom words) : (s.transmit words).Sent :=
  (State.transmit_keeps (fun _ _ => State.Inv.move_sent) hw.ne_nil ⟨h.loadAtom hp hw, s.loadAtom_sent words⟩).2

theorem State.Sound.runs_sent {s t : State} {i : Instr} (h : s.Sound) (hp : s.pendingCommit = none)
    (hr : s.Runs i t) : t.Sent := by
  cases hr with
  | refused e => exact .of_idle rfl
  | data hw => exact h.transmit_sent hp (hw.legal s)
  | @control m hfamily hvalue =>
    have hlegal := mirrorValue_iff_legal.mp (hvalue (mirrorValue_iff_legal.mpr (h.mirrors m.mirror)))
    exact (h.commit hlegal).transmit_sent (by rwa [State.commit_pendingCommit]) (s.commit_legalAtom m)

/-- Settles O53: the transitions of the sequencer keep it, and an operation starts with nothing sent. -/
theorem stepKeepsTheSentWords : Obligations.StepKeepsTheSentWords := by
  intro s t hs hsent h
  obtain ⟨hmirrors, hwire, hslots⟩ := hs.sound
  cases step_cases h with
  | visit hb =>
    exact (State.sendWord_keeps (fun _ _ => State.Inv.move_sent) s ⟨hs, hsent⟩).2
  | attach hb hl =>
    refine State.Sound.transmit_sent ?_ ?_ (State.controlWord_legal _ .outputControl)
    · exact ⟨hmirrors, hwire, hslots⟩
    · rfl
  | idle hb hi => exact hsent
  | request hb hl hi hd hr =>
    refine State.Sound.runs_sent ?_ ?_ hr
    · exact ⟨hmirrors, hwire, hslots⟩
    · rfl
  | reserved hb => exact .of_idle rfl
  | detach hb => exact .of_idle hb
  | reattach hb hl => exact .of_idle rfl

/-! ## Steps of one word each (R128, R130) -/

/-- What may stand on the wire decodes (R61, R62). -/
theorem decodes_of_legalEvent {e : WireEvent} (h : legalEvent e = true) : ∃ i, decodeCommand e.word = .ok i := by
  unfold legalEvent at h
  cases hd : decodeCommand e.word with
  | ok i => exact ⟨i, rfl⟩
  | error err => rw [hd] at h; cases h

/-- While busy the invariant has a word at `seq_idx`, and it is one the block emits. -/
theorem State.Inv.currentWord? {s : State} (h : s.Inv) (hb : s.seqBusy = true) :
    ∃ w i, s.currentWord? = some w ∧ decodeCommand w = .ok i := by
  obtain ⟨hatom, hlen, hlt⟩ := h.sending hb
  have hlt4 : s.seqIdx.toNat < 4 := by have := hatom.length; omega
  obtain ⟨w, hw⟩ : ∃ w, s.seqBuf.word? s.seqIdx.toNat = some w := by
    match s.seqIdx.toNat, hlt4 with
    | 0, _ | 1, _ | 2, _ | 3, _ => exact ⟨_, rfl⟩
  have hw := State.currentWord?_eq_some.mpr ⟨hb, hlt, hw⟩
  obtain ⟨i, hi⟩ := decodes_of_legalEvent (hatom.wire_legal h.mirrors _ (State.presented_mem_wire hw hlen))
  exact ⟨w, i, hw, hi⟩

/-- While busy a step is the visit to the word at `seq_idx` (R127, R128). -/
theorem State.Inv.step_eq_sendWord {s : State} (h : s.Inv) (hb : s.seqBusy = true) : step s = .next s.sendWord := by
  obtain ⟨w, i, hw, hd⟩ := h.currentWord? hb
  rw [stepRunsTheDecodedInstruction.2 s w i hw hd, exec_of_encode (encode_of_decodeCommand hd),
    sendCommand_next.mpr ⟨hw, rfl⟩]

/-- A visit to a word that is answered ends the operation or goes on to the next word (R128). -/
theorem State.sendWord_answered {ε : Type} {s : State ε} {w : CommandWord} {a : Ack ε} {rest : List (Ack ε)}
    (p : Params) (hw : s.currentWord? = some w) (hans : s.answers = a :: rest) :
    (s.sendWord p).seqBusy = false
    ∨ ((s.sendWord p).seqBusy = true ∧ (s.sendWord p).awaiting = false ∧ (s.sendWord p).answers = rest
      ∧ (s.sendWord p).seqLen = s.seqLen ∧ (s.sendWord p).seqIdx.toNat = s.seqIdx.toNat + 1) := by
  obtain ⟨u, hu, huw, hua, e⟩ := State.sendWord_cases hw p
  obtain ⟨hb, huans, hlen, hidx⟩ :
      u.seqBusy = true ∧ u.answers = a :: rest ∧ u.seqLen = s.seqLen ∧ u.seqIdx = s.seqIdx := by
    refine ⟨State.seqBusy_of_currentWord? huw, ?_⟩
    rcases hu with rfl | ⟨-, rfl⟩ <;> exact ⟨hans, rfl, rfl⟩
  rw [e, ← hlen, ← hidx]
  cases a with
  | err er => exact .inl (by rw [State.takeAnswer_err huans]; rfl)
  | ok =>
    rw [State.takeAnswer_ok huans]
    by_cases hlt : u.seqIdx.toNat + 1 < u.seqLen.toNat
    · rw [State.acknowledge_next (by exact hlt)]
      exact .inr ⟨hb, rfl, rfl, rfl, seqIdx_succ_toNat hlt⟩
    · rw [State.acknowledge_last (by exact hlt)]
      exact .inl rfl

/-- A run of `k + 1` steps begins with a step. -/
theorem run_succ {s t : State} (h : step s = .next t) (k : Nat) :
    Sys2Proof.core.run (k + 1) s = Sys2Proof.core.run k t := by
  have hcore : Sys2Proof.core.step s = .next t := h
  simp only [Host.Core.run, hcore]

/-- With an answer for each word left, the steps of a run do what the rounds of the loop do, until the operation has
ended. -/
theorem State.Inv.run_eq_sendWords {s : State} (h : s.Inv) (hb : s.seqBusy = true) (n : Nat)
    (hn : s.seqLen.toNat - s.seqIdx.toNat ≤ n) (hans : s.seqLen.toNat - s.seqIdx.toNat ≤ s.answers.length) :
    ∃ k, 1 ≤ k ∧ k ≤ n ∧ Sys2Proof.core.run k s = .next (State.sendWords n s)
      ∧ (State.sendWords n s).seqBusy = false := by
  induction n generalizing s with
  | zero =>
    obtain ⟨-, -, hlt⟩ := h.sending hb
    omega
  | succ n ih =>
    have hstep := h.step_eq_sendWord hb
    obtain ⟨-, -, hlt⟩ := h.sending hb
    obtain ⟨w, -, hw, -⟩ := h.currentWord? hb
    obtain ⟨a, rest, hcons⟩ := List.exists_cons_of_length_pos (l := s.answers) (by omega)
    rw [hcons, List.length_cons] at hans
    rcases State.sendWord_answered Config.params hw hcons with hend | ⟨hb', ha', hans', hlen', hidx'⟩
    · refine ⟨1, le_rfl, by omega, ?_, ?_⟩ <;> rw [State.sendWords_succ, if_neg (by simp [hend])]
      · rw [run_succ hstep]; rfl
      · exact hend
    · obtain ⟨k, hk, hkn, hrun, hend⟩ := ih (stepKeepsTheInvariant s _ h hstep) hb'
        (by rw [hlen', hidx']; omega) (by rw [hlen', hidx', hans']; omega)
      refine ⟨k + 1, by omega, by omega, ?_, ?_⟩ <;> rw [State.sendWords_succ, if_pos ⟨hb', ha'⟩]
      · rw [run_succ hstep, hrun]
      · exact hend

/-- Settles O25: an atom has at most four words, so that four rounds of the loop are enough. -/
theorem stepwiseSendingReachesTransmit : Obligations.StepwiseSendingReachesTransmit := by
  intro s h hb hans
  obtain ⟨hatom, hlen, -⟩ := h.sending hb
  obtain ⟨-, hlen4⟩ := hatom.length
  exact h.run_eq_sendWords hb 4 (by omega) hans

end Sys2Proof.Machine

namespace Sys2Proof.Machine

/-! ## The transport's payload (R130, U7) -/

variable {ε ε' : Type}

/-- An error with its payload renamed. -/
def OpError.map (f : ε → ε') : OpError ε → OpError ε'
  | .invalidInput => .invalidInput
  | .outOfRange => .outOfRange
  | .transport e => .transport (f e)

/-- What a step is to do, with its payloads renamed. -/
def Fetched.map (f : ε → ε') : Fetched ε → Fetched ε'
  | .run i s => .run i (s.mapPayload f)
  | .done s => .done (s.mapPayload f)
  | .fault r => .fault r
  | .refuse r => .refuse r

section Payload

variable (f : ε → ε') (s : State ε) (p : Params)

@[simp] theorem State.mapPayload_outputControl : (s.mapPayload f).outputControl = s.outputControl := rfl
@[simp] theorem State.mapPayload_bankSelect : (s.mapPayload f).bankSelect = s.bankSelect := rfl
@[simp] theorem State.mapPayload_syncSource : (s.mapPayload f).syncSource = s.syncSource := rfl
@[simp] theorem State.mapPayload_seqBusy : (s.mapPayload f).seqBusy = s.seqBusy := rfl
@[simp] theorem State.mapPayload_seqBuf : (s.mapPayload f).seqBuf = s.seqBuf := rfl
@[simp] theorem State.mapPayload_seqLen : (s.mapPayload f).seqLen = s.seqLen := rfl
@[simp] theorem State.mapPayload_seqIdx : (s.mapPayload f).seqIdx = s.seqIdx := rfl
@[simp] theorem State.mapPayload_resKind : (s.mapPayload f).resKind = s.resKind := rfl
@[simp] theorem State.mapPayload_resPayload : (s.mapPayload f).resPayload = f s.resPayload := rfl
@[simp] theorem State.mapPayload_awaiting : (s.mapPayload f).awaiting = s.awaiting := rfl
@[simp] theorem State.mapPayload_pendingCommit : (s.mapPayload f).pendingCommit = s.pendingCommit := rfl
@[simp] theorem State.mapPayload_lifecycle : (s.mapPayload f).lifecycle = s.lifecycle := rfl
@[simp] theorem State.mapPayload_inputs : (s.mapPayload f).inputs = s.inputs := rfl
@[simp] theorem State.mapPayload_answers : (s.mapPayload f).answers = s.answers.map (Ack.map f) := rfl
@[simp] theorem State.mapPayload_trace : (s.mapPayload f).trace = s.trace := rfl
@[simp] theorem State.mapPayload_results : (s.mapPayload f).results = s.results.map (OpResult.map f) := rfl
@[simp] theorem State.mapPayload_chip : (s.mapPayload f).chip = s.chip := rfl

theorem State.mapPayload_currentWord? : (s.mapPayload f).currentWord? = s.currentWord? := rfl

/-! No operand check has a payload in its result. -/

theorem booleanOperand_map (sel : Nat) :
    booleanOperand (ε := ε') sel = (booleanOperand sel).mapError (OpError.map f) := by
  match sel with
  | 0 | 1 | _ + 2 => rfl

theorem frequencyBankOperand_map (sel : Nat) :
    frequencyBankOperand (ε := ε') sel = (frequencyBankOperand sel).mapError (OpError.map f) := by
  unfold frequencyBankOperand
  split <;> rfl

theorem phaseBankOperand_map (sel : Nat) :
    phaseBankOperand (ε := ε') sel = (phaseBankOperand sel).mapError (OpError.map f) := by
  unfold phaseBankOperand
  split <;> rfl

theorem splitPhase_map {n : Nat} (value : Value) (base : { a : Fin (2 ^ n) // 1 ≤ a.val }) :
    splitPhase (ε := ε') value base = (splitPhase value base).mapError (OpError.map f) := by
  unfold splitPhase
  split <;> rfl

theorem mergePhaseBank_map (bs : CommandWord) (bank : Nat) :
    mergePhaseBank (ε := ε') bs bank p = (mergePhaseBank bs bank p).mapError (OpError.map f) := by
  rw [mergePhaseBank, mergePhaseBank, phaseBankOperand_map f]
  cases phaseBankOperand (ε := ε) bank <;> rfl

/-! The end of an operation, and the mirrors. -/

theorem State.finish_mapPayload (r : OpResult ε) :
    (s.mapPayload f).finish (r.map f) = (s.finish r).mapPayload f := by
  match r with
  | .ok | .error .invalidInput | .error .outOfRange | .error (.transport e) =>
    simp only [State.finish, State.mapPayload, OpResult.map, OpResult.kind, List.map_append, List.map_singleton]

theorem State.raise_mapPayload (e : OpError ε) :
    (s.mapPayload f).raise (e.map f) = (s.raise e).mapPayload f := by
  rw [State.raise, State.raise, ← State.finish_mapPayload]
  cases e <;> rfl

theorem State.commit_mapPayload (m : MirrorWrite) : (s.mapPayload f).commit m = (s.commit m).mapPayload f := by
  obtain ⟨which, v⟩ := m
  cases which <;> rfl

theorem State.commitPending_mapPayload : (s.mapPayload f).commitPending = s.commitPending.mapPayload f := by
  rw [State.commitPending, State.commitPending, State.mapPayload_pendingCommit]
  cases s.pendingCommit with
  | none => rfl
  | some m => exact s.commit_mapPayload f m

/-! The sequencer. -/

theorem State.acknowledge_mapPayload : (s.mapPayload f).acknowledge p = (s.acknowledge p).mapPayload f := by
  by_cases hlt : s.seqIdx.toNat + 1 < s.seqLen.toNat
  · rw [State.acknowledge_next hlt, State.acknowledge_next (by exact hlt)]
    rfl
  · rw [State.acknowledge_last hlt, State.acknowledge_last (by exact hlt), State.commitPending_mapPayload]
    exact State.finish_mapPayload f { s.commitPending with seqIdx := s.seqLen, chip := s.chip.takeAtom s.atom p } .ok

theorem State.abort_mapPayload (e : ε) : (s.mapPayload f).abort (f e) p = (s.abort e p).mapPayload f :=
  State.raise_mapPayload f { s with chip := s.chip.loseAtom s.atom p } (.transport e)

theorem State.takeAnswer_mapPayload : (s.mapPayload f).takeAnswer p = (s.takeAnswer p).mapPayload f := by
  have hans := s.mapPayload_answers f
  rcases s.takeAnswer_cases p with ⟨h, e⟩ | ⟨rest, h, e⟩ | ⟨er, rest, h, e⟩ <;> rw [e] <;> rw [h] at hans
  · exact State.takeAnswer_nil hans
  · rw [State.takeAnswer_ok hans]
    exact State.acknowledge_mapPayload f { s with answers := rest } p
  · rw [State.takeAnswer_err hans]
    exact State.abort_mapPayload f { s with answers := rest } p er

theorem State.sendWord_mapPayload : (s.mapPayload f).sendWord p = (s.sendWord p).mapPayload f := by
  have hword := s.mapPayload_currentWord? f
  cases hw : s.currentWord? with
  | none => rw [State.sendWord_none hw, State.sendWord_none (hword.trans hw)]
  | some w =>
    rw [State.sendWord_some hw, State.sendWord_some (hword.trans hw), ← State.takeAnswer_mapPayload]
    exact congrArg (State.takeAnswer · p) (apply_ite (State.mapPayload f) (s.awaiting = true) s (s.present w)).symm

theorem State.sendWords_mapPayload (n : Nat) :
    (s.mapPayload f).sendWords n p = (s.sendWords n p).mapPayload f := by
  induction n generalizing s with
  | zero => rfl
  | succ n ih =>
    rw [State.sendWords_succ, State.sendWords_succ, State.sendWord_mapPayload, ih, apply_ite (State.mapPayload f)]
    rfl

theorem State.transmit_mapPayload (words : List CommandWord) :
    (s.mapPayload f).transmit words p = (s.transmit words p).mapPayload f := by
  cases words with
  | nil => exact s.finish_mapPayload f .ok
  | cons w rest => exact State.sendWords_mapPayload f (s.loadAtom (w :: rest)) p _

/-! The operations. -/

theorem controlTransfer_mapPayload (m : MirrorWrite) :
    controlTransfer p m (s.mapPayload f) = (controlTransfer p m s).mapPayload f := by
  cases h : p.mirrorCommit with
  | before =>
    rw [controlTransfer_before h, controlTransfer_before h, State.commit_mapPayload, State.transmit_mapPayload]
  | after =>
    rw [controlTransfer_after h, controlTransfer_after h]
    exact State.transmit_mapPayload f { s with pendingCommit := some m } p _

theorem setFrequencyOp_mapPayload (bank : Nat) (value : Value) :
    setFrequencyOp p bank value (s.mapPayload f) = (setFrequencyOp p bank value s).mapPayload f := by
  rw [setFrequencyOp, setFrequencyOp, frequencyBankOperand_map f]
  cases frequencyBankOperand (ε := ε) bank with
  | error e => exact s.raise_mapPayload f e
  | ok b => exact s.transmit_mapPayload f p _

theorem setPhaseOp_mapPayload (bank : Nat) (value : Value) :
    setPhaseOp p bank value (s.mapPayload f) = (setPhaseOp p bank value s).mapPayload f := by
  rw [setPhaseOp, setPhaseOp, phaseBankOperand_map f]
  cases phaseBankOperand (ε := ε) bank with
  | error e => exact s.raise_mapPayload f e
  | ok b =>
    dsimp only [Except.mapError]
    rw [splitPhase_map f]
    cases splitPhase (ε := ε) value (p.phaseBase b) with
    | error e => exact s.raise_mapPayload f e
    | ok writes => exact s.transmit_mapPayload f p _
theorem setOutputEnabledOp_mapPayload (sel : Nat) :
    setOutputEnabledOp p sel (s.mapPayload f) = (setOutputEnabledOp p sel s).mapPayload f := by
  rw [setOutputEnabledOp, setOutputEnabledOp, booleanOperand_map f]
  cases booleanOperand (ε := ε) sel with
  | error e => exact s.raise_mapPayload f e
  | ok _ => exact controlTransfer_mapPayload f s p _

theorem selectActiveFrequencyBankOp_mapPayload (sel : Nat) :
    selectActiveFrequencyBankOp p sel (s.mapPayload f) = (selectActiveFrequencyBankOp p sel s).mapPayload f := by
  rw [selectActiveFrequencyBankOp, selectActiveFrequencyBankOp, booleanOperand_map f]
  cases booleanOperand (ε := ε) sel with
  | error e => exact s.raise_mapPayload f e
  | ok _ => exact controlTransfer_mapPayload f s p _

theorem selectActivePhaseBankOp_mapPayload (bank : Nat) :
    selectActivePhaseBankOp p bank (s.mapPayload f) = (selectActivePhaseBankOp p bank s).mapPayload f := by
  rw [selectActivePhaseBankOp, selectActivePhaseBankOp, State.mapPayload_bankSelect, mergePhaseBank_map f]
  cases mergePhaseBank (ε := ε) s.bankSelect bank p with
  | error e => exact s.raise_mapPayload f e
  | ok _ => exact controlTransfer_mapPayload f s p _

theorem selectSyncSourceOp_mapPayload (sel : Nat) :
    selectSyncSourceOp p sel (s.mapPayload f) = (selectSyncSourceOp p sel s).mapPayload f := by
  rw [selectSyncSourceOp, selectSyncSourceOp, booleanOperand_map f]
  cases booleanOperand (ε := ε) sel with
  | error e => exact s.raise_mapPayload f e
  | ok _ => exact controlTransfer_mapPayload f s p _

/-! What a step fetches and runs. -/

theorem acceptRequest_mapPayload {op : State ε → State ε} {op' : State ε' → State ε'}
    (h : ∀ s : State ε, op' (s.mapPayload f) = (op s).mapPayload f) :
    acceptRequest op' (s.mapPayload f) = mapOutcome f (acceptRequest op s) := by
  rw [acceptRequest, acceptRequest, State.mapPayload_seqBusy, State.mapPayload_lifecycle]
  cases s.seqBusy with
  | true => rfl
  | false =>
    cases s.lifecycle with
    | attaching | detached => rfl
    | ready =>
      exact congrArg Host.Outcome.next (h { s with seqBusy := true, pendingCommit := none, lifecycle := .ready })

theorem sendCommand_mapPayload (w : CommandWord) :
    sendCommand w (s.mapPayload f) p = mapOutcome f (sendCommand w s p) := by
  rw [sendCommand, sendCommand, State.mapPayload_currentWord?, State.sendWord_mapPayload, apply_ite (mapOutcome f)]
  rfl

theorem sendDataCommand_mapPayload (word : Option CommandWord) :
    sendDataCommand word (s.mapPayload f) p = mapOutcome f (sendDataCommand word s p) := by
  cases word with
  | none => rfl
  | some w => exact sendCommand_mapPayload f s p w

theorem execWith_mapPayload (i : Instr) : execWith p i (s.mapPayload f) = mapOutcome f (execWith p i s) := by
  cases i with
  | setFrequency sel val => exact acceptRequest_mapPayload f s fun s => setFrequencyOp_mapPayload f s p sel val
  | setPhase sel val => exact acceptRequest_mapPayload f s fun s => setPhaseOp_mapPayload f s p sel val
  | setOutputEnabled sel => exact acceptRequest_mapPayload f s fun s => setOutputEnabledOp_mapPayload f s p sel
  | selectActiveFrequencyBank sel =>
    exact acceptRequest_mapPayload f s fun s => selectActiveFrequencyBankOp_mapPayload f s p sel
  | selectActivePhaseBank sel =>
    exact acceptRequest_mapPayload f s fun s => selectActivePhaseBankOp_mapPayload f s p sel
  | selectSyncSource sel => exact acceptRequest_mapPayload f s fun s => selectSyncSourceOp_mapPayload f s p sel
  | phase16 | phase8 | frequency16 | frequency8 => exact sendDataCommand_mapPayload f s p _
  | bankSelect | syncSourceSelect | enableControl => exact sendCommand_mapPayload f s p _

theorem fetchWord_mapPayload : fetchWord (s.mapPayload f) p = (fetchWord s p).map f := by
  rw [fetchWord, fetchWord, State.mapPayload_currentWord?]
  cases s.currentWord? with
  | none => rfl
  | some w =>
    dsimp only
    cases decodeCommand w p <;> rfl

theorem fetchEvent_mapPayload : fetchEvent (s.mapPayload f) p = (fetchEvent s p).map f := by
  rw [fetchEvent, fetchEvent, State.mapPayload_inputs]
  match s.inputs with
  | [] | .detach :: _ | .attach :: _ => rfl
  | .request w :: rest =>
    dsimp only
    cases decodeRequest w p with
    | ok i => rfl
    | error e => exact congrArg Fetched.done (State.raise_mapPayload f { s with inputs := rest } .invalidInput)

theorem fetchDetached_mapPayload : fetchDetached (s.mapPayload f) p = (fetchDetached s p).map f := by
  rw [fetchDetached, fetchDetached, State.mapPayload_inputs]
  match s.inputs with
  | [] | .detach :: _ | .attach :: _ | .request _ :: _ => rfl

theorem fetch_mapPayload : fetch (s.mapPayload f) p = (fetch s p).map f := by
  cases hb : s.seqBusy with
  | true => rw [fetch_busy hb, fetch_busy (by exact hb), fetchWord_mapPayload]
  | false =>
    cases hl : s.lifecycle with
    | attaching =>
      rw [fetch_attaching hb hl, fetch_attaching (by exact hb) (by exact hl)]
      exact congrArg Fetched.done
        (State.transmit_mapPayload f { s with lifecycle := .ready, seqBusy := true, pendingCommit := none } p _)
    | ready => rw [fetch_ready hb hl, fetch_ready (by exact hb) (by exact hl), fetchEvent_mapPayload]
    | detached => rw [fetch_detached hb hl, fetch_detached (by exact hb) (by exact hl), fetchDetached_mapPayload]

end Payload

/-- Settles O58: what is fetched, and what an instruction does, commute with the change of the payload. -/
theorem payloadIsNeverInspected : Obligations.PayloadIsNeverInspected := by
  intro ε ε' f p s
  rw [stepWith, stepWith, fetch_mapPayload]
  cases fetch s p with
  | run i s' => exact execWith_mapPayload f s' p i
  | done s' => rfl
  | fault r => rfl
  | refuse r => rfl

end Sys2Proof.Machine
end

section
/-! PROOFS, spec/43_operations.md. What the operations do. A request is refused by its operands, transmits a data atom,
or merges a mirror and transmits its control word (`RequestPlan`, in every table); with valid operands it is one
`transmit` of its atom (`Transfers`). From that and the three ways a transmission can end come the complete next states
of the six operations, the end with `OK`, and the request issued again. The two commit orders are compared at the three
answers to a control word (R147). -/

namespace Sys2Proof.Machine

variable {ε : Type}

/-! ## Acceptance (R140) -/

/-- The state in which an accepted request runs (stage 1 of R140). -/
def State.accepted (s : State ε) : State ε := { s with seqBusy := true, pendingCommit := none }

@[simp] theorem State.accepted_pendingCommit (s : State ε) : s.accepted.pendingCommit = none := rfl

@[simp] theorem State.accepted_mirror (s : State ε) (which : ControlMirror) :
    s.accepted.mirror which = s.mirror which := by
  cases which <;> rfl

theorem State.Ready.accept {s : State ε} (hs : s.Ready) (op : State ε → State ε) :
    acceptRequest op s = .next (op s.accepted) :=
  acceptRequest_next.mpr ⟨hs.1, hs.2, rfl⟩

/-- What accepts a request was ready, and the request ran in its accepted state. -/
theorem ready_of_acceptRequest {op : State ε → State ε} {s t : State ε} (h : acceptRequest op s = .next t) :
    s.Ready ∧ t = op s.accepted := by
  obtain ⟨hb, hl, ht⟩ := acceptRequest_next.mp h
  exact ⟨⟨hb, hl⟩, ht⟩

/-! ## The merges, repeated (R38, R148) -/

/-- Setting a mask's bits again changes nothing. -/
theorem or_mask_idem (v m : CommandWord) : (v ||| m) ||| m = v ||| m := by
  rw [BitVec.or_assoc, BitVec.or_self]

/-- Nor does clearing them again. -/
theorem andNot_mask_idem (v m : CommandWord) : (v &&& ~~~m) &&& ~~~m = v &&& ~~~m := by
  rw [BitVec.and_assoc, BitVec.and_self]

/-- Nor does putting the same bits into a cleared field again. -/
theorem field_replace_idem (v m x : CommandWord) : ((v &&& ~~~m ||| x) &&& ~~~m) ||| x = v &&& ~~~m ||| x := by
  ext k
  simp only [BitVec.getElem_or, BitVec.getElem_and, BitVec.getElem_not]
  grind

theorem mergeOutputEnabled_idem (p : Params) (enabled : Bool) (v : CommandWord) :
    mergeOutputEnabled (mergeOutputEnabled v enabled p) enabled p = mergeOutputEnabled v enabled p := by
  cases enabled with
  | true => exact andNot_mask_idem v p.ocMask
  | false => exact or_mask_idem v p.ocReset

theorem mergeFrequencyBank_idem (p : Params) (select : Bool) (v : CommandWord) :
    mergeFrequencyBank (mergeFrequencyBank v select p) select p = mergeFrequencyBank v select p := by
  cases select with
  | true => exact or_mask_idem v p.bsFreq
  | false => exact andNot_mask_idem v p.bsFreq

theorem mergeSyncSource_idem (p : Params) (useExternal : Bool) (v : CommandWord) :
    mergeSyncSource (mergeSyncSource v useExternal p) useExternal p = mergeSyncSource v useExternal p := by
  cases useExternal with
  | true => exact andNot_mask_idem v p.ssSelsrc
  | false => exact or_mask_idem v p.ssSelsrc

/-! ## What an operation does (R140 to R146) -/

/-- What the operation of a request does, by its operands (R66, R140 to R146, R172): it refuses them, it transmits the
atom of a data operation, which no state enters, or it merges a mirror and transmits the mirror's control word. -/
inductive RequestPlan (p : Params) (i : Instr) (op : State ε → State ε) : Prop where
  | refuse (e : OpError ε) (hinvalid : malformedBoolean i = true ∨ outOfRangeOperand i = true)
      (hatom : ∀ s : State ε, s.requestAtom i p = []) (hop : ∀ s, op s = s.raise e)
  | data (words : List CommandWord) (hlength : words.length = atomLength i)
      (hatom : ∀ s : State ε, s.requestAtom i p = words) (hop : ∀ s, op s = s.transmit words p)
  | control (which : ControlMirror) (merge : CommandWord → CommandWord) (hlength : atomLength i = 1)
      (hidem : ∀ v, merge (merge v) = merge v)
      (hatom : ∀ s : State ε, s.requestAtom i p = [encodeControlWord which (merge (s.mirror which)) p])
      (hop : ∀ s, op s = controlTransfer p ⟨which, merge (s.mirror which)⟩ s)

theorem setFrequency_plan (p : Params) (sel : Nat) (val : Value) :
    RequestPlan (ε := ε) p (.setFrequency sel val) (setFrequencyOp p sel val) := by
  rcases frequencyBankOperand_cases (ε := ε) sel with ⟨hsel, e⟩ | ⟨-, b, e⟩
  · exact .refuse .outOfRange (.inr (decide_eq_true hsel)) (fun s => by simp only [State.requestAtom, e])
      fun s => by simp only [setFrequencyOp, e]
  · exact .data (atomWords p (splitFrequency val (p.freqBase b))) rfl (fun s => by simp only [State.requestAtom, e])
      fun s => by simp only [setFrequencyOp, e, dataTransfer]

theorem setPhase_plan (p : Params) (sel : Nat) (val : Value) :
    RequestPlan (ε := ε) p (.setPhase sel val) (setPhaseOp p sel val) := by
  rcases phaseBankOperand_cases (ε := ε) sel with ⟨hsel, e⟩ | ⟨-, b, e⟩
  · exact .refuse .outOfRange (.inr (by simp [outOfRangeOperand, hsel])) (fun s => by simp only [State.requestAtom, e])
      fun s => by simp only [setPhaseOp, e]
  · rcases splitPhase_cases (ε := ε) p val (p.phaseBase b) with ⟨hval, e'⟩ | ⟨-, writes, e', hwords⟩
    · exact .refuse .outOfRange (.inr (by simp [outOfRangeOperand, hval]))
        (fun s => by simp only [State.requestAtom, e, e']; rfl) fun s => by simp only [setPhaseOp, e, e']
    · exact .data (atomWords p writes) (by rw [hwords]; rfl) (fun s => by simp only [State.requestAtom, e, e']; rfl)
        fun s => by simp only [setPhaseOp, e, e', dataTransfer]

theorem setOutputEnabled_plan (p : Params) (sel : Nat) (val : Value) :
    RequestPlan (ε := ε) p (.setOutputEnabled sel val) (setOutputEnabledOp p sel) := by
  rcases booleanOperand_cases (ε := ε) sel with ⟨hsel, e⟩ | ⟨-, b, e⟩
  · exact .refuse .invalidInput (.inl (decide_eq_true hsel)) (fun s => by simp only [State.requestAtom, e]; rfl)
      fun s => by simp only [setOutputEnabledOp, e]
  · exact .control .outputControl (mergeOutputEnabled · b p) rfl (mergeOutputEnabled_idem p b)
      (fun s => by simp only [State.requestAtom, e]; rfl) fun s => by simp only [setOutputEnabledOp, e]; rfl

theorem selectActiveFrequencyBank_plan (p : Params) (sel : Nat) (val : Value) :
    RequestPlan (ε := ε) p (.selectActiveFrequencyBank sel val) (selectActiveFrequencyBankOp p sel) := by
  rcases booleanOperand_cases (ε := ε) sel with ⟨hsel, e⟩ | ⟨-, b, e⟩
  · exact .refuse .invalidInput (.inl (decide_eq_true hsel)) (fun s => by simp only [State.requestAtom, e]; rfl)
      fun s => by simp only [selectActiveFrequencyBankOp, e]
  · exact .control .bankSelect (mergeFrequencyBank · b p) rfl (mergeFrequencyBank_idem p b)
      (fun s => by simp only [State.requestAtom, e]; rfl) fun s => by simp only [selectActiveFrequencyBankOp, e]; rfl

theorem selectActivePhaseBank_plan (p : Params) (sel : Nat) (val : Value) :
    RequestPlan (ε := ε) p (.selectActivePhaseBank sel val) (selectActivePhaseBankOp p sel) := by
  by_cases hsel : 3 < sel
  · have e := fun bs => mergePhaseBank_of_gt (ε := ε) hsel bs p
    exact .refuse .outOfRange (.inr (decide_eq_true hsel)) (fun s => by simp only [State.requestAtom, e])
      fun s => by simp only [selectActivePhaseBankOp, e]
  · have e := fun bs => mergePhaseBank_of_le (ε := ε) (Nat.not_lt.mp hsel) bs p
    exact .control .bankSelect (fun bs => (bs &&& ~~~p.bsPhaseMask) ||| (BitVec.ofNat 16 sel <<< p.bsPhaseShift)) rfl
      (fun v => field_replace_idem v _ _) (fun s => by simp only [State.requestAtom, e]; rfl)
      fun s => by simp only [selectActivePhaseBankOp, e]; rfl

theorem selectSyncSource_plan (p : Params) (sel : Nat) (val : Value) :
    RequestPlan (ε := ε) p (.selectSyncSource sel val) (selectSyncSourceOp p sel) := by
  rcases booleanOperand_cases (ε := ε) sel with ⟨hsel, e⟩ | ⟨-, b, e⟩
  · exact .refuse .invalidInput (.inl (decide_eq_true hsel)) (fun s => by simp only [State.requestAtom, e]; rfl)
      fun s => by simp only [selectSyncSourceOp, e]
  · exact .control .syncSource (mergeSyncSource · b p) rfl (mergeSyncSource_idem p b)
      (fun s => by simp only [State.requestAtom, e]; rfl) fun s => by simp only [selectSyncSourceOp, e]; rfl

/-- A request, in any table, is accepted and follows the plan of its operands. -/
theorem execWith_request (p : Params) {i : Instr} (hi : isRequest i = true) :
    ∃ op : State ε → State ε, RequestPlan p i op ∧ ∀ s, execWith p i s = acceptRequest op s := by
  cases i with
  | setFrequency sel val => exact ⟨_, setFrequency_plan p sel val, fun _ => rfl⟩
  | setPhase sel val => exact ⟨_, setPhase_plan p sel val, fun _ => rfl⟩
  | setOutputEnabled sel val => exact ⟨_, setOutputEnabled_plan p sel val, fun _ => rfl⟩
  | selectActiveFrequencyBank sel val => exact ⟨_, selectActiveFrequencyBank_plan p sel val, fun _ => rfl⟩
  | selectActivePhaseBank sel val => exact ⟨_, selectActivePhaseBank_plan p sel val, fun _ => rfl⟩
  | selectSyncSource sel val => exact ⟨_, selectSyncSource_plan p sel val, fun _ => rfl⟩
  | phase16 | phase8 | frequency16 | frequency8 | bankSelect | syncSourceSelect | enableControl => cases hi

/-- An atom has one to four words (R149). -/
theorem atomLength_bounds (i : Instr) : 1 ≤ atomLength i ∧ atomLength i ≤ 4 := by
  cases i <;> simp [atomLength]

/-- What an operation transmits depends on the mirrors only. -/
theorem RequestPlan.atom_congr {p : Params} {i : Instr} {op : State ε → State ε} (h : RequestPlan p i op)
    {s t : State ε} (hm : ∀ which, t.mirror which = s.mirror which) : t.requestAtom i p = s.requestAtom i p := by
  cases h with
  | refuse e hinvalid hatom | data words hlength hatom => rw [hatom t, hatom s]
  | control which merge hlength hidem hatom => rw [hatom t, hatom s, hm which]

/-- A control operation is a `transmit` from a state in which its mirror has been written, or the write is kept for the
end (R147). -/
theorem controlTransfer_eq_transmit (p : Params) (m : MirrorWrite) (s : State ε) :
    ∃ u : State ε, controlTransfer p m s = u.transmit [encodeControlWord m.mirror m.value p] p
      ∧ u = { s with
          pendingCommit := u.pendingCommit, outputControl := u.outputControl, bankSelect := u.bankSelect,
          syncSource := u.syncSource }
      ∧ (p.mirrorCommit = .before → u.pendingCommit = s.pendingCommit) := by
  cases hc : p.mirrorCommit with
  | before =>
    refine ⟨s.commit m, controlTransfer_before hc m s, ?_, fun _ => s.commit_pendingCommit m⟩
    rcases m with ⟨_ | _ | _, v⟩ <;> rfl
  | after => exact ⟨{ s with pendingCommit := some m }, controlTransfer_after hc m s, rfl, nofun⟩

/-- The operation of a request, from `s` to `t`, is one `transmit` of its atom, from a state `u` that differs from `s`
in the mirrors and in what is kept for the end at most (R147, R149). -/
structure Transfers (p : Params) (i : Instr) (s u t : State ε) : Prop where
  transmit : t = u.transmit (s.requestAtom i p) p
  frame : u = { s with
    pendingCommit := u.pendingCommit, outputControl := u.outputControl, bankSelect := u.bankSelect,
    syncSource := u.syncSource }
  kept : p.mirrorCommit = .before → u.pendingCommit = s.pendingCommit
  length : (s.requestAtom i p).length = atomLength i

namespace Transfers

variable {p : Params} {i : Instr} {s u t : State ε}

theorem trace_eq (h : Transfers p i s u t) : u.trace = s.trace := by rw [h.frame]

theorem answers_eq (h : Transfers p i s u t) : u.answers = s.answers := by rw [h.frame]

theorem length_pos (h : Transfers p i s u t) : 0 < (s.requestAtom i p).length :=
  h.length ▸ (atomLength_bounds i).1

theorem length_le (h : Transfers p i s u t) : (s.requestAtom i p).length ≤ 4 :=
  h.length ▸ (atomLength_bounds i).2

end Transfers

/-- An operation refuses its operands, and then has no atom, or is one `transmit` of its atom. -/
theorem RequestPlan.outcome {p : Params} {i : Instr} {op : State ε → State ε} (h : RequestPlan p i op)
    (s : State ε) :
    ((malformedBoolean i = true ∨ outOfRangeOperand i = true) ∧ s.requestAtom i p = [] ∧ ∃ e, op s = s.raise e)
    ∨ ∃ u, Transfers p i s u (op s) := by
  cases h with
  | refuse e hinvalid hatom hop => exact .inl ⟨hinvalid, hatom s, e, hop s⟩
  | data words hlength hatom hop =>
    exact .inr ⟨s, by rw [hatom, hop], rfl, fun _ => rfl, by rw [hatom, hlength]⟩
  | control which merge hlength hidem hatom hop =>
    obtain ⟨u, htransmit, hu, hp⟩ := controlTransfer_eq_transmit p ⟨which, merge (s.mirror which)⟩ s
    exact .inr ⟨u, by rw [hatom, hop, htransmit], hu, hp, by rw [hatom, hlength]; rfl⟩

/-- With valid operands it is the `transmit`. -/
theorem RequestPlan.transfers {p : Params} {i : Instr} {op : State ε → State ε} (h : RequestPlan p i op)
    (ho : outOfRangeOperand i = false) (hm : malformedBoolean i = false) (s : State ε) :
    ∃ u, Transfers p i s u (op s) := by
  rcases h.outcome s with ⟨hinvalid | hinvalid, -⟩ | htransfers
  · cases hm.symm.trans hinvalid
  · cases ho.symm.trans hinvalid
  · exact htransfers

/-- Settles O39: with valid operands the operation is the `transmit` of its atom, and with `MIRROR_COMMIT = BEFORE`
nothing is kept for the end. -/
theorem operationsTransmitOneAtom : Obligations.OperationsTransmitOneAtom := by
  intro i s hi hs ho hm
  obtain ⟨op, hplan, hexec⟩ := execWith_request (ε := TransportErrorPayload) Config.params hi
  have hatom : s.accepted.requestAtom i = s.requestAtom i := hplan.atom_congr s.accepted_mirror
  obtain ⟨u, htransmit, hframe, hkept, hlength⟩ := hplan.transfers ho hm s.accepted
  rw [hatom] at htransmit hlength
  rw [hkept params_mirrorCommit] at hframe
  exact ⟨u, by rw [exec_eq_execWith, hexec, hs.accept, htransmit], hframe, hlength⟩

/-- Settles O44: acceptance is for an idle block, and no transition of the sequencer touches the requester's queue. -/
theorem busyBlockAcceptsNoRequest : Obligations.BusyBlockAcceptsNoRequest := by
  refine ⟨fun i s hi hb => ?_, fun s t hb h => ?_⟩
  · obtain ⟨op, -, hexec⟩ := execWith_request (ε := TransportErrorPayload) Config.params hi
    rw [exec_eq_execWith, hexec, acceptRequest, if_pos hb]
  · have hmove : ∀ u v : State, u.inputs = s.inputs → u.Move Config.params v → v.inputs = s.inputs := by
      intro u v hu hm
      cases hm with
      | present hw | next hw | abort hw => exact hu
      | complete hw => exact (State.commitPending_inputs _).trans hu
    rw [step_busy hb h]
    exact State.sendWord_keeps hmove s rfl

/-! ## The end of a transmission (R122, R123, R150) -/

/-- A transmission that has ended is `OK` exactly when its whole atom is on the wire and answered `ok`. -/
theorem State.transmit_ok_iff {s : State ε} {p : Params} {words : List CommandWord} (hpos : 0 < words.length)
    (hlen : words.length ≤ 4) (hend : (s.transmit words p).seqBusy = false) :
    (s.transmit words p).resKind = .ok ↔
      (s.transmit words p).trace = s.trace ++ wire words
        ∧ s.answers = List.replicate words.length .ok ++ (s.transmit words p).answers := by
  rcases answers_cases s.answers words.length with ⟨rest, hans⟩ | ⟨k, hk, hans | ⟨e, rest, hans⟩⟩
  · have hk := Nat.sub_add_cancel hpos
    rw [State.transmit_completes hlen hk hans]
    refine iff_of_true rfl ⟨?_, ?_⟩
    · exact (State.commitPending_trace _).trans (congrArg (s.trace ++ ·) (take_wire_of_last hk))
    · have hrest := State.commitPending_answers (s.waitingAt words (words.length - 1) rest)
      exact hans.trans (congrArg _ hrest.symm)
  · rw [State.transmit_waits hlen hk hans] at hend
    cases hend
  · rw [State.transmit_fails hlen hk hans]
    refine iff_of_false nofun fun ⟨_, hans'⟩ => ?_
    have hword := congrArg (·[k]?) (hans.symm.trans hans')
    simp [List.getElem?_append, hk] at hword

/-- Settles O40: a refused request has no atom, and a transmission is `OK` exactly when it is whole. -/
theorem noSilentPartialSuccess : Obligations.NoSilentPartialSuccess := by
  intro p i s t hi h hend
  obtain ⟨op, hplan, hexec⟩ := execWith_request p hi
  obtain ⟨-, rfl⟩ := ready_of_acceptRequest ((hexec s).symm.trans h)
  rw [← hplan.atom_congr s.accepted_mirror]
  rcases hplan.outcome s.accepted with ⟨-, hatom, e, hop⟩ | ⟨u, hu⟩
  · have hnot : (OpResult.error e).kind ≠ .ok := by cases e <;> nofun
    have hpos := (atomLength_bounds i).1
    rw [hatom, hop, List.length_nil]
    exact iff_of_false hnot fun ⟨hlength, _⟩ => by omega
  · have hiff := State.transmit_ok_iff (s := u) (p := p) hu.length_pos hu.length_le (hu.transmit ▸ hend)
    rw [← hu.transmit, hu.trace_eq, hu.answers_eq, hu.length] at hiff
    rw [hiff, hu.length]
    exact (and_iff_right rfl).symm

/-! ## An operation in flight (R128, R150) -/

/-- What a visit can do to an operation in flight: it takes no answer and stays, takes an `ok` and goes on, or ends the
operation, with `OK` exactly when the last word has been answered `ok`, and then with the whole atom on the wire. -/
def State.GoesOnOrEndsWhole (s t : State) : Prop :=
  (t.seqBusy = true →
    (t.seqIdx = s.seqIdx ∧ s.answers = [] ∧ t.answers = [])
    ∨ (t.seqIdx.toNat = s.seqIdx.toNat + 1 ∧ s.answers = .ok :: t.answers))
  ∧ (t.seqBusy = false →
    (t.resKind = .ok ↔ s.seqIdx.toNat + 1 = s.seqLen.toNat ∧ s.answers = .ok :: t.answers)
    ∧ (t.resKind = .ok → ∃ before, t.trace = before ++ wire s.atom))

/-- With the last word presented, the whole atom is on the wire (R124). -/
theorem State.Sent.whole {s : State} (h : s.Sent) (hs : s.Inv) (hb : s.seqBusy = true) (ha : s.awaiting = true)
    (hlast : s.seqIdx.toNat + 1 = s.seqLen.toNat) : ∃ before, s.trace = before ++ wire s.atom := by
  obtain ⟨before, hsent⟩ := h hb
  obtain ⟨-, hlen, -⟩ := hs.sending hb
  rw [ha, if_pos rfl, take_wire_of_last (hlast.trans hlen.symm)] at hsent
  exact ⟨before, hsent⟩

/-- Taking the answer to a presented word, answer by answer. -/
theorem State.Inv.takeAnswer_goesOnOrEndsWhole {s : State} (hs : s.Inv) (hsent : s.Sent) (hb : s.seqBusy = true)
    (ha : s.awaiting = true) : s.GoesOnOrEndsWhole s.takeAnswer := by
  obtain ⟨-, -, hlt⟩ := hs.sending hb
  rcases s.takeAnswer_cases Config.params with ⟨hans, e⟩ | ⟨rest, hans, e⟩ | ⟨er, rest, hans, e⟩ <;> rw [e]
  · exact ⟨fun _ => .inl ⟨rfl, hans, hans⟩, fun hend => by cases hb.symm.trans hend⟩
  · by_cases hnext : s.seqIdx.toNat + 1 < s.seqLen.toNat
    · rw [State.acknowledge_next (by exact hnext)]
      exact ⟨fun _ => .inr ⟨seqIdx_succ_toNat hnext, hans⟩, fun hend => by cases hb.symm.trans hend⟩
    · have hlast : s.seqIdx.toNat + 1 = s.seqLen.toNat := by omega
      rw [State.acknowledge_last (by exact hnext), State.commitPending_none _ (by exact hs.noPending)]
      exact ⟨nofun, fun _ => ⟨iff_of_true rfl ⟨hlast, hans⟩, fun _ => hsent.whole hs hb ha hlast⟩⟩
  · refine ⟨nofun, fun _ => ⟨iff_of_false nofun fun ⟨_, hans'⟩ => ?_, nofun⟩⟩
    cases hans.symm.trans hans'

/-- Settles O41: the step is a visit, which takes the answer in a state with the word presented. -/
theorem operationInFlightEndsOkOnlyWhole : Obligations.OperationInFlightEndsOkOnlyWhole := by
  intro s t hs hsent hb h
  obtain ⟨w, -, hw, -⟩ := hs.currentWord? hb
  obtain ⟨u, hu, -, hua, e⟩ := State.sendWord_cases hw Config.params
  rw [step_busy hb h, e]
  rcases hu with rfl | ⟨ha, rfl⟩
  · exact hs.takeAnswer_goesOnOrEndsWhole hsent hb hua
  · have hmove := State.Move.present (p := Config.params) hw ha
    exact (hs.move hmove).takeAnswer_goesOnOrEndsWhole (hsent.move hs hmove) hb hua

/-! ## The transfer of one control word (R122, R123, R143 to R146) -/

section Word

variable {s : State ε} {w : CommandWord} {p : Params} {rest : List (Ack ε)}

theorem State.transmit_word_ok (hans : s.answers = .ok :: rest) :
    s.transmit [w] p = State.finish
      { (s.waitingAt [w] 0 rest).commitPending with seqIdx := 1, chip := s.chip.take w p } .ok :=
  State.transmit_completes (by simp) rfl hans

theorem State.transmit_word_err {e : ε} (hans : s.answers = .err e :: rest) :
    s.transmit [w] p = State.raise { s.waitingAt [w] 0 rest with chip := s.chip.lose w p } (.transport e) :=
  State.transmit_fails (k := 0) (by simp) (by simp) hans

theorem State.transmit_word_waits (hans : s.answers = []) : s.transmit [w] p = s.waitingAt [w] 0 [] :=
  State.transmit_waits (k := 0) (by simp) (by simp) hans

end Word

/-! ## The mirrors after a control operation (R147) -/

/-- The mirror of a control operation has the new value, but for a transfer with `MIRROR_COMMIT = AFTER` that has not
ended or has failed: that leaves every mirror. -/
theorem controlTransfer_mirror (p : Params) (m : MirrorWrite) {s : State} (hp : s.pendingCommit = none) :
    (∀ which, (controlTransfer p m s).mirror which = (s.commit m).mirror which)
    ∨ (p.mirrorCommit = .after
      ∧ ((controlTransfer p m s).seqBusy = false → (controlTransfer p m s).resKind ≠ .ok)
      ∧ ∀ which, (controlTransfer p m s).mirror which = s.mirror which) := by
  cases hc : p.mirrorCommit with
  | before =>
    rw [controlTransfer_before hc]
    exact .inl (State.MirrorsOf.transmit ((s.commit_pendingCommit m).trans hp) p (List.cons_ne_nil _ _)).2
  | after =>
    rw [controlTransfer_after hc]
    rcases answers_cases s.answers 1 with ⟨rest, hans⟩ | ⟨k, hk, hans⟩
    · rw [State.transmit_word_ok (by exact hans)]
      refine .inl fun which => ?_
      rcases m with ⟨_ | _ | _, v⟩ <;> cases which <;> rfl
    · obtain rfl : k = 0 := Nat.lt_one_iff.mp hk
      refine .inr ⟨rfl, ?_⟩
      rcases hans with hans | ⟨e, rest, hans⟩
      · rw [State.transmit_word_waits (by exact hans)]
        exact ⟨nofun, fun which => by cases which <;> rfl⟩
      · rw [State.transmit_word_err (by exact hans)]
        exact ⟨nofun, fun which => by cases which <;> rfl⟩

/-- A commit of what the mirror holds changes no mirror. -/
theorem State.commit_mirror_self {s : State ε} {m : MirrorWrite} (h : s.mirror m.mirror = m.value)
    (which : ControlMirror) : (s.commit m).mirror which = s.mirror which := by
  rw [State.commit_mirror]
  split
  · rename_i e; rw [e, h]
  · rfl

/-! ## A request issued again (R38, R148) -/

/-- What a request with valid operands adds to the wire: at least one of the first words of its atom. -/
theorem Transfers.trace {p : Params} {i : Instr} {s u t : State ε} (h : Transfers p i s u t) :
    ∃ n, 1 ≤ n ∧ n ≤ atomLength i ∧ t.trace = s.trace ++ (wire (s.requestAtom i p)).take n := by
  obtain ⟨k, hk, htrace⟩ := u.transmit_trace p h.length_pos h.length_le
  rw [← h.transmit, h.trace_eq] at htrace
  exact ⟨k + 1, Nat.le_add_left 1 k, h.length ▸ hk, htrace⟩

/-- The mirrors after an operation leave its atom as it was; and where the mirrors have been written, the operation
issued again changes none. -/
theorem RequestPlan.reissue {p : Params} {i : Instr} {op : State → State} (h : RequestPlan p i op) {s t : State}
    (hp : s.pendingCommit = none) (hpt : t.pendingCommit = none)
    (hmirror : ∀ which, t.mirror which = (op s).mirror which) :
    t.requestAtom i p = s.requestAtom i p
    ∧ ((op s).seqBusy = false → p.mirrorCommit = .before ∨ (op s).resKind = .ok →
      ∀ which, (op t).mirror which = t.mirror which) := by
  cases h with
  | refuse e hinvalid hatom hop =>
    refine ⟨by rw [hatom, hatom], fun _ _ which => ?_⟩
    rw [hop]
    cases which <;> rfl
  | data words hlength hatom hop =>
    refine ⟨by rw [hatom, hatom], fun _ _ => ?_⟩
    have hne : words ≠ [] := List.length_pos_iff.mp (hlength ▸ (atomLength_bounds i).1)
    rw [hop]
    exact (State.MirrorsOf.transmit hpt p hne).2
  | control r merge hlength hidem hatom hop =>
    rw [hop] at hmirror
    simp only [hop, hatom]
    rcases controlTransfer_mirror p ⟨r, merge (s.mirror r)⟩ hp with hnew | ⟨hafter, hfailed, hold⟩
    · have hr : t.mirror r = merge (s.mirror r) := by rw [hmirror, hnew, State.commit_mirror, if_pos rfl]
      have hmerged : merge (t.mirror r) = t.mirror r := by rw [hr, hidem]
      refine ⟨by rw [hmerged, hr], fun _ _ which => ?_⟩
      rcases controlTransfer_mirror p ⟨r, merge (t.mirror r)⟩ hpt with hnew' | ⟨-, -, hold'⟩
      · rw [hnew', State.commit_mirror_self hmerged.symm]
      · exact hold' which
    · refine ⟨by rw [hmirror, hold], fun hend hcond => ?_⟩
      rcases hcond with hbefore | hok
      · cases hafter.symm.trans hbefore
      · exact absurd hok (hfailed hend)

/-- Settles O43: both issues are transfers of the one atom. -/
theorem reissueSendsTheSameAtom : Obligations.ReissueSendsTheSameAtom := by
  intro p i s t u hi ho hm hfirst hagain
  obtain ⟨op, hplan, hexec⟩ := execWith_request p hi
  obtain ⟨-, rfl⟩ := ready_of_acceptRequest ((hexec s).symm.trans hfirst)
  obtain ⟨⟨hidle, -⟩, rfl⟩ := ready_of_acceptRequest ((hexec _).symm.trans hagain)
  obtain ⟨hatom, hmirrors⟩ := hplan.reissue s.accepted_pendingCommit (op s.accepted).accepted_pendingCommit
    (op s.accepted).accepted_mirror
  obtain ⟨v, hv⟩ := hplan.transfers ho hm s.accepted
  obtain ⟨v', hv'⟩ := hplan.transfers ho hm (op s.accepted).accepted
  obtain ⟨k, hk, hk', htrace⟩ := hv.trace
  obtain ⟨n, hn, hn', htrace'⟩ := hv'.trace
  rw [hatom] at htrace'
  rw [hplan.atom_congr (op s.accepted).accepted_mirror] at hatom
  rw [hplan.atom_congr s.accepted_mirror] at hatom htrace htrace'
  refine ⟨hatom, ⟨k, n, hk, hk', hn, hn', htrace, htrace'⟩, fun hcond which => ?_⟩
  rw [hmirrors hidle hcond which, State.accepted_mirror]

/-! ## The two commit orders (R147) -/

/-- A commit before a word is presented, or while it waits, is the same. -/
theorem State.waitingAt_commit (s : State ε) (m : MirrorWrite) (words : List CommandWord) (k : Nat)
    (answers : List (Ack ε)) : (s.commit m).waitingAt words k answers = (s.waitingAt words k answers).commit m := by
  rcases m with ⟨_ | _ | _, v⟩ <;> rfl

/-- Settles O36: the two orders transmit the same word, and what they leave is compared answer by answer. -/
theorem commitOrdersDifferOnlyOnFailure : Obligations.CommitOrdersDifferOnlyOnFailure := by
  intro p s m hp before after word
  have hbefore : before = (s.commit m).transmit [word] { p with mirrorCommit := .before } :=
    controlTransfer_before rfl m s
  have hafter : after = State.transmit { s with pendingCommit := some m } [word] { p with mirrorCommit := .after } :=
    controlTransfer_after rfl m s
  rw [hbefore, hafter]
  refine ⟨fun rest hans => ?_, fun e rest hans => ?_, fun hans => ?_⟩
  · rw [State.transmit_word_ok (by rw [State.commit_answers, hans]), State.transmit_word_ok (by exact hans),
      State.waitingAt_commit]
    have hkept : ((s.waitingAt [word] 0 rest).commit m).pendingCommit = none :=
      (State.commit_pendingCommit _ m).trans hp
    rw [State.commitPending_none _ hkept]
    rcases m with ⟨_ | _ | _, v⟩ <;> exact ⟨rfl, rfl, rfl⟩
  · rw [State.transmit_word_err (by rw [State.commit_answers, hans]), State.transmit_word_err (by exact hans),
      State.waitingAt_commit]
    refine ⟨?_, ?_, fun which => ?_, ?_⟩
    · rcases m with ⟨_ | _ | _, v⟩ <;> rfl
    · rcases m with ⟨_ | _ | _, v⟩ <;> rfl
    · cases which <;> rfl
    · rfl
  · rw [State.transmit_word_waits (by rw [State.commit_answers, hans]), State.transmit_word_waits (by exact hans),
      State.waitingAt_commit]
    refine ⟨?_, rfl, fun which => ?_, rfl⟩
    · cases s
      cases hp
      rcases m with ⟨_ | _ | _, v⟩ <;> rfl
    · cases which <;> rfl

/-! ## A control operation, completely (R143 to R146) -/

/-- The next states of a control operation that gives its mirror the value of `m`, with `MIRROR_COMMIT = BEFORE`: the
mirror is written and the word `w` is on the wire whatever the transport answers; the chip's copy of the register is the
new value after `ok` and unknown after `err(e)` (R22, R147, R173). -/
def State.ControlCompletes (s : State) (m : MirrorWrite) (w : CommandWord)
    (outcome : Host.Outcome State Fault Refusal) : Prop :=
  (∀ rest, s.answers = .ok :: rest →
    outcome = .next { s.commit m with
      seqBuf := { s.seqBuf with w0 := w }, seqLen := 1, seqIdx := 1, awaiting := false, pendingCommit := none,
      resKind := .ok, results := s.results ++ [.ok], answers := rest, trace := s.trace ++ [⟨w, false⟩],
      chip := s.chip.setRegister m.mirror (some m.value) })
  ∧ (∀ e rest, s.answers = .err e :: rest →
    outcome = .next { s.commit m with
      seqBuf := { s.seqBuf with w0 := w }, seqLen := 1, seqIdx := 0, awaiting := false, pendingCommit := none,
      resKind := .transportError, resPayload := e, results := s.results ++ [.error (.transport e)], answers := rest,
      trace := s.trace ++ [⟨w, false⟩], chip := s.chip.setRegister m.mirror none })
  ∧ (s.answers = [] →
    outcome = .next { s.commit m with
      seqBusy := true, seqBuf := { s.seqBuf with w0 := w }, seqLen := 1, seqIdx := 0, awaiting := true,
      pendingCommit := none, trace := s.trace ++ [⟨w, false⟩] })

/-- The transfer of a control operation of a ready block, for each answer of the transport. -/
theorem State.Ready.control_completes {s : State} (hs : s.Ready) {m : MirrorWrite} {w : CommandWord}
    (hv : m.value &&& ~~~Config.params.ownedMask m.mirror = 0) (hw : encodeControlWord m.mirror m.value = w) :
    s.ControlCompletes m w (.next (controlTransfer Config.params m s.accepted)) := by
  subst hw
  obtain ⟨hb, -⟩ := hs
  have htarget := chipTarget_control m.mirror m.value hv
  have htake : s.chip.take (encodeControlWord m.mirror m.value) = s.chip.setRegister m.mirror (some m.value) := by
    rw [ChipShadow.take, htarget]
  have hlose : s.chip.lose (encodeControlWord m.mirror m.value) = s.chip.setRegister m.mirror none := by
    rw [ChipShadow.lose, htarget]
  have hanswers : (s.accepted.commit m).answers = s.answers := State.commit_answers _ m
  have hchip : (s.accepted.commit m).chip = s.chip := State.commit_chip _ m
  rw [controlTransfer_before params_mirrorCommit]
  refine ⟨fun rest hans => ?_, fun e rest hans => ?_, fun hans => ?_⟩
  · rw [State.transmit_word_ok (hanswers.trans hans), hchip, htake,
      State.commitPending_none _ (State.commit_pendingCommit _ m), State.waitingAt_commit]
    cases s
    cases hb
    rcases m with ⟨_ | _ | _, v⟩ <;> rfl
  · rw [State.transmit_word_err (hanswers.trans hans), hchip, hlose, State.waitingAt_commit]
    cases s
    cases hb
    rcases m with ⟨_ | _ | _, v⟩ <;> rfl
  · rw [State.transmit_word_waits (hanswers.trans hans), State.waitingAt_commit]
    cases s
    cases hans
    rcases m with ⟨_ | _ | _, v⟩ <;> rfl

/-- An operation of a ready block, at the default table. -/
theorem State.Ready.exec_eq {s : State} (hs : s.Ready) {i : Instr} {op : State → State}
    (hop : execWith Config.params i s = acceptRequest op s) : exec i s = .next (op s.accepted) := by
  rw [exec_eq_execWith, hop, hs.accept]

/-! The merges keep the owned-bits-only invariant (R17, R18), at the default table. -/

theorem readModifyWrite_owned {v new m mask : CommandWord} (hv : v &&& ~~~mask = 0) (hm : m &&& ~~~mask = 0) :
    ((v &&& ~~~m) ||| (new &&& m)) &&& ~~~mask = 0 := by
  calc ((v &&& ~~~m) ||| (new &&& m)) &&& ~~~mask
      = ((v &&& ~~~mask) &&& ~~~m) ||| (new &&& (m &&& ~~~mask)) := by
        ext k
        simp only [BitVec.getElem_or, BitVec.getElem_and, BitVec.getElem_not]
        grind
    _ = 0 := by rw [hv, hm]; simp

theorem mergeOutputEnabled_owned {v : CommandWord} (hv : v &&& ~~~Config.params.ocMask = 0) (enabled : Bool) :
    mergeOutputEnabled v enabled &&& ~~~Config.params.ocMask = 0 := by
  obtain ⟨⟨newT, htrue⟩, ⟨newF, hfalse⟩, -⟩ := mergesPreserveUnownedBits Config.params v
  cases enabled with
  | true => exact htrue ▸ readModifyWrite_owned hv (by decide)
  | false => exact hfalse ▸ readModifyWrite_owned hv (by decide)

theorem mergeFrequencyBank_owned {v : CommandWord} (hv : v &&& ~~~Config.params.bsMask = 0) (select : Bool) :
    mergeFrequencyBank v select &&& ~~~Config.params.bsMask = 0 := by
  obtain ⟨-, -, hmerge, -⟩ := mergesPreserveUnownedBits Config.params v
  obtain ⟨new, hnew⟩ := hmerge select
  exact hnew ▸ readModifyWrite_owned hv (by decide)

theorem mergeSyncSource_owned {v : CommandWord} (hv : v &&& ~~~Config.params.ssMask = 0) (useExternal : Bool) :
    mergeSyncSource v useExternal &&& ~~~Config.params.ssMask = 0 := by
  obtain ⟨-, -, -, -, hmerge⟩ := mergesPreserveUnownedBits Config.params v
  obtain ⟨new, hnew⟩ := hmerge useExternal
  exact hnew ▸ readModifyWrite_owned hv (by decide)

/-- Settles O32: enable leaves no owned bit set, disable sets the reset bit. -/
theorem setOutputEnabledCompletes : Obligations.SetOutputEnabledCompletes := by
  rintro s sel val hs ⟨howned, -, -⟩ hsel
  intro oc w
  obtain ⟨enabled, hoperand, hmerge⟩ : ∃ enabled, booleanOperand (ε := TransportErrorPayload) sel = .ok enabled
      ∧ mergeOutputEnabled s.outputControl enabled = oc := by
    rcases hsel with rfl | rfl
    · exact ⟨false, rfl, rfl⟩
    · exact ⟨true, rfl, howned⟩
  have hexec : exec (.setOutputEnabled sel val) s
      = .next (controlTransfer Config.params ⟨.outputControl, oc⟩ s.accepted) := by
    rw [hs.exec_eq (i := .setOutputEnabled sel val) rfl, setOutputEnabledOp, hoperand, ← hmerge]
    rfl
  rw [hexec]
  exact hs.control_completes (m := ⟨.outputControl, oc⟩) (hmerge ▸ mergeOutputEnabled_owned howned enabled)
    (congrArg (· ||| oc) shiftedCode_enableControl)

/-- Settles O33: the merge sets or clears bit 11. -/
theorem selectActiveFrequencyBankCompletes : Obligations.SelectActiveFrequencyBankCompletes := by
  rintro s sel val hs ⟨-, howned, -⟩ hsel
  intro bs w
  obtain ⟨select, hoperand, hmerge⟩ : ∃ select, booleanOperand (ε := TransportErrorPayload) sel = .ok select
      ∧ mergeFrequencyBank s.bankSelect select = bs := by
    rcases hsel with rfl | rfl
    · exact ⟨false, rfl, rfl⟩
    · exact ⟨true, rfl, rfl⟩
  have hexec : exec (.selectActiveFrequencyBank sel val) s
      = .next (controlTransfer Config.params ⟨.bankSelect, bs⟩ s.accepted) := by
    rw [hs.exec_eq (i := .selectActiveFrequencyBank sel val) rfl, selectActiveFrequencyBankOp, hoperand, ← hmerge]
    rfl
  rw [hexec]
  exact hs.control_completes (m := ⟨.bankSelect, bs⟩) (hmerge ▸ mergeFrequencyBank_owned howned select)
    (congrArg (· ||| bs) shiftedCode_bankSelect)

/-- Settles O34: a bank in range replaces the phase field. -/
theorem selectActivePhaseBankCompletes : Obligations.SelectActivePhaseBankCompletes := by
  rintro s sel val hs ⟨-, howned, -⟩ hsel
  intro bs w
  have hmerge : mergePhaseBank (ε := TransportErrorPayload) s.bankSelect sel = .ok bs :=
    mergePhaseBank_of_le hsel s.bankSelect Config.params
  have hexec : exec (.selectActivePhaseBank sel val) s
      = .next (controlTransfer Config.params ⟨.bankSelect, bs⟩ s.accepted) := by
    have hmerge' : mergePhaseBank (ε := TransportErrorPayload) s.accepted.bankSelect sel = .ok bs := hmerge
    rw [hs.exec_eq (i := .selectActivePhaseBank sel val) rfl, selectActivePhaseBankOp, hmerge']
  rw [hexec]
  exact hs.control_completes (m := ⟨.bankSelect, bs⟩) ((mergePhaseBank_unowned hmerge).trans howned)
    (congrArg (· ||| bs) shiftedCode_bankSelect)

/-- Settles O35: bit 12 is the one owned bit, and it is cleared for `true` and set for `false`. -/
theorem selectSyncSourceCompletes : Obligations.SelectSyncSourceCompletes := by
  rintro s sel val hs ⟨-, -, howned⟩ hsel
  intro ss w
  obtain ⟨useExternal, hoperand, hmerge⟩ : ∃ useExternal,
      booleanOperand (ε := TransportErrorPayload) sel = .ok useExternal
        ∧ mergeSyncSource s.syncSource useExternal = ss := by
    rcases hsel with rfl | rfl
    · obtain ⟨x, hx⟩ := syncSource_cases s.syncSource howned
      refine ⟨false, rfl, ?_⟩
      rw [hx]
      cases x <;> rfl
    · exact ⟨true, rfl, howned⟩
  have hexec : exec (.selectSyncSource sel val) s
      = .next (controlTransfer Config.params ⟨.syncSource, ss⟩ s.accepted) := by
    rw [hs.exec_eq (i := .selectSyncSource sel val) rfl, selectSyncSourceOp, hoperand, ← hmerge]
    rfl
  rw [hexec]
  exact hs.control_completes (m := ⟨.syncSource, ss⟩) (hmerge ▸ mergeSyncSource_owned howned useExternal)
    (congrArg (· ||| ss) shiftedCode_syncSourceSelect)

/-! ## A data operation that completes (R122, R141, R142) -/

section DataTransfer

variable {writes : List (RegisterWrite Config.params.addrWidth)}

/-- A data atom taken leaves the chip's control registers (R22). -/
theorem takeAtom_eq_slots (hslot : ToSlots writes) (c : ChipShadow) :
    c.takeAtom (atomWords Config.params writes)
      = { c with slots := (c.takeAtom (atomWords Config.params writes)).slots } := by
  induction writes generalizing c with
  | nil => rfl
  | cons t rest ih =>
    obtain ⟨ht, hrest⟩ := List.forall_mem_cons.mp hslot
    have htake : c.take (t.word Config.params) = { c with slots := Memory.write c.slots t.address.val t.byte } := by
      rw [ChipShadow.take, ht]
    rw [atomWords_cons, ChipShadow.takeAtom_cons, htake]
    exact ih hrest _

/-- What a slot holds after a data atom has been taken depends on what it held, and on no other slot. -/
theorem read_takeAtom_congr (hslot : ToSlots writes) {c c' : ChipShadow} {a : Nat}
    (h : Memory.read c.slots a = Memory.read c'.slots a) :
    Memory.read (c.takeAtom (atomWords Config.params writes)).slots a
      = Memory.read (c'.takeAtom (atomWords Config.params writes)).slots a := by
  induction writes generalizing c c' with
  | nil => exact h
  | cons t rest ih =>
    obtain ⟨ht, hrest⟩ := List.forall_mem_cons.mp hslot
    rw [atomWords_cons, ChipShadow.takeAtom_cons, ChipShadow.takeAtom_cons]
    exact ih hrest (by rw [ChipShadow.read_take ht, ChipShadow.read_take ht, h])

/-- Where the words of an atom go to slots of their own, each slot holds its byte, and any other what it held (R22). -/
theorem read_takeAtom (hslot : ToSlots writes) (hne : writes.Pairwise fun t u => u.address.val ≠ t.address.val)
    (c : ChipShadow) (a : Nat) :
    Memory.read (c.takeAtom (atomWords Config.params writes)).slots a
      = writes.foldr (fun t other => if a = t.address.val then some t.byte else other) (Memory.read c.slots a) := by
  induction writes with
  | nil => rfl
  | cons t rest ih =>
    obtain ⟨ht, hrest⟩ := List.forall_mem_cons.mp hslot
    rw [List.foldr_cons, ← ih hrest hne.of_cons]
    split
    · rename_i e
      rw [e]
      exact read_takeAtom_of_mem hslot hne List.mem_cons_self c
    · rename_i hother
      rw [atomWords_cons, ChipShadow.takeAtom_cons]
      exact read_takeAtom_congr hrest (by rw [ChipShadow.read_take ht, if_neg hother])

/-- The transfer of a data operation of a ready block, where every word is answered `ok`. -/
theorem State.Ready.transfer_completes {s : State} (hs : s.Ready) (hslot : ToSlots writes)
    (hne : writes.Pairwise fun t u => u.address.val ≠ t.address.val) (hpos : 0 < writes.length)
    (hlen : writes.length ≤ 4) {rest : List Ack} (hans : s.answers = List.replicate writes.length .ok ++ rest) :
    ∃ slots : Memory,
      State.transmit s.accepted (atomWords Config.params writes) = { s with
        seqBuf := s.seqBuf.load (atomWords Config.params writes), seqLen := BitVec.ofNat 3 writes.length,
        seqIdx := BitVec.ofNat 3 writes.length, awaiting := false, pendingCommit := none, resKind := .ok,
        results := s.results ++ [.ok], answers := rest, trace := s.trace ++ wire (atomWords Config.params writes),
        chip := { s.chip with slots := slots } }
      ∧ ∀ a : Nat, Memory.read slots a
          = writes.foldr (fun t other => if a = t.address.val then some t.byte else other)
              (Memory.read s.chip.slots a) := by
  rw [← atomWords_length Config.params writes] at hpos hlen hans ⊢
  have hk := Nat.sub_add_cancel hpos
  obtain ⟨hb, -⟩ := hs
  refine ⟨(s.chip.takeAtom (atomWords Config.params writes)).slots, ?_, read_takeAtom hslot hne s.chip⟩
  rw [State.transmit_completes hlen hk (by exact hans), State.commitPending_none _ (by rfl), State.waitingAt,
    take_wire_of_last hk, ← takeAtom_eq_slots hslot]
  cases s
  cases hb
  rfl

end DataTransfer

/-- Settles O26: the four words go to the four slots of the bank. -/
theorem setFrequencyCompletes : Obligations.SetFrequencyCompletes := by
  intro s sel val rest hs hsel hans base b0 b1 b2 b3 w0 w1 w2 w3
  obtain ⟨bank, rfl⟩ : ∃ bank : Fin 2, bank.val = sel := ⟨⟨sel, by omega⟩, rfl⟩
  have hbase : (Config.params.freqBase bank).1.val = base := by
    revert bank; decide
  have hwords : _ = [w0, w1, w2, w3] := atomWords_splitFrequency_eq_append val bank hbase
  have hne : (splitFrequency val (Config.params.freqBase bank)).Pairwise
      fun t u => u.address.val ≠ t.address.val := by
    have := (Config.params.freqBase bank).2
    simp [splitFrequency]
    omega
  obtain ⟨slots, ht, hread⟩ := hs.transfer_completes (splitFrequency_toSlots val _) hne (Nat.succ_pos 3) le_rfl hans
  refine ⟨slots, (hs.exec_setFrequency bank val).trans (congrArg Host.Outcome.next (ht.trans ?_)), fun a => ?_⟩
  · rw [hwords]
    rfl
  · rw [hread, ← hbase]
    rfl

/-- Settles O28: the two words go to the two slots of the bank. -/
theorem setPhaseCompletes : Obligations.SetPhaseCompletes := by
  intro s sel val rest hs hsel hval hans base b0 b1 w0 w1
  obtain ⟨bank, rfl⟩ : ∃ bank : Fin 4, bank.val = sel := ⟨⟨sel, by omega⟩, rfl⟩
  have hbase : (Config.params.phaseBase bank).1.val = base := params_phaseBase bank
  obtain ⟨writes, hsplit, hexec⟩ := hs.exec_setPhase bank hval
  have hwords : _ = [w0, w1] := atomWords_splitPhase_eq_append hsplit hbase
  have hslot := splitPhase_toSlots hsplit
  obtain rfl := eq_of_splitPhase_ok hsplit
  have hbelow := (Config.params.phaseBase bank).2
  have hnibble : ∀ x : BitVec 4, x.setWidth 8 = 0x0#4 ++ x := by decide
  obtain ⟨slots, ht, hread⟩ :=
    hs.transfer_completes hslot (by simp; omega) (Nat.succ_pos 1) (Nat.le_add_right 2 2) hans
  refine ⟨slots, hexec.trans (congrArg Host.Outcome.next (ht.trans ?_)), fun a => ?_⟩
  · rw [hwords]
    rfl
  · rw [hread, ← hbase, hnibble]
    rfl

end Sys2Proof.Machine
end

section
/-! PROOFS, spec/60_exceptions.md. How a request or the machine can come to an error. `OutOfRangeError` is one of the
three ways to serve a request (`State.Serves`), and no transmission reports it (R172, R175). The machine itself stops at
no state of the invariant: while busy it visits a word the block emits, while ready it serves whatever it is asked, and
the refusals left are those of the lifecycle (R24, R175, R176, R190). -/

namespace Sys2Proof.Machine

/-! ## Operands outside their valid sets (R172) -/

/-- An `OutOfRangeError` that ends nothing but the request itself: only the result changes (R175). -/
theorem State.accepted_raise_outOfRange {ε : Type} {s : State ε} (hb : s.seqBusy = false) :
    s.accepted.raise .outOfRange = { s with
      awaiting := false, pendingCommit := none, resKind := .outOfRangeError,
      results := s.results ++ [.error .outOfRange] } := by
  cases s
  cases hb
  rfl

/-- The operands with a range and the booleans belong to different operations (R66, R172). -/
theorem malformedBoolean_of_outOfRangeOperand {i : Instr} (h : outOfRangeOperand i = true) :
    malformedBoolean i = false := by
  cases i with
  | setFrequency | setPhase | selectActivePhaseBank => rfl
  | setOutputEnabled | selectActiveFrequencyBank | selectSyncSource => cases h
  | phase16 | phase8 | frequency16 | frequency8 | bankSelect | syncSourceSelect | enableControl => rfl

/-- A request with an operand outside its valid set is served by the error alone. -/
theorem State.Serves.eq_raise_outOfRange {s t : State} {i : Instr} (h : s.Serves i t)
    (ho : outOfRangeOperand i = true) : t = s.raise .outOfRange := by
  cases h with
  | malformed hm => cases hm.symm.trans (malformedBoolean_of_outOfRangeOperand ho)
  | outOfRange => rfl
  | transfer _ ho' => cases ho.symm.trans ho'

/-- What reports `OutOfRangeError` had such an operand: a malformed boolean has another error, and a transfer reports
the transport's own or none. -/
theorem State.Serves.outOfRangeOperand_of_results {s t : State} {i : Instr} (h : s.Serves i t)
    (hr : t.results = s.results ++ [.error .outOfRange]) : outOfRangeOperand i = true := by
  cases h with
  | malformed => cases List.singleton_inj.mp (List.append_cancel_left hr)
  | outOfRange _ ho => exact ho
  | @transfer u words _ _ hne hu =>
    rw [← hu] at hr
    exact absurd hr ((u.transmit_reported Config.params hne).ne (.inr rfl))

/-- Settles O37: of the three ways to serve a request one is for operands outside their valid sets, and it alone reports
`OutOfRangeError`. -/
theorem outOfRangeExactlyWhere : Obligations.OutOfRangeExactlyWhere := by
  intro i s hi hs
  obtain ⟨t, ht, hserves⟩ := exec_serves hi hs
  rw [ht]
  refine ⟨fun ho => congrArg Host.Outcome.next ?_, fun t' e hr => ?_⟩
  · exact (hserves.eq_raise_outOfRange ho).trans (State.accepted_raise_outOfRange hs.1)
  · obtain rfl := Host.Outcome.next.inj e
    exact hserves.outOfRangeOperand_of_results hr

/-! ## The machine never stops (R24, R175, R176, R190) -/

/-- A request word decodes to one of the six requests (R64). -/
theorem isRequest_of_decodeRequest {p : Params} {w : Nat} {i : Instr} (h : decodeRequest w p = .ok i) :
    isRequest i = true := by
  obtain ⟨op, -, rfl⟩ := op_of_decodeRequest h
  cases op <;> rfl

/-- A ready block answers every request, decodable or not, and a detach; it refuses only a second attach (R65, R140,
R193). -/
theorem State.Ready.step_next_or_alreadyAttached {s : State} (hs : s.Ready) :
    (∃ t, step s = .next t) ∨ step s = .refused .alreadyAttached := by
  rw [step_eq, fetch_ready hs.1 hs.2]
  match hi : s.inputs with
  | [] => exact .inl ⟨s, by simp only [fetchEvent, hi]⟩
  | .request w :: rest =>
    cases hd : decodeRequest w with
    | error e => exact .inl ⟨_, by rw [fetchEvent_reserved hi hd]⟩
    | ok i =>
      have hready : State.Ready { s with inputs := rest } := hs
      obtain ⟨t, ht, -⟩ := exec_serves (isRequest_of_decodeRequest hd) hready
      exact .inl ⟨t, by rw [fetchEvent_request hi hd]; exact ht⟩
  | .detach :: rest => exact .inl ⟨detach { s with inputs := rest }, by simp only [fetchEvent, hi]⟩
  | .attach :: rest => exact .inr (by simp only [fetchEvent, hi])

/-- A detached device waits or attaches again; it refuses everything else (R24, R190, U6). -/
theorem step_next_or_noDevice {s : State} (hb : s.seqBusy = false) (hl : s.lifecycle = .detached) :
    (∃ t, step s = .next t) ∨ step s = .refused .noDevice := by
  rw [step_eq, fetch_detached hb hl]
  match hi : s.inputs with
  | [] => exact .inl ⟨s, by simp only [fetchDetached, hi]⟩
  | .attach :: rest => exact .inl ⟨reattach { s with inputs := rest }, by simp only [fetchDetached, hi]⟩
  | .request _ :: _ => exact .inr (by simp only [fetchDetached, hi])
  | .detach :: _ => exact .inr (by simp only [fetchDetached, hi])

/-- Settles O55: by whether the block is busy, where the invariant has a word to visit, and where it is in its life. -/
theorem invariantMachineNeverStops : Obligations.InvariantMachineNeverStops := by
  intro s hs
  cases hb : s.seqBusy with
  | true => exact .inl ⟨s.sendWord, hs.step_eq_sendWord hb⟩
  | false =>
    cases hl : s.lifecycle with
    | attaching => exact .inl ⟨attachTransfer s, by rw [step_eq, fetch_attaching hb hl]⟩
    | ready =>
      have hready : s.Ready := ⟨hb, hl⟩
      exact hready.step_next_or_alreadyAttached.imp_right fun h => .inr ⟨h, rfl⟩
    | detached => exact (step_next_or_noDevice hb hl).imp_right fun h => .inl ⟨h, rfl⟩

end Sys2Proof.Machine
end

section
/-! PROOFS, spec/70_reset_and_hazards.md. The two ends of a device's life. Where `MIRROR_COMMIT = BEFORE`, the attach
transfer is the control transfer of an operation that gives the mirror `outputControl` the value it already has, so
that what completes a control operation completes the attach too (R191). A detach only moves the block in its lifecycle,
where the model refuses what the requester presents next (R24, R193). -/

namespace Sys2Proof.Machine

/-! ## The attach transfer (R191) -/

theorem attachTransfer_eq_controlTransfer (s : State) :
    attachTransfer s = controlTransfer Config.params ⟨.outputControl, s.outputControl⟩
      (State.accepted { s with lifecycle := .ready }) := rfl

/-- The step after reset writes no mirror and puts the word of `outputControl` on the wire, whatever the transport
answers (R191). -/
theorem State.attach_completes {s : State} (hb : s.seqBusy = false) (hl : s.lifecycle = .attaching) {w : CommandWord}
    (hv : s.outputControl &&& ~~~Config.params.ocMask = 0) (hw : encodeControlWord .outputControl s.outputControl = w) :
    State.ControlCompletes { s with lifecycle := .ready } ⟨.outputControl, s.outputControl⟩ w (step s) := by
  have hready : State.Ready { s with lifecycle := .ready } := ⟨hb, rfl⟩
  have hstep : step s = .next (attachTransfer s) := by rw [step_eq, fetch_attaching hb hl]
  rw [hstep, attachTransfer_eq_controlTransfer]
  exact hready.control_completes hv hw

/-- Settles O48: the reset value 0x3800 of `outputControl` has owned bits only, and its word is 0xF800. -/
theorem attachTransmitsTheResetMirror : Obligations.AttachTransmitsTheResetMirror := by
  intro inputs rest
  have howned : State.reset.outputControl &&& ~~~Config.params.ocMask = 0 := by decide
  have hword : encodeControlWord .outputControl State.reset.outputControl = 0xF800 := by decide
  have hattach (answers : List Ack) :=
    State.attach_completes (s := { State.reset with inputs := inputs, answers := answers }) rfl rfl howned hword
  refine ⟨?_, fun e => ?_⟩
  · obtain ⟨hok, -, -⟩ := hattach (.ok :: rest)
    exact ⟨_, hok rest rfl, ⟨rfl, rfl⟩, rfl, rfl, rfl, rfl, rfl, rfl⟩
  · obtain ⟨-, herr, -⟩ := hattach (.err e :: rest)
    exact ⟨_, herr e rest rfl, ⟨rfl, rfl⟩, rfl, rfl, rfl, rfl, rfl, rfl, rfl⟩

/-! ## Detach, and a detached device (R24, R193, U6) -/

/-- A ready block takes the detach off the port, and nothing but its lifecycle changes (R193). -/
theorem State.Ready.step_detach {s : State} {rest : List HostEvent} (hs : s.Ready) (hi : s.inputs = .detach :: rest) :
    step s = .next (detach { s with inputs := rest }) := by
  obtain ⟨hb, hl⟩ := hs
  rw [step_eq, fetch_ready hb hl, fetchEvent, hi]

/-- A detached device refuses a request, whether or not its word decodes (R24, U6). -/
theorem step_request_of_detached {s : State} {w : Nat} {rest : List HostEvent} (hb : s.seqBusy = false)
    (hl : s.lifecycle = .detached) (hi : s.inputs = .request w :: rest) : step s = .refused .noDevice := by
  rw [step_eq, fetch_detached hb hl, fetchDetached, hi]

/-- Settles O49: by the step of a ready block that detaches, and the step of a detached device at a request. -/
theorem detachSendsNothing : Obligations.DetachSendsNothing :=
  ⟨fun _ _ hs hi => hs.step_detach hi, fun _ _ _ hb hl hi => step_request_of_detached hb hl hi⟩

end Sys2Proof.Machine
end
